-- ==== Sys2Proof/Word.lean ====
section
/-! DEFINITION. The word types of the core (spec/00_scope.md R6, R7; spec/30_encoding.md R60, R65, R68).
Bit 0 is the least-significant bit everywhere (R7). -/

namespace Sys2Proof

/-- Eight bits: the search command, a transmitted or received byte, the running CRC (R6). -/
abbrev Byte := BitVec 8

/-- A 64-bit ROM code (R60): a value, never a register (R33). -/
abbrev RomCode := BitVec 64

/-- The one field `OP` of the `CMD` register (R65). -/
abbrev HostOp := BitVec 3

/-- A PHY request word, `PRIM` in bits 10:8 and `DATA` in bits 7:0 (R68). -/
abbrev PhyWord := BitVec 11

end Sys2Proof
end

