-- ==== Sys2Proof/Config.lean ====
section
/-! DEFINITION. What an implementation of the core fixes (spec/00_scope.md R6) and the one source of free values.

The three widths are OPEN parameters of the spec (R6, 92_eei_decisions.md D5: "a model takes as an argument"); they are
carried in `State.cfg`, which no step changes, so that a statement about every state is a statement about every width
(notes/assumptions/1.md). -/

namespace Sys2Proof

/-- The open widths of R6: `MAXDEV_W`, `CAP_W`, `COUNT_W`. -/
structure Config where
  /-- `MAXDEV_W`, the width of `ARG_MAXDEV`. -/
  maxdevW : Nat
  /-- `CAP_W`, the width of `ARG_CAP`. -/
  capW : Nat
  /-- `COUNT_W`, the width of the signed `COUNT` and `RES_COUNT`; "must be at least 3" (R6). -/
  countW : Nat
  deriving DecidableEq, Repr

/-- R6's defaults: 32 bits each. -/
def Config.default : Config := { maxdevW := 32, capW := 32, countW := 32 }

/-- The largest value `COUNT` may take, `2^(COUNT_W-1) - 1` (spec/10_state.md R18). -/
def Config.countMax (c : Config) : Int := ((2 ^ (c.countW - 1) : Nat) : Int) - 1

/-- The free values: the `n`-th draw of a value that the spec says is unspecified, undetermined or "any value"
(93_implementation_defined.md U4, U8, U13; spec/70_reset_and_hazards.md R170, R175). It has no body, so nothing can be proved about which
number it is; the counter `State.draws` gives every use a draw of its own (notes/assumptions/5.md). -/
opaque Config.freeNat : Nat → Nat

end Sys2Proof
end

