-- ==== Sys2Proof/Syntax.lean ====
section
/-! DEFINITION. The instructions of the core: one constructor per row of spec/opcode_table.json.

Five are host commands (format `HOST`, spec/30_encoding.md R65); their operands are whole registers, not fields of the
command word (R75). Seven are PHY requests (format `PHY`, R68); their one operand is the `DATA` byte of the request word. -/

namespace Sys2Proof

/-- A host command (R65) or a PHY request (R68). -/
inductive Instr where
  /-- `RESET`, `OP = 001` (spec/40_transport.md R89). -/
  | reset
  /-- `SENDBYTE`, `OP = 010` (R90); operand `ARG_TXB`. -/
  | sendbyte
  /-- `READBYTE`, `OP = 011` (R91). -/
  | readbyte
  /-- `SCAN`, `OP = 100` (spec/42_search.md R110); operands `ARG_MAXDEV`, `ARG_SCMD`, `ARG_CAP`, `ARG_BUFEN`. -/
  | scan
  /-- `CHECKCRC`, `OP = 101` (spec/41_crc.md R102); operand `ARG_ROM`. -/
  | checkcrc
  /-- `PHY.resetAndSense`, `PRIM = 000` (R81). -/
  | phyResetAndSense
  /-- `PHY.setMode(1)`, `PRIM = 001`, `DATA = 00000001` (R86). -/
  | phySetModeBit
  /-- `PHY.setMode(8)`, `PRIM = 001`, `DATA = 00001000` (R86). -/
  | phySetModeByte
  /-- `PHY.sendBit(b)`, `PRIM = 010`, `DATA = 0000000b` (R82). -/
  | phySendBit (b : BitVec 1)
  /-- `PHY.readBit`, `PRIM = 011` (R83). -/
  | phyReadBit
  /-- `PHY.sendByte(v)`, `PRIM = 100`, `DATA = v` (R84). -/
  | phySendByte (v : Byte)
  /-- `PHY.readByte`, `PRIM = 101` (R85). -/
  | phyReadByte
  deriving DecidableEq, Repr

end Sys2Proof
end

