-- ==== Sys2Proof/Decode.lean ====
section
/-! DEFINITION. Decoding, total on every word and rejecting by name, and the encoder (spec/30_encoding.md R65 to R68, R76).

The core has two places where a word selects an operation: the `CMD` register, which the host writes, and the PHY request
port, which the sequencer writes. `Request` says at which of the two a word stands. -/

namespace Sys2Proof

/-- A word at one of the two ports: the 3-bit `OP` of `CMD` (R65) or an 11-bit PHY request word (R68). -/
inductive Request where
  | host (op : HostOp)
  | phy (w : PhyWord)
  deriving DecidableEq, Repr

/-- Why a word is no instruction. -/
inductive DecodeError where
  /-- `OP` = 000, 110 or 111 (R67). -/
  | reservedOp (op : HostOp)
  /-- `PRIM` = 110 or 111, "never issued" (R68). -/
  | primNeverIssued (w : PhyWord)
  /-- A `PRIM` whose `DATA` is not one R68 allows: an unused bit that is not 0, or a `setMode` operand other than 1 and 8
  (93_implementation_defined.md U5). -/
  | badData (w : PhyWord)
  /-- A value that does not fit the word: more than 3 bits written to `CMD`, more than 11 in a request (R65, R68). -/
  | tooWide (n : Nat)
  deriving DecidableEq, Repr

/-- `PRIM`, bits 10:8 of a request word (R68). -/
def primOf (w : PhyWord) : BitVec 3 := w.extractLsb' 8 3

/-- `DATA`, bits 7:0 of a request word (R68). -/
def dataOf (w : PhyWord) : Byte := w.extractLsb' 0 8

/-- The request word `PRIM, DATA` (R68). -/
def phyWord (prim : BitVec 3) (data : Byte) : PhyWord := prim ++ data

/-- The `DATA` byte `0000000b` of `sendBit` (R68, R82). -/
def bitData (b : BitVec 1) : Byte := b.setWidth 8

/-- Decode the `OP` field of `CMD` (R65, R67). -/
def decodeHost (op : HostOp) : Except DecodeError Instr :=
  if op = 0b001#3 then .ok .reset
  else if op = 0b010#3 then .ok .sendbyte
  else if op = 0b011#3 then .ok .readbyte
  else if op = 0b100#3 then .ok .scan
  else if op = 0b101#3 then .ok .checkcrc
  else .error (.reservedOp op)

/-- Decode a PHY request word (R68). -/
def decodePhy (w : PhyWord) : Except DecodeError Instr :=
  if primOf w = 0b000#3 then
    if dataOf w = 0 then .ok .phyResetAndSense else .error (.badData w)
  else if primOf w = 0b001#3 then
    if dataOf w = 0b00000001#8 then .ok .phySetModeBit
    else if dataOf w = 0b00001000#8 then .ok .phySetModeByte
    else .error (.badData w)
  else if primOf w = 0b010#3 then
    if (dataOf w).extractLsb' 1 7 = 0 then .ok (.phySendBit ((dataOf w).extractLsb' 0 1)) else .error (.badData w)
  else if primOf w = 0b011#3 then
    if dataOf w = 0 then .ok .phyReadBit else .error (.badData w)
  else if primOf w = 0b100#3 then .ok (.phySendByte (dataOf w))
  else if primOf w = 0b101#3 then
    if dataOf w = 0 then .ok .phyReadByte else .error (.badData w)
  else .error (.primNeverIssued w)

/-- Decode a word at either port. No mode bit changes how a word decodes (R76). -/
def decode : Request → Except DecodeError Instr
  | .host op => decodeHost op
  | .phy w => decodePhy w

/-- Decode a value written to `CMD`: only 3-bit values are words (R65). -/
def decodeCmdWrite (v : Nat) : Except DecodeError Instr :=
  if v < 8 then decode (.host (BitVec.ofNat 3 v)) else .error (.tooWide v)

/-- The word of an instruction, from the tables of R65 and R68. -/
def encode : Instr → Request
  | .reset => .host 0b001#3
  | .sendbyte => .host 0b010#3
  | .readbyte => .host 0b011#3
  | .scan => .host 0b100#3
  | .checkcrc => .host 0b101#3
  | .phyResetAndSense => .phy (phyWord 0b000#3 0)
  | .phySetModeBit => .phy (phyWord 0b001#3 0b00000001#8)
  | .phySetModeByte => .phy (phyWord 0b001#3 0b00001000#8)
  | .phySendBit b => .phy (phyWord 0b010#3 (bitData b))
  | .phyReadBit => .phy (phyWord 0b011#3 0)
  | .phySendByte v => .phy (phyWord 0b100#3 v)
  | .phyReadByte => .phy (phyWord 0b101#3 0)

/-- The number of a request's word, bit 0 least significant. -/
def Request.bits : Request → Nat
  | .host op => op.toNat
  | .phy w => w.toNat

/-- The instruction of the table word `w` of `nbits` bits. The table's formats tell the two ports apart by width: `HOST`
rows have 3 bits (8 in whole bytes), `PHY` rows 11 (16 in whole bytes). A word with bits above its format is none. -/
def decodeTableWord (nbits w : Nat) : Option Instr :=
  if nbits ≤ 8 then (decodeCmdWrite w).toOption
  else if w < 2048 then (decode (.phy (BitVec.ofNat 11 w))).toOption
  else none

end Sys2Proof
end

