-- ==== Sys2Proof/Machine/State.lean ====
section
/-! DEFINITION. Everything the spec gives the core and the outside it touches, as plain data (spec/10_state.md), with the
reasons a step can stop and the state after core reset (R28, R170). -/

namespace Sys2Proof.Machine

/-- The transport mode (R64): byte mode (8 bits per transaction) or bit mode (1 bit per transaction). -/
inductive Mode where
  | byte
  | bit
  deriving DecidableEq, Repr

/-- The sequencer register `PHASE` (R21): "the block's analogue of a program counter". -/
inductive Phase where
  /-- No command in progress. -/
  | idle
  /-- RESET command: bus reset in progress (R89). -/
  | xReset
  /-- SENDBYTE command (R90). -/
  | xSend
  /-- READBYTE command (R91). -/
  | xRead
  /-- CHECKCRC command (R102). -/
  | kRun
  /-- SCAN: switch to bit mode, initialise the cursor (R113). -/
  | sEnter
  /-- SCAN: loop condition (R114). -/
  | sCheck
  /-- SCAN: start of a pass (R115). -/
  | sBegin
  /-- SCAN: bus reset of the pass (R116). -/
  | sReset
  /-- SCAN: send search-command bit `CIDX` (R117). -/
  | sCmd
  /-- SCAN: read `a` for bit `IDX` (R118). -/
  | sReadA
  /-- SCAN: read `b` for bit `IDX` (R119). -/
  | sReadB
  /-- SCAN: classify `(a, b)`, choose the direction (R120 to R123). -/
  | sDecide
  /-- SCAN: send the chosen bit, update `CAND` (R124). -/
  | sWrite
  /-- SCAN: store the candidate, count it (R125). -/
  | sStore
  /-- SCAN: restore byte mode, deliver results (R126, R127). -/
  | sExit
  deriving DecidableEq, Repr

/-- The phases of SCAN (R21). -/
def Phase.isScan : Phase → Bool
  | .sEnter | .sCheck | .sBegin | .sReset | .sCmd | .sReadA | .sReadB | .sDecide | .sWrite | .sStore | .sExit => true
  | .idle | .xReset | .xSend | .xRead | .kRun => false

/-- The phases of SCAN between its two mode switches, `S_CHECK` to `S_STORE` (R31(b)). -/
def Phase.inPasses : Phase → Bool
  | .sCheck | .sBegin | .sReset | .sCmd | .sReadA | .sReadB | .sDecide | .sWrite | .sStore => true
  | .idle | .xReset | .xSend | .xRead | .kRun | .sEnter | .sExit => false

/-- The one error of the taxonomy (R150, R151); NoDevicePresent and CapacityExceeded are no errors (R152, R153). -/
inductive ErrorKind where
  | collisionInconsistency
  deriving DecidableEq, Repr

/-- What a response pair says (R63, R120). -/
inductive PairMeaning where
  /-- `(0,0)`: the devices disagree. -/
  | collision
  /-- `(1,1)`: no device responded. -/
  | inconsistency
  /-- `(0,1)` or `(1,0)`: the devices agree. -/
  | agreement
  deriving DecidableEq, Repr

/-- The three arms of the decision at a collision (R121). -/
inductive BranchArm where
  /-- `i == BP`: take the 1-branch. -/
  | resume
  /-- `i > BP` or `CAND[i] == 0`: take the 0-branch. -/
  | zeroBranch
  /-- `i < BP` and `CAND[i] == 1`: take the 1-branch again. -/
  | replay
  deriving DecidableEq, Repr

/-- The host-visible registers, numbered by R32. -/
inductive HostReg where
  | cmd
  | status
  | argMaxdev
  | argScmd
  | argCap
  | argBufen
  | argRom
  | argTxb
  | resCount
  | resErr
  | resPres
  | resRxb
  | resCrcok
  deriving DecidableEq, Repr

/-- What the host can do to the core and to its own output buffer (R11, R12, R13, R40, R56). -/
inductive HostAccess where
  /-- Write a register; a write of `CMD` starts a command (R65). -/
  | write (r : HostReg) (v : Nat)
  /-- Read a register. -/
  | read (r : HostReg)
  /-- Write entry `k` of `OUT`. -/
  | writeOut (k : Nat) (v : RomCode)
  /-- Read entry `k` of `OUT`. -/
  | readOut (k : Nat)
  deriving DecidableEq, Repr

/-- What the outside (host, platform, PHY) does next. The list `State.inbox` holds these, the next first; it is the oracle
of R5 and says how the outside's actions interleave with the core's steps (notes/assumptions/2.md). -/
inductive Event where
  /-- The outside does nothing for one step: the core moves if it can, an outstanding transaction is not completed. -/
  | wait
  /-- The host polls `STATUS` until it reads `BUSY = 0` (R74, R158). -/
  | awaitIdle
  /-- The host makes one access. -/
  | host (a : HostAccess)
  /-- The PHY completes the outstanding transaction and puts `v` on its answer lines (R5, R80, R93). -/
  | phyDone (v : Byte)
  /-- The PHY never completes the outstanding transaction (R88, R177; 93_implementation_defined.md U1, U3). -/
  | phyHang
  /-- The platform asserts core reset and releases it (R170 to R172), in one step: DESIGN CHOICE (notes/assumptions/9.md). -/
  | coreReset
  /-- The platform makes the PHY ready and puts it in byte mode (R172(1), (2)). -/
  | phyInit
  deriving DecidableEq, Repr

/-- What can be observed of the core's actions (R9(a), (b)), and the completions between them. -/
inductive TraceEvent where
  /-- The core issues a PHY transaction: the request with its operand (R9(a)). -/
  | issue (i : Instr)
  /-- The PHY completes a transaction: the request and the value returned (0 where none is), notes/assumptions/25.md. -/
  | phy (i : Instr) (v : Byte)
  /-- `MemWrite(k, 64, v)` (R41). -/
  | store (k : Nat) (v : RomCode)
  deriving DecidableEq, Repr

/-- The output buffer: pairs of an entry index and a 64-bit entry, indices strictly rising, no entry equal to
`Memory.blank`, which is what an unlisted entry reads as (R40; notes/assumptions/3.md, 4.md). -/
abbrev Memory := List (Nat × RomCode)

/-- What an entry of `OUT` that is not listed reads as. DESIGN CHOICE (notes/assumptions/4.md): the spec gives the host's
buffer no first contents. -/
def Memory.blank : RomCode := 0

/-- The model's own record of a store of the scan in progress, for host reads that race with it (R56, U8;
notes/assumptions/12.md): until completion the host sees either side, and nothing else (R41). -/
structure Race where
  /-- The entry's index. -/
  entry : Nat
  /-- The host's side: the content before the store, or what the host has written since. -/
  host : RomCode
  /-- The scan's side: the value it stored. -/
  scan : RomCode
  deriving DecidableEq, Repr

/-- The operand registers (R11), host read/write. `ARG_MAXDEV` and `ARG_CAP` are the non-negative integers of PLO's contract,
below `2^MAXDEV_W` and `2^CAP_W`. -/
structure Operands where
  /-- `CMD.OP`. -/
  op : HostOp
  /-- `ARG_MAXDEV`, 0 = unbounded (R111). -/
  maxdev : Nat
  /-- `ARG_SCMD`. -/
  scmd : Byte
  /-- `ARG_CAP`. -/
  cap : Nat
  /-- `ARG_BUFEN`. -/
  bufen : Bool
  /-- `ARG_ROM`. -/
  rom : RomCode
  /-- `ARG_TXB`. -/
  txb : Byte
  deriving DecidableEq, Repr

/-- The copies the core latches at command acceptance and alone reads during the command (R11, R23, R54). -/
structure Latched where
  maxdev : Nat
  scmd : Byte
  cap : Nat
  bufen : Bool
  rom : RomCode
  txb : Byte
  deriving DecidableEq, Repr

/-- The result registers (R12). -/
structure Results where
  /-- `RES_COUNT`, the signed count, a mathematical integer (R18); the host reads its `COUNT_W`-bit two's complement (R75). -/
  count : Int
  /-- `RES_ERR`: 0 none, 1 CollisionInconsistency (R69). -/
  err : BitVec 2
  /-- `RES_PRES`. -/
  pres : Bool
  /-- `RES_RXB`. -/
  rxb : Byte
  /-- `RES_CRCOK`. -/
  crcok : Bool
  deriving DecidableEq, Repr

/-- The search cursor and working registers (R14 to R20), read and written only by SCAN. -/
structure Cursor where
  /-- `BP`, `none` or 0 to 63 (R14). -/
  bp : Option (Fin 64)
  /-- `NBP`, same values (R15). -/
  nbp : Option (Fin 64)
  /-- `CAND` (R16). -/
  cand : RomCode
  /-- `FIN` (R17). -/
  fin : Bool
  /-- `COUNT`, treated as a mathematical integer (R18). -/
  count : Int
  /-- `IDX` (R19). -/
  idx : Fin 64
  /-- `CIDX` (R19). -/
  cidx : Fin 8
  /-- `A` (R20). -/
  a : Bool
  /-- `B` (R20). -/
  b : Bool
  /-- `d`, the direction chosen in `S_DECIDE` and sent in `S_WRITE` (R121, R123, R124). -/
  dir : Bool
  /-- `err`, "the value `RES_ERR` will take at exit" (R113, R127). -/
  err : Option ErrorKind
  deriving DecidableEq, Repr

/-- The CRC working registers (R26). -/
structure CrcRegs where
  /-- `CRC`. -/
  crc : Byte
  /-- `KIDX`, 6 bits. -/
  kidx : Fin 64
  deriving DecidableEq, Repr

/-- The PHY request port and the PHY's own mode (R29(a), R51, R68). -/
structure PhyPort where
  /-- The outstanding request word; at most one (R51). -/
  req : Option PhyWord
  /-- The completion, with its value, that the sequencer has not yet taken. -/
  ack : Option Byte
  /-- The PHY's answer lines: what it returns when it completes (R93). -/
  din : Byte
  /-- The PHY's own mode (R29(a)). -/
  mode : Mode
  /-- A transaction outstanding at a core reset: "not withdrawn" (R171), and no longer the core's. -/
  orphan : Option PhyWord
  deriving DecidableEq, Repr

/-- Why the machine stops with a fault. 93_implementation_defined.md part 1: "Nothing in this list has the treatment
**fault**"; the one stop here is its treatment *stuck*. -/
inductive Fault where
  /-- Raised by the step when the outside says that the PHY never completes the outstanding transaction: a state with no
  successor, never a completed command (R88, R177; U1, U3). Safe. -/
  | phyStuck
  deriving DecidableEq, Repr

/-- Why a step has no meaning: each is a treatment *refuse* of 93_implementation_defined.md. -/
inductive Refusal where
  /-- An instruction of the table without a meaning yet; raised by `exec`'s arms only. Safe. -/
  | notModelled (mnemonic : String)
  /-- A word that is no instruction: raised by the step for a `CMD` write with a reserved `OP` (R67; U2) and for a request
  word the PHY has no primitive for (R68; U5). Safe. -/
  | undecodable (e : DecodeError)
  /-- A bit transaction in byte mode or a byte transaction in bit mode: raised by the four bit and byte PHY requests
  (R87; U6). Safe. -/
  | wrongTransportMode
  /-- `STATUS.MODE` and the PHY's own mode differ, which only a foreign mode change or a core reset can bring about: raised by
  every PHY request (R176; U9). Safe. -/
  | phyModeDisagrees
  /-- A command that uses the PHY is started while the PHY is not in byte mode or still holds a transaction: the boot
  requirement is not met (R172; U14). Raised by RESET, SENDBYTE, READBYTE and SCAN. Safe. -/
  | phyNotReady
  /-- The platform reconfigures the PHY while a command runs (R176; U9). Raised by the step. Safe. -/
  | phyTakenWhileBusy
  deriving DecidableEq, Repr

/-- The whole state: the core's registers (R10) and the outside it touches. -/
structure State where
  /-- The open parameters of R6; no step changes them. -/
  cfg : Config
  /-- The operand registers (R11). -/
  args : Operands
  /-- The latched operands (R23). -/
  lat : Latched
  /-- The result registers (R12). -/
  res : Results
  /-- `STATUS.BUSY` (R13). -/
  busy : Bool
  /-- `STATUS.MODE` (R13). -/
  mode : Mode
  /-- `PHASE` (R21). -/
  phase : Phase
  /-- The search cursor and working registers (R14 to R20). -/
  cur : Cursor
  /-- The CRC working registers (R26). -/
  crc : CrcRegs
  /-- The output buffer `OUT`, owned by the host (R40). -/
  out : Memory
  /-- The model's own: the stores of the scan in progress, the newest first, which R56 needs. -/
  outRaces : List Race
  /-- The model's own: the entries a host write during the scan keeps from the scan's later store (R56, U8). -/
  outPinned : List Nat
  /-- The PHY port and the PHY's mode (R29, R68). -/
  phy : PhyPort
  /-- What the outside does next, the next first (R5). -/
  inbox : List Event
  /-- The value the host's last read returned (R9(c)). -/
  hostData : Nat
  /-- The model's own: how many free values have been drawn (93_implementation_defined.md). -/
  draws : Nat
  /-- The observable actions so far, the newest first (R9). -/
  trace : List TraceEvent
  deriving DecidableEq, Repr

/-- The operand registers after reset: unspecified (R28); 0, DESIGN CHOICE (notes/assumptions/6.md). -/
def Operands.zero : Operands :=
  { op := 0, maxdev := 0, scmd := 0, cap := 0, bufen := false, rom := 0, txb := 0 }

/-- The latched operands after reset: 0, DESIGN CHOICE (notes/assumptions/6.md). -/
def Latched.zero : Latched :=
  { maxdev := 0, scmd := 0, cap := 0, bufen := false, rom := 0, txb := 0 }

/-- The result registers after reset: unspecified (R28); 0, DESIGN CHOICE (notes/assumptions/6.md). -/
def Results.zero : Results :=
  { count := 0, err := 0, pres := false, rxb := 0, crcok := false }

/-- The cursor after reset: unspecified (R28); 0 and `none`, DESIGN CHOICE (notes/assumptions/6.md). -/
def Cursor.zero : Cursor :=
  { bp := none, nbp := none, cand := 0, fin := false, count := 0, idx := 0, cidx := 0, a := false, b := false,
    dir := false, err := none }

/-- The PHY port when the boot requirement R172(2) is met: nothing outstanding, byte mode. -/
def PhyPort.ready : PhyPort :=
  { req := none, ack := none, din := 0, mode := .byte, orphan := none }

/-- The state after core reset (R28, R170): `PHASE = IDLE`, `BUSY = 0`, `MODE = 0`; every other register is unspecified there
and 0 here (notes/assumptions/6.md); the PHY is in byte mode, as R172(2) requires before reset is released; the outside
has nothing to do yet (notes/assumptions/2.md). -/
def State.reset : State where
  cfg := Config.default
  args := Operands.zero
  lat := Latched.zero
  res := Results.zero
  busy := false
  mode := .byte
  phase := .idle
  cur := Cursor.zero
  crc := { crc := 0, kidx := 0 }
  out := []
  outRaces := []
  outPinned := []
  phy := PhyPort.ready
  inbox := []
  hostData := 0
  draws := 0
  trace := []

end Sys2Proof.Machine
end

