-- ==== Sys2Proof/Machine/Ops.lean ====
section
/-! DEFINITION. The shared operations: the output buffer, command acceptance and completion, a PHY transaction, raising
CollisionInconsistency, core reset and the platform's PHY initialisation. -/

namespace Sys2Proof.Machine

/-! ## The output buffer -/

/-- Entry `k` of `OUT` as the host reads it (R40). The core itself never reads it (R42). -/
def Memory.read : Memory → Nat → RomCode
  | [], _ => Memory.blank
  | (a, v) :: rest, k => if a = k then v else Memory.read rest k

/-- `MemWrite(k, 64, v)` (R41): entry `k` takes `v`, no other entry changes; the canonical form is kept. -/
def Memory.write : Memory → Nat → RomCode → Memory
  | [], k, v => if v = Memory.blank then [] else [(k, v)]
  | (a, w) :: rest, k, v =>
    if k < a then
      if v = Memory.blank then (a, w) :: rest else (k, v) :: (a, w) :: rest
    else if k = a then
      if v = Memory.blank then rest else (k, v) :: rest
    else (a, w) :: Memory.write rest k v

/-- The canonical form from index `lo` on: indices strictly rising, no blank entry. -/
def Memory.wfFrom : Nat → Memory → Bool
  | _, [] => true
  | lo, (a, v) :: rest => decide (lo ≤ a) && decide (v ≠ Memory.blank) && Memory.wfFrom (a + 1) rest

/-- The canonical form of `OUT`. -/
def Memory.wf (m : Memory) : Bool := Memory.wfFrom 0 m

/-! ## Commands -/

/-- The PHY is initialised, in byte mode and holds no transaction: what R172 requires before a command that uses it. -/
def State.phyReady (s : State) : Bool :=
  decide (s.phy.mode = .byte) && s.phy.req.isNone && s.phy.ack.isNone && s.phy.orphan.isNone

/-- Command acceptance (R23), in one step: `CMD` holds the code, `STATUS.BUSY <- 1`, `PHASE <-` the command's first phase.
The caller has latched the operands. -/
def accept (op : HostOp) (first : Phase) (s : State) : State :=
  { s with args := { s.args with op := op }, busy := true, phase := first }

/-- Start a command: in `IDLE` it is accepted; otherwise "it has no effect on the running command, and the core's state does
not change because of it" (R23, R174; notes/assumptions/7.md). A command that uses the PHY needs R172's boot requirement
(notes/assumptions/8.md). -/
def startCommand (usesPhy : Bool) (op : HostOp) (first : Phase) (latch : State → State) (s : State) :
    Host.Outcome State Fault Refusal :=
  if s.phase = .idle then
    if usesPhy && !s.phyReady then .refused .phyNotReady else .next (accept op first (latch s))
  else .next s

/-- Command completion (R24): after all other writes of the command, `STATUS.BUSY <- 0; PHASE <- IDLE`. -/
def complete (s : State) : State := { s with busy := false, phase := .idle }

/-! ## PHY transactions -/

/-- Whether a PHY request is legal in the transport mode: bit transactions in bit mode, byte transactions in byte mode, the
others in either (R87). -/
def modeAllows (need : Option Mode) (s : State) : Bool :=
  match need with
  | none => true
  | some m => decide (s.mode = m)

/-- The PHY completes the outstanding transaction (R80): the request port is free again, the value waits for the sequencer,
and the completion is on record beside the issue (notes/assumptions/25.md). -/
def finishTransaction (i : Instr) (v : Byte) (s : State) : State :=
  { s with phy := { s.phy with req := none, ack := some v }, trace := .phy i v :: s.trace }

/-- One PHY transaction (R80, R87): the mode precondition, the effect on the mode, the completion with its value. -/
def transact (i : Instr) (need : Option Mode) (effect : State → State) (v : Byte) (s : State) :
    Host.Outcome State Fault Refusal :=
  if s.phy.mode ≠ s.mode then .refused .phyModeDisagrees
  else if modeAllows need s then .next (finishTransaction i v (effect s))
  else .refused .wrongTransportMode

/-- `T.setMode`'s effect at completion: the PHY's mode and `STATUS.MODE`, its copy (R29(a), R86). -/
def setTransportMode (m : Mode) (s : State) : State :=
  { s with mode := m, phy := { s.phy with mode := m } }

/-- The sequencer puts the request `i`, whose word is `w`, on the port (R51, R68), and the issue is on record (R9(a)). -/
def issueWord (i : Instr) (w : PhyWord) (s : State) : State :=
  { s with phy := { s.phy with req := some w }, trace := .issue i :: s.trace }

/-- The sequencer issues a PHY request (R68). -/
def issue (i : Instr) (s : State) : State :=
  match encode i with
  | .phy w => issueWord i w s
  | .host _ => s

/-- The sequencer takes the PHY's completion. -/
def takeAck (s : State) : State := { s with phy := { s.phy with ack := none } }

/-! ## The error -/

/-- `raise CollisionInconsistency(i)` in full (R156, R122): `COUNT <- -2`, `err <- CollisionInconsistency`, `PHASE <- S_EXIT`.
There is no return from it: `S_EXIT` runs as on any exit and the core is in `IDLE` again (R159). -/
def raiseCollisionInconsistency (s : State) : State :=
  { s with cur := { s.cur with count := -2, err := some .collisionInconsistency }, phase := .sExit }

/-- The NoDevicePresent exit (R116, R157): "the same path without the error code". -/
def noDeviceExit (s : State) : State :=
  { s with cur := { s.cur with count := 0 }, phase := .sExit }

/-! ## Free values and core reset -/

/-- The next free value below `2^w`, and one draw more (notes/assumptions/5.md). -/
def freeBits (w : Nat) (s : State) : Nat := Config.freeNat s.draws % 2 ^ w

/-- The `n`-th draw from `d` on, as a bit. -/
def freeBit (d : Nat) : Bool := decide (Config.freeNat d % 2 = 1)

/-- The `n`-th draw from `d` on, as a branch point: `none` or an index (R14). -/
def freeBranch (d : Nat) : Option (Fin 64) :=
  if Config.freeNat d % 65 = 64 then none else some (Fin.ofNat 64 (Config.freeNat d % 65))

/-- Unspecified operand registers (R28, R170). -/
def freeOperands (c : Config) (d : Nat) : Operands :=
  { op := BitVec.ofNat 3 (Config.freeNat d)
    maxdev := Config.freeNat (d + 1) % 2 ^ c.maxdevW
    scmd := BitVec.ofNat 8 (Config.freeNat (d + 2))
    cap := Config.freeNat (d + 3) % 2 ^ c.capW
    bufen := freeBit (d + 4)
    rom := BitVec.ofNat 64 (Config.freeNat (d + 5))
    txb := BitVec.ofNat 8 (Config.freeNat (d + 6)) }

/-- Unspecified latched operands (R28, R170). -/
def freeLatched (c : Config) (d : Nat) : Latched :=
  { maxdev := Config.freeNat d % 2 ^ c.maxdevW
    scmd := BitVec.ofNat 8 (Config.freeNat (d + 1))
    cap := Config.freeNat (d + 2) % 2 ^ c.capW
    bufen := freeBit (d + 3)
    rom := BitVec.ofNat 64 (Config.freeNat (d + 4))
    txb := BitVec.ofNat 8 (Config.freeNat (d + 5)) }

/-- A signed `w`-bit value read from its bits. -/
def signedOf (w n : Nat) : Int := if n % 2 ^ w < 2 ^ (w - 1) then ((n % 2 ^ w : Nat) : Int) else ((n % 2 ^ w : Nat) : Int) - ((2 ^ w : Nat) : Int)

/-- Unspecified result registers (R28, R170). -/
def freeResults (c : Config) (d : Nat) : Results :=
  { count := signedOf c.countW (Config.freeNat d)
    err := BitVec.ofNat 2 (Config.freeNat (d + 1))
    pres := freeBit (d + 2)
    rxb := BitVec.ofNat 8 (Config.freeNat (d + 3))
    crcok := freeBit (d + 4) }

/-- Unspecified cursor registers (R28, R170). -/
def freeCursor (c : Config) (d : Nat) : Cursor :=
  { bp := freeBranch d
    nbp := freeBranch (d + 1)
    cand := BitVec.ofNat 64 (Config.freeNat (d + 2))
    fin := freeBit (d + 3)
    count := signedOf c.countW (Config.freeNat (d + 4))
    idx := Fin.ofNat 64 (Config.freeNat (d + 5))
    cidx := Fin.ofNat 8 (Config.freeNat (d + 6))
    a := freeBit (d + 7)
    b := freeBit (d + 8)
    dir := freeBit (d + 9)
    err := if freeBit (d + 10) then some .collisionInconsistency else none }

/-- Unspecified CRC working registers (R28, R170). -/
def freeCrc (d : Nat) : CrcRegs :=
  { crc := BitVec.ofNat 8 (Config.freeNat d), kidx := Fin.ofNat 64 (Config.freeNat (d + 1)) }

/-- How many free values a core reset draws. -/
def resetDraws : Nat := 32

/-- The PHY port at a core reset: an outstanding transaction is not withdrawn (R171); the PHY's mode is not touched in `IDLE`
(R28) and is any of the two after a reset during a command (R171; 93_implementation_defined.md U13). -/
def resetPhy (s : State) : PhyPort :=
  { s.phy with
    req := none
    ack := none
    orphan := if s.phy.req.isSome then s.phy.req else s.phy.orphan
    mode := if s.busy then (if freeBit (s.draws + 31) then .bit else .byte) else s.phy.mode }

/-- Core reset (R28, R170), also during a command (R171): `PHASE = IDLE`, `BUSY = 0`, `MODE = 0`; "everything else
unspecified", but the result registers of a command cut short "keep what they had" and `OUT` is not touched
(notes/assumptions/9.md). It issues no PHY transaction. That assertion and release are one step, so that the platform's
initialisation of the PHY (R172(2)) comes after the release (R172(3)) and nothing happens while reset is held, is the model's,
DESIGN CHOICE (notes/assumptions/9.md). -/
def coreReset (s : State) : State :=
  { s with
    phase := .idle
    busy := false
    mode := .byte
    args := freeOperands s.cfg s.draws
    lat := freeLatched s.cfg (s.draws + 7)
    res := if s.busy then s.res else freeResults s.cfg (s.draws + 13)
    cur := freeCursor s.cfg (s.draws + 18)
    crc := freeCrc (s.draws + 29)
    phy := resetPhy s
    draws := s.draws + resetDraws }

/-- The platform initialises the PHY and puts it in byte mode (R172(1), (2)); while a command runs it must not
(R176; U9). After a core reset during a command it comes after the release, before the next command: DESIGN CHOICE
(notes/assumptions/9.md). -/
def phyInit (s : State) : Host.Outcome State Fault Refusal :=
  if s.busy then .refused .phyTakenWhileBusy
  else .next { s with phy := { s.phy with req := none, ack := none, orphan := none, mode := .byte } }

end Sys2Proof.Machine
end

