-- ==== Sys2Proof/Machine/Operands.lean ====
section
/-! DEFINITION. Operand forms: the ROM code's fields, the bits a command takes from its operands, the register numbers and
widths, and what the host reads and writes (spec/10_state.md R11, R12, R32; spec/30_encoding.md R60 to R62, R70, R75). -/

namespace Sys2Proof.Machine

/-! ## ROM codes (R60, R61) -/

/-- `family(rom) = rom[7:0]`. -/
def family (rom : RomCode) : Byte := rom.extractLsb' 0 8

/-- `serial(rom) = rom[55:8]`. -/
def serial (rom : RomCode) : BitVec 48 := rom.extractLsb' 8 48

/-- `crc(rom) = rom[63:56]`. -/
def crcField (rom : RomCode) : Byte := rom.extractLsb' 56 8

/-- `payload(rom) = rom[55:0]`. -/
def payload (rom : RomCode) : BitVec 56 := rom.extractLsb' 0 56

/-- `pack(family, serial, crc) = (crc << 56) | (serial << 8) | family`. -/
def pack (fam : Byte) (ser : BitVec 48) (crc : Byte) : RomCode :=
  (crc.setWidth 64 <<< 56) ||| (ser.setWidth 64 <<< 8) ||| fam.setWidth 64

/-- Byte `n` of a ROM code, bits `8n+7 : 8n` (R44). -/
def romByte (n : Nat) (rom : RomCode) : Byte := rom.extractLsb' (8 * n) 8

/-! ## Bits of operands (R62, R75) -/

/-- `ARG_SCMD[CIDX]`, from the latched copy (R117, R75). -/
def searchCommandBit (s : State) : Bool := s.lat.scmd.getLsbD s.cur.cidx.val

/-- `CAND[IDX]` (R121). -/
def candidateBit (s : State) : Bool := s.cur.cand.getLsbD s.cur.idx.val

/-- A bit as the one-bit operand of `sendBit` (R82). -/
def bitOperand (b : Bool) : BitVec 1 := BitVec.ofBool b

/-- `REG[i] <- b`: bit `i` takes `b`, all other bits unchanged (R8, R140). -/
def setBit (v : RomCode) (i : Nat) (b : Bool) : RomCode :=
  if b then v ||| BitVec.twoPow 64 i else v &&& ~~~ BitVec.twoPow 64 i

/-! ## The PHY's answers (R93) -/

/-- The one bit `resetAndSense` or `readBit` returns: line 0 of the PHY's answer lines, passed on as returned. -/
def answerBit (s : State) : Byte := if s.phy.din.getLsbD 0 then 1 else 0

/-- A returned bit as a truth value. -/
def bitOfAnswer (v : Byte) : Bool := v.getLsbD 0

/-! ## Branch points (R14, R70) -/

/-- The 7-bit two's-complement storage of `BP` and `NBP`: `none` is -1 (R70). -/
def encodeBranch : Option (Fin 64) → BitVec 7
  | none => 0b1111111#7
  | some i => BitVec.ofNat 7 i.val

/-- `i == BP`; false for `none` (R14). -/
def atBranch (i : Fin 64) (bp : Option (Fin 64)) : Bool := decide (bp = some i)

/-- `i > BP`; true for `none` (R14). -/
def pastBranch (i : Fin 64) : Option (Fin 64) → Bool
  | none => true
  | some j => decide (j < i)

/-! ## Latching (R23): each command latches the operands it uses (R65) -/

/-- SENDBYTE latches `ARG_TXB` (R90). -/
def latchTxb (s : State) : State := { s with lat := { s.lat with txb := s.args.txb } }

/-- SCAN latches `ARG_MAXDEV`, `ARG_SCMD`, `ARG_CAP`, `ARG_BUFEN` (R110). -/
def latchScan (s : State) : State :=
  { s with
    lat := { s.lat with maxdev := s.args.maxdev, scmd := s.args.scmd, cap := s.args.cap, bufen := s.args.bufen }
    outRaces := []
    outPinned := [] }

/-- CHECKCRC latches `ARG_ROM` (R102). -/
def latchRom (s : State) : State := { s with lat := { s.lat with rom := s.args.rom } }

/-! ## Races for an entry of `OUT` (R56, U8; notes/assumptions/12.md) -/

/-- The race for entry `k`, if the scan in progress has stored it. -/
def raceAt (k : Nat) : List Race → Option Race
  | [] => none
  | r :: rest => if r.entry = k then some r else raceAt k rest

/-- The races once the host has written `v` to entry `k`: its own earlier content is gone, the scan's store may yet follow. -/
def hostWrote (k : Nat) (v : RomCode) : List Race → List Race
  | [] => []
  | r :: rest => (if r.entry = k then { r with host := v } else r) :: hostWrote k v rest

/-! ## Host-visible registers (R11, R12, R13, R32) -/

/-- The register numbers of R32, "with no byte addresses and no meaning beyond identification". -/
def HostReg.number : HostReg → Nat
  | .cmd => 0
  | .status => 1
  | .argMaxdev => 2
  | .argScmd => 3
  | .argCap => 4
  | .argBufen => 5
  | .argRom => 6
  | .argTxb => 7
  | .resCount => 8
  | .resErr => 9
  | .resPres => 10
  | .resRxb => 11
  | .resCrcok => 12

/-- The register with a number of R32, if there is one. -/
def HostReg.ofNumber : Nat → Option HostReg
  | 0 => some .cmd
  | 1 => some .status
  | 2 => some .argMaxdev
  | 3 => some .argScmd
  | 4 => some .argCap
  | 5 => some .argBufen
  | 6 => some .argRom
  | 7 => some .argTxb
  | 8 => some .resCount
  | 9 => some .resErr
  | 10 => some .resPres
  | 11 => some .resRxb
  | 12 => some .resCrcok
  | _ => none

/-- The width of a host-visible register (R11, R12, R13). -/
def HostReg.width (c : Config) : HostReg → Nat
  | .cmd => 3
  | .status => 8
  | .argMaxdev => c.maxdevW
  | .argScmd => 8
  | .argCap => c.capW
  | .argBufen => 1
  | .argRom => 64
  | .argTxb => 8
  | .resCount => c.countW
  | .resErr => 2
  | .resPres => 1
  | .resRxb => 8
  | .resCrcok => 1

/-- Write an operand register, keeping the bits it has (notes/assumptions/10.md). `CMD` is not written this way (R65);
`STATUS` is read-only (R13) and "a host write is ignored" for a result register (R12). -/
def writeOperand (c : Config) (r : HostReg) (v : Nat) (a : Operands) : Operands :=
  match r with
  | .argMaxdev => { a with maxdev := v % 2 ^ c.maxdevW }
  | .argScmd => { a with scmd := BitVec.ofNat 8 v }
  | .argCap => { a with cap := v % 2 ^ c.capW }
  | .argBufen => { a with bufen := decide (v % 2 = 1) }
  | .argRom => { a with rom := BitVec.ofNat 64 v }
  | .argTxb => { a with txb := BitVec.ofNat 8 v }
  | .cmd | .status | .resCount | .resErr | .resPres | .resRxb | .resCrcok => a

/-- Whether `COUNT_W` bits hold the count, `-2^(COUNT_W-1) <= n <= 2^(COUNT_W-1) - 1` (R6, R18). -/
def countFits (c : Config) (n : Int) : Bool := decide (-((2 ^ (c.countW - 1) : Nat) : Int) ≤ n) && decide (n ≤ c.countMax)

/-- `RES_COUNT` as the host reads it: "the `COUNT_W`-bit two's complement of the returned count" (R75). -/
def countBits (c : Config) (n : Int) : Nat := (n % ((2 ^ c.countW : Nat) : Int)).toNat

end Sys2Proof.Machine
end

