-- ==== Sys2Proof/Machine/Flags.lean ====
section
/-! DEFINITION. Flags: the `STATUS` word, the response pair, the three-way decision, the loop condition and the store
condition (spec/10_state.md R13, R25; spec/30_encoding.md R63, R69; spec/42_search.md R114, R120, R121, R125). -/

namespace Sys2Proof.Machine

/-- `STATUS.MODE` as a bit: 0 = byte mode, 1 = bit mode (R13, R64). -/
def modeFlag : Mode → Bool
  | .byte => false
  | .bit => true

/-- `STATUS` as the host reads it: `BUSY` in bit 0, `MODE` in bit 1, bits 7 to 2 read as 0 (R13). -/
def statusWord (s : State) : Byte :=
  (if s.busy then 0b01#8 else 0) ||| (if modeFlag s.mode then 0b10#8 else 0)

/-- The classification of the response pair, tested in the order of R120: collision, inconsistency, agreement. -/
def pairMeaning (a b : Bool) : PairMeaning :=
  if a = false ∧ b = false then .collision
  else if a = true ∧ b = true then .inconsistency
  else .agreement

/-- The three-way decision at a collision, the tests in the order of R121 (R182). `c` is `CAND[i]`, the bit the previous pass
left. -/
def branchArm (i : Fin 64) (bp : Option (Fin 64)) (c : Bool) : BranchArm :=
  if atBranch i bp then .resume
  else if pastBranch i bp || !c then .zeroBranch
  else .replay

/-- The loop condition `FIN == 0 and (ARG_MAXDEV == 0 or COUNT < ARG_MAXDEV)` (R114, R141(c)). -/
def anotherPass (s : State) : Bool :=
  !s.cur.fin && (decide (s.lat.maxdev = 0) || decide (s.cur.count < (s.lat.maxdev : Int)))

/-- The store condition `ARG_BUFEN == 1 and COUNT < ARG_CAP` (R125) with R41's precondition `0 <= k`. -/
def storesCandidate (s : State) : Bool :=
  s.lat.bufen && decide (0 ≤ s.cur.count) && decide (s.cur.count < (s.lat.cap : Int))

/-- `RES_ERR`'s code: 0 = none, 1 = CollisionInconsistency (R69). -/
def errorCode : Option ErrorKind → BitVec 2
  | none => 0
  | some .collisionInconsistency => 1

/-- Whether entry `k` of `OUT` is one the host must not touch now: between acceptance and completion of a SCAN with
`ARG_BUFEN = 1`, entries `0 .. ARG_CAP - 1` (R56). -/
def scanOwns (k : Nat) (s : State) : Bool := s.phase.isScan && s.lat.bufen && decide (k < s.lat.cap)

/-- What a host read of a register returns (R12, R13, R75). -/
def registerValue (s : State) : HostReg → Nat
  | .cmd => s.args.op.toNat
  | .status => (statusWord s).toNat
  | .argMaxdev => s.args.maxdev
  | .argScmd => s.args.scmd.toNat
  | .argCap => s.args.cap
  | .argBufen => s.args.bufen.toNat
  | .argRom => s.args.rom.toNat
  | .argTxb => s.args.txb.toNat
  | .resCount => countBits s.cfg s.res.count
  | .resErr => s.res.err.toNat
  | .resPres => s.res.pres.toNat
  | .resRxb => s.res.rxb.toNat
  | .resCrcok => s.res.crcok.toNat

end Sys2Proof.Machine
end

