-- ==== Sys2Proof/Machine/Crc.lean ====
section
/-! DEFINITION. The CRC-8 validator (spec/41_crc.md): the step, the function and the CHECKCRC command. -/

namespace Sys2Proof.Machine

/-- The feedback mask (R72, R104). -/
def crcMask : Byte := 0x8C#8

/-- `crc_step(c, x)` (R100). -/
def crcStep (c : Byte) (x : Bool) : Byte :=
  if (x ^^ c.getLsbD 0) = true then (c >>> 1) ^^^ crcMask else c >>> 1

/-- The CRC register after the first `n` bits of `v`, least-significant bit first, from 0 (R101, R102). -/
def crcAfter {w : Nat} (v : BitVec w) : Nat → Byte
  | 0 => 0
  | n + 1 => crcStep (crcAfter v n) (v.getLsbD n)

/-- `crc8(p)`: exactly 56 bits are consumed (R101). -/
def crc8 (p : BitVec 56) : Byte := crcAfter p 56

/-- `checkCrc(id)`: the computed CRC equals the `crc` field (R102). -/
def checkCrc (rom : RomCode) : Bool := decide (crc8 (payload rom) = crcField rom)

/-- CHECKCRC (R102): acceptance; `ARG_ROM` is latched. It uses no PHY (R103). -/
def execCheckcrc (s : State) : Host.Outcome State Fault Refusal :=
  startCommand false 0b101#3 .kRun latchRom s

/-- `K_RUN` (R102): the 56 iterations in one step (R106), then `RES_CRCOK <- (CRC == ARG_ROM[63:56])`; complete. `KIDX` is
left at the last index (notes/assumptions/11.md). -/
def kRun (s : State) : State :=
  complete { s with
    crc := { crc := crcAfter s.lat.rom 56, kidx := 55 }
    res := { s.res with crcok := decide (crcAfter s.lat.rom 56 = crcField s.lat.rom) } }

end Sys2Proof.Machine
end

