-- ==== Sys2Proof/Machine/Search.lean ====
section
/-! DEFINITION. The ROM search engine (spec/42_search.md): the SCAN command and one definition per phase, in execution order
(R113 to R127). A definition whose name ends in `Done` is what its phase does when its PHY transaction has completed. -/

namespace Sys2Proof.Machine

/-- SCAN (R110): acceptance; the four operands are latched. -/
def execScan (s : State) : Host.Outcome State Fault Refusal :=
  startCommand true 0b100#3 .sEnter latchScan s

/-- `S_ENTER` (R113), after `T.setMode(bit)`. -/
def sEnterDone (s : State) : State :=
  { s with
    cur := { s.cur with nbp := none, count := 0, fin := false, cand := 0, err := none }
    phase := .sCheck }

/-- `S_CHECK` (R114). -/
def sCheck (s : State) : State :=
  { s with phase := if anotherPass s then .sBegin else .sExit }

/-- `S_BEGIN` (R115). -/
def sBegin (s : State) : State :=
  { s with cur := { s.cur with bp := s.cur.nbp, fin := true }, phase := .sReset }

/-- `S_RESET` (R116), after `T.reset` returned `v`. -/
def sResetDone (v : Byte) (s : State) : State :=
  if bitOfAnswer v then { s with cur := { s.cur with cidx := 0 }, phase := .sCmd } else noDeviceExit s

/-- `S_CMD` (R117), after `T.sendBit(ARG_SCMD[CIDX])`. -/
def sCmdDone (s : State) : State :=
  if s.cur.cidx = 7 then { s with cur := { s.cur with idx := 0 }, phase := .sReadA }
  else { s with cur := { s.cur with cidx := s.cur.cidx + 1 } }

/-- `S_READ_A` (R118), after `T.readBit` returned `v`. -/
def sReadADone (v : Byte) (s : State) : State :=
  { s with cur := { s.cur with a := bitOfAnswer v }, phase := .sReadB }

/-- `S_READ_B` (R119), after `T.readBit` returned `v`. -/
def sReadBDone (v : Byte) (s : State) : State :=
  { s with cur := { s.cur with b := bitOfAnswer v }, phase := .sDecide }

/-- The effect of each arm of R121: `d`, and in the 0-branch `FIN` and `NBP`. -/
def takeArm (arm : BranchArm) (s : State) : State :=
  match arm with
  | .resume => { s with cur := { s.cur with dir := true }, phase := .sWrite }
  | .zeroBranch =>
    { s with cur := { s.cur with dir := false, fin := false, nbp := some s.cur.idx }, phase := .sWrite }
  | .replay => { s with cur := { s.cur with dir := true }, phase := .sWrite }

/-- `S_DECIDE` (R120 to R123). -/
def sDecide (s : State) : State :=
  match pairMeaning s.cur.a s.cur.b with
  | .collision => takeArm (branchArm s.cur.idx s.cur.bp (candidateBit s)) s
  | .inconsistency => raiseCollisionInconsistency s
  | .agreement => { s with cur := { s.cur with dir := s.cur.a }, phase := .sWrite }

/-- `S_WRITE` (R124), after `T.sendBit(d)`. -/
def sWriteDone (s : State) : State :=
  if s.cur.idx = 63 then
    { s with cur := { s.cur with cand := setBit s.cur.cand s.cur.idx.val s.cur.dir }, phase := .sStore }
  else
    { s with
      cur := { s.cur with cand := setBit s.cur.cand s.cur.idx.val s.cur.dir, idx := s.cur.idx + 1 }
      phase := .sReadA }

/-- The one store, `MemWrite(COUNT, 64, CAND)` (R125, R144). It is lost where a host write during the scan is the last one to
that entry (R56, U8). The entry's content before it is kept on record for host reads that race with the store; the core itself
makes no use of it (R42). -/
def storeCandidate (s : State) : State :=
  { s with
    out := if s.cur.count.toNat ∈ s.outPinned then s.out else s.out.write s.cur.count.toNat s.cur.cand
    outRaces :=
      { entry := s.cur.count.toNat, host := s.out.read s.cur.count.toNat, scan := s.cur.cand } :: s.outRaces
    trace := .store s.cur.count.toNat s.cur.cand :: s.trace }

/-- The unconditional increment of `COUNT` and the return to `S_CHECK` (R125, R144). -/
def countPass (s : State) : State :=
  { s with cur := { s.cur with count := s.cur.count + 1 }, phase := .sCheck }

/-- `S_STORE` (R125). `COUNT` is a mathematical integer (R18): of U11's two treatments the model takes "unbounded integers"
(notes/assumptions/15.md). -/
def sStore (s : State) : Host.Outcome State Fault Refusal :=
  .next (countPass (if storesCandidate s then storeCandidate s else s))

/-- `S_EXIT` (R127), after `T.setMode(byte)` of R126: deliver the results; complete. -/
def sExitDone (s : State) : State :=
  complete { s with res := { s.res with count := s.cur.count, err := errorCode s.cur.err } }

end Sys2Proof.Machine
end

