-- ==== Sys2Proof/Machine/Transport.lean ====
section
/-! DEFINITION. The transport controller (spec/40_transport.md): the six operations as PHY requests (R81 to R86), the three
host commands (R89 to R91) and what their phases do when the transaction completes. -/

namespace Sys2Proof.Machine

/-! ## PHY requests -/

/-- `T.reset` (R81): a bus reset; returns the presence bit; legal in both modes. -/
def execPhyResetAndSense (s : State) : Host.Outcome State Fault Refusal :=
  transact .phyResetAndSense none id (answerBit s) s

/-- `T.setMode(bit)` (R86): the PHY and `STATUS.MODE` go to bit mode when the transaction completes. -/
def execPhySetModeBit (s : State) : Host.Outcome State Fault Refusal :=
  transact .phySetModeBit none (setTransportMode .bit) 0 s

/-- `T.setMode(byte)` (R86): the PHY and `STATUS.MODE` go to byte mode when the transaction completes. -/
def execPhySetModeByte (s : State) : Host.Outcome State Fault Refusal :=
  transact .phySetModeByte none (setTransportMode .byte) 0 s

/-- `T.sendBit(b)` (R82): one write slot; bit mode only. -/
def execPhySendBit (b : BitVec 1) (s : State) : Host.Outcome State Fault Refusal :=
  transact (.phySendBit b) (some .bit) id 0 s

/-- `T.readBit` (R83): one read slot; returns the sampled bit; bit mode only. -/
def execPhyReadBit (s : State) : Host.Outcome State Fault Refusal :=
  transact .phyReadBit (some .bit) id (answerBit s) s

/-- `T.sendByte(v)` (R84): one transaction of 8 bits; byte mode only. -/
def execPhySendByte (v : Byte) (s : State) : Host.Outcome State Fault Refusal :=
  transact (.phySendByte v) (some .byte) id 0 s

/-- `T.readByte` (R85): returns 8 bits; byte mode only. -/
def execPhyReadByte (s : State) : Host.Outcome State Fault Refusal :=
  transact .phyReadByte (some .byte) id s.phy.din s

/-! ## Host commands -/

/-- RESET (R89): acceptance. No operand is latched. -/
def execReset (s : State) : Host.Outcome State Fault Refusal :=
  startCommand true 0b001#3 .xReset id s

/-- SENDBYTE (R90): acceptance; `ARG_TXB` is latched. -/
def execSendbyte (s : State) : Host.Outcome State Fault Refusal :=
  startCommand true 0b010#3 .xSend latchTxb s

/-- READBYTE (R91): acceptance. No operand is latched. -/
def execReadbyte (s : State) : Host.Outcome State Fault Refusal :=
  startCommand true 0b011#3 .xRead id s

/-! ## The commands' phases, when their transaction has completed with value `v` -/

/-- `X_RESET` (R89): `RES_PRES <- p`; complete. -/
def xResetDone (v : Byte) (s : State) : State :=
  complete { s with res := { s.res with pres := bitOfAnswer v } }

/-- `X_SEND` (R90): complete; no result register changes. -/
def xSendDone (s : State) : State := complete s

/-- `X_READ` (R91): `RES_RXB <- v`; complete. -/
def xReadDone (v : Byte) (s : State) : State :=
  complete { s with res := { s.res with rxb := v } }

end Sys2Proof.Machine
end

