-- ==== Sys2Proof/Machine/Dispatch.lean ====
section
/-! DEFINITION. The meaning of every instruction: one direct call per constructor. -/

namespace Sys2Proof.Machine

-- the five host commands (R65)
def exec (i : Instr) (s : State) : Host.Outcome State Fault Refusal :=
  match i with
  | .reset => Sys2Proof.Machine.execReset s
  | .sendbyte => Sys2Proof.Machine.execSendbyte s
  | .readbyte => Sys2Proof.Machine.execReadbyte s
  | .scan => Sys2Proof.Machine.execScan s
  | .checkcrc => Sys2Proof.Machine.execCheckcrc s
  -- the seven PHY requests (R68)
  | .phyResetAndSense => Sys2Proof.Machine.execPhyResetAndSense s
  | .phySetModeBit => Sys2Proof.Machine.execPhySetModeBit s
  | .phySetModeByte => Sys2Proof.Machine.execPhySetModeByte s
  | .phySendBit b => Sys2Proof.Machine.execPhySendBit b s
  | .phyReadBit => Sys2Proof.Machine.execPhyReadBit s
  | .phySendByte v => Sys2Proof.Machine.execPhySendByte v s
  | .phyReadByte => Sys2Proof.Machine.execPhyReadByte s

end Sys2Proof.Machine
end

