-- ==== Sys2Proof/Machine/Sequencer.lean ====
section
/-! DEFINITION. The sequencer (spec/10_state.md R21, R22; spec/43_laws_and_sequencing.md R142) and the interleaving of the
core with the outside (spec/00_scope.md R5), the effect of a host access being a parameter. -/

namespace Sys2Proof.Machine

/-- The PHY request a phase makes; `none` for a phase without a transaction (R22). -/
def phaseRequest (s : State) : Option Instr :=
  match s.phase with
  | .xReset => some .phyResetAndSense
  | .xSend => some (.phySendByte s.lat.txb)
  | .xRead => some .phyReadByte
  | .sEnter => some .phySetModeBit
  | .sReset => some .phyResetAndSense
  | .sCmd => some (.phySendBit (bitOperand (searchCommandBit s)))
  | .sReadA => some .phyReadBit
  | .sReadB => some .phyReadBit
  | .sWrite => some (.phySendBit (bitOperand s.cur.dir))
  | .sExit => some .phySetModeByte
  | .idle | .kRun | .sCheck | .sBegin | .sDecide | .sStore => none

/-- What a phase with a transaction does when it has completed with value `v`. -/
def phaseDone (v : Byte) (s : State) : State :=
  match s.phase with
  | .xReset => xResetDone v s
  | .xSend => xSendDone s
  | .xRead => xReadDone v s
  | .sEnter => sEnterDone s
  | .sReset => sResetDone v s
  | .sCmd => sCmdDone s
  | .sReadA => sReadADone v s
  | .sReadB => sReadBDone v s
  | .sWrite => sWriteDone s
  | .sExit => sExitDone s
  | .idle | .kRun | .sCheck | .sBegin | .sDecide | .sStore => s

/-- What a phase without a transaction does (R22: such a phase always advances); in `IDLE` the core waits (R28). -/
def phaseStep (s : State) : Host.Outcome State Fault Refusal :=
  match s.phase with
  | .kRun => .next (kRun s)
  | .sCheck => .next (sCheck s)
  | .sBegin => .next (sBegin s)
  | .sDecide => .next (sDecide s)
  | .sStore => sStore s
  | .idle | .xReset | .xSend | .xRead | .sEnter | .sReset | .sCmd | .sReadA | .sReadB | .sWrite | .sExit => .next s

/-- One step of the core by itself. While a transaction is outstanding it does nothing (R22, R80). -/
def coreMove (s : State) : Host.Outcome State Fault Refusal :=
  if s.phy.req.isSome then .next s
  else
    match phaseRequest s with
    | none => phaseStep s
    | some i =>
      match s.phy.ack with
      | none => .next (issue i s)
      | some v => .next (phaseDone v (takeAck s))

/-- The PHY completes the request word on its port (R68, R80). -/
def runPhyWord (w : PhyWord) (s : State) : Host.Outcome State Fault Refusal :=
  match decode (.phy w) with
  | .ok i => exec i s
  | .error e => .refused (.undecodable e)

/-- The state once the first event has been taken from the inbox. -/
def popEvent (s : State) : State := { s with inbox := s.inbox.tail }

/-- The PHY's answer lines take `v`. -/
def answerLines (v : Byte) (s : State) : State := { s with phy := { s.phy with din := v } }

/-- A completion waits for its transaction: the core moves on until it has a request outstanding; in `IDLE` there will be
none, and the completion is void (notes/assumptions/2.md). -/
def awaitRequest (s : State) : Host.Outcome State Fault Refusal :=
  if s.phase = .idle then .next (popEvent s) else coreMove s

/-- One step: the outside's next action, or the core's; what a host access does is `access`. -/
def advanceWith (access : HostAccess → State → Host.Outcome State Fault Refusal) (s : State) :
    Host.Outcome State Fault Refusal :=
  match s.inbox with
  | [] => coreMove s
  | .wait :: _ => coreMove (popEvent s)
  | .awaitIdle :: _ => if s.busy then coreMove s else .next (popEvent s)
  | .host a :: _ => access a (popEvent s)
  | .phyDone v :: _ =>
    match s.phy.req with
    | some w => runPhyWord w (answerLines v (popEvent s))
    | none => awaitRequest s
  | .phyHang :: _ =>
    match s.phy.req with
    | some _ => .fault .phyStuck
    | none => awaitRequest s
  | .coreReset :: _ => .next (coreReset (popEvent s))
  | .phyInit :: _ => phyInit (popEvent s)

/-- The mode a PHY request needs, if it needs one (R87). -/
def modeNeeded : Instr → Option Mode
  | .phySendBit _ | .phyReadBit => some .bit
  | .phySendByte _ | .phyReadByte => some .byte
  | .phyResetAndSense | .phySetModeBit | .phySetModeByte => none
  | .reset | .sendbyte | .readbyte | .scan | .checkcrc => none

/-- The transport mode in which the request word `w` is legal (R87): the state's own where either is. -/
def modeForWord (w : PhyWord) (s : State) : Mode :=
  match decode (.phy w) with
  | .ok i => (modeNeeded i).getD s.mode
  | .error _ => s.mode

/-- The host is about to write the command word `w` to `CMD`. -/
def placeHostWord (w : Nat) (s : State) : State :=
  { s with inbox := .host (.write .cmd w) :: s.inbox }

/-- The request word `w` is outstanding and the PHY is about to complete it, in a mode in which it is legal. -/
def placePhyWord (w : PhyWord) (s : State) : State :=
  { s with
    mode := modeForWord w s
    phy := { s.phy with req := some w, mode := modeForWord w s }
    inbox := .phyDone 0 :: s.inbox }

end Sys2Proof.Machine
end

