-- ==== Sys2Proof/Machine/HostPort.lean ====
section
/-! DEFINITION. The host's accesses to registers and to `OUT` (spec/10_state.md R11 to R13, R23; spec/20_memory.md R40, R56), the
value a running scan is going to store, and the machine's step with the host in it. -/

namespace Sys2Proof.Machine

/-- The host writes `CMD`: the command the value selects is started (R65); a value that selects none is refused (R67, U2). -/
def writeCmd (v : Nat) (s : State) : Host.Outcome State Fault Refusal :=
  match decodeCmdWrite v with
  | .ok i => exec i s
  | .error e => .refused (.undecodable e)

/-- The host writes an operand register. While `BUSY = 1` the running command is unaffected, and the register's content
afterwards is the old or the new one, a free choice (R11; U4). -/
def writeRegister (r : HostReg) (v : Nat) (s : State) : State :=
  if s.busy then
    { s with
      args := if freeBit s.draws then writeOperand s.cfg r v s.args else s.args
      draws := s.draws + 1 }
  else { s with args := writeOperand s.cfg r v s.args }

/-- The host reads a register. `STATUS` can be read at any time (R24, R158). While `BUSY = 1` no other register's value is
defined for the host (R11, R12, R175), and a count that `COUNT_W` bits cannot hold has no stated reading (R18; U11): the
read returns a free value of the register's width. A result register that no command has written since reset (U7: any value)
returns what it holds: DESIGN CHOICE (notes/assumptions/22.md). -/
def readRegister (r : HostReg) (s : State) : State :=
  if (s.busy && decide (r ≠ .status)) || (decide (r = .resCount) && !countFits s.cfg s.res.count) then
    { s with hostData := freeBits (r.width s.cfg) s, draws := s.draws + 1 }
  else { s with hostData := registerValue s r }

/-- The host writes an entry of its buffer. While the scan owns the entry, the final content is the host's or the scan's, a
free choice (R56; U8): before the scan's store the choice is whether that store is lost; after it, whether this write is. A
write to an entry that no scan owns takes effect; while `BUSY = 1` that is the model's, DESIGN CHOICE
(notes/assumptions/24.md). -/
def writeEntry (k : Nat) (v : RomCode) (s : State) : State :=
  if scanOwns k s then
    match raceAt k s.outRaces with
    | none =>
      { s with
        out := s.out.write k v
        outPinned := if freeBit s.draws then k :: s.outPinned else s.outPinned.filter (fun j => decide (j ≠ k))
        draws := s.draws + 1 }
    | some r =>
      { s with
        out := s.out.write k (if freeBit s.draws then v else r.scan)
        outRaces := hostWrote k v s.outRaces
        draws := s.draws + 1 }
  else { s with out := s.out.write k v }

/-- A host access as it bears on what the running scan stores: a write of `CMD` is turned away, or stops the machine where it
selects no command (R67); no other access reaches the scan (R11, R42, R54). -/
def accessAhead (a : HostAccess) (s : State) : Host.Outcome State Fault Refusal :=
  match a with
  | .write .cmd v => writeCmd v s
  | .write _ _ | .read _ | .writeOut _ _ | .readOut _ => .next s

/-- The value the running scan is going to store in entry `k`, found by running it ahead on the PHY's answers to come, for at
most the given number of steps; `none` where the scan ends, is cut short or waits for ever without that store. -/
def valueToStore (k : Nat) : Nat → State → Option RomCode
  | 0, _ => none
  | n + 1, s =>
    match advanceWith accessAhead s with
    | .next t =>
      if t.phase.isScan then
        match raceAt k t.outRaces with
        | some r => some r.scan
        | none => valueToStore k n t
      else none
    | .fault _ | .refused _ => none

/-- Steps enough to run a scan ahead on all the actions to come: the core makes at most six moves between two of them. -/
def stepsAhead (s : State) : Nat := 8 * s.inbox.length + 8

/-- The two values a host read may see in an entry a scan owns, the host's side and the scan's (R56; U8): after the store as
recorded; before it the content, and the value the scan is going to store if it ever does (notes/assumptions/12.md). -/
def entrySides (k : Nat) (s : State) : RomCode × RomCode :=
  match raceAt k s.outRaces with
  | none => (s.out.read k, (valueToStore k (stepsAhead s) s).getD (s.out.read k))
  | some r => (r.host, r.scan)

/-- The host reads an entry of its buffer. While a scan owns the entry the read returns the old value or the value the scan
writes, a free choice of the two whole values, before the store and after it (R41, R56; U8). A read of an entry that no scan owns
returns its content; while `BUSY = 1` (another command, a scan without a buffer, an entry from `ARG_CAP` on) that is the model's,
DESIGN CHOICE, for R175 and D31 define `OUT` for the host at `BUSY = 0` only (notes/assumptions/24.md). -/
def readEntry (k : Nat) (s : State) : State :=
  if scanOwns k s then
    { s with
      hostData := (if freeBit s.draws then (entrySides k s).2 else (entrySides k s).1).toNat
      draws := s.draws + 1 }
  else { s with hostData := (s.out.read k).toNat }

/-- One access of the host. -/
def hostAccess (a : HostAccess) (s : State) : Host.Outcome State Fault Refusal :=
  match a with
  | .write .cmd v => writeCmd v s
  | .write r v => .next (writeRegister r v s)
  | .read r => .next (readRegister r s)
  | .writeOut k v => .next (writeEntry k v s)
  | .readOut k => .next (readEntry k s)

/-- One step of the machine (R5): the outside's next action, or the core's. -/
def advance (s : State) : Host.Outcome State Fault Refusal := advanceWith hostAccess s

end Sys2Proof.Machine
end

