-- ==== Sys2Proof/Machine/Step.lean ====
section
/-! DEFINITION. One step of the machine, and where it fetches its next instruction. -/

namespace Sys2Proof.Machine

/-- One step: an action of the outside, or of the core (R5, notes/assumptions/2.md). -/
def step (s : State) : Host.Outcome State Fault Refusal := advance s

/-- `s` with a table word placed where the next step takes its instruction: a `HOST` word as the host's next write of `CMD`, a
`PHY` word as the outstanding request whose completion is the next event (notes/assumptions/13.md). -/
def State.withFetchWord (s : State) (nbits w : Nat) : State :=
  if nbits ≤ 8 then placeHostWord w s else placePhyWord (BitVec.ofNat 11 w) s

end Sys2Proof.Machine
end

