-- ==== Sys2Proof/Safety.lean ====
section
/-! DEFINITION. The terms in which claims about the core are stated: when the core moves, the invariants of reachable states
(spec/10_state.md R31), the successor table (R142), the count of PHY transactions (R128), and the test fixture of
spec/95_test_vectors.md section 3.1 (a reference bus), which no rule depends on. -/

namespace Sys2Proof.Machine

/-! ## Runs -/

/-- `n` steps of the machine, stopping at the first fault or refusal. -/
def runSteps : Nat → State → Host.Outcome State Fault Refusal
  | 0, s => .next s
  | n + 1, s =>
    match step s with
    | .next t => runSteps n t
    | .fault f => .fault f
    | .refused r => .refused r

/-- In the step from `s` it is the core that moves, and it moves from `s0`: the outside has nothing to do, waits, polls
`STATUS` while the core is busy, or will answer a request the core has yet to make. -/
def CoreTurn (s s0 : State) : Prop :=
  (s.inbox = [] ∧ s0 = s)
  ∨ (∃ rest, s.inbox = .wait :: rest ∧ s0 = { s with inbox := rest })
  ∨ (∃ rest, s.inbox = .awaitIdle :: rest ∧ s.busy = true ∧ s0 = s)
  ∨ (∃ v rest, s.inbox = .phyDone v :: rest ∧ s.phy.req = none ∧ s.phase ≠ .idle ∧ s0 = s)
  ∨ (∃ rest, s.inbox = .phyHang :: rest ∧ s.phy.req = none ∧ s.phase ≠ .idle ∧ s0 = s)

/-- The core may act in its phase: no transaction is outstanding, none has just completed. -/
def PortFree (s : State) : Prop := s.phy.req = none ∧ s.phy.ack = none

/-- The phase's transaction has just completed with value `v`. -/
def PortAnswered (s : State) (v : Byte) : Prop := s.phy.req = none ∧ s.phy.ack = some v

/-! ## Invariants -/

/-- The invariants of R31(a), (b), (d) with what the sequencer needs to keep them: the port's request is the phase's own
(R51), the PHY's mode agrees with its copy while a transport command or a scan runs (R29(a)), `OUT` is canonical, and `ARG_MAXDEV` and `ARG_CAP` fit their registers (R11). -/
structure Inv (s : State) : Prop where
  countWidth : 3 ≤ s.cfg.countW
  maxdevFits : s.args.maxdev < 2 ^ s.cfg.maxdevW ∧ s.lat.maxdev < 2 ^ s.cfg.maxdevW
  capFits : s.args.cap < 2 ^ s.cfg.capW ∧ s.lat.cap < 2 ^ s.cfg.capW
  outCanonical : s.out.wf = true
  busyIff : s.busy = true ↔ s.phase ≠ .idle
  idleByte : s.phase = .idle → s.mode = .byte
  passesBit : s.phase.inPasses = true → s.mode = .bit
  bitOnlyInScan : s.mode = .bit →
    s.phase.inPasses = true ∨ (s.phase = .sEnter ∧ s.phy.ack.isSome = true) ∨ (s.phase = .sExit ∧ s.phy.ack = none)
  modesAgree : s.phase ≠ .idle → s.phase ≠ .kRun → s.phy.mode = s.mode
  requestIsPhases : ∀ w, s.phy.req = some w → s.phy.ack = none ∧ ∃ i, phaseRequest s = some i ∧ encode i = .phy w
  ackIsPhases : s.phy.ack.isSome = true → (phaseRequest s).isSome = true
  enteredBit : s.phase = .sEnter → s.phy.ack.isSome = true →
    s.mode = .bit ∧ s.trace.head? = some (.phy .phySetModeBit 0)
  exitedByte : s.phase = .sExit → s.phy.ack.isSome = true →
    s.mode = .byte ∧ s.trace.head? = some (.phy .phySetModeByte 0)
  passCount : s.phase.inPasses = true → 0 ≤ s.cur.count ∧ s.cur.err = none
  exitCount : s.phase = .sExit →
    (s.cur.err = some .collisionInconsistency ∧ s.cur.count = -2)
    ∨ (s.cur.err = none ∧ 0 ≤ s.cur.count)

/-- The search's own invariants: no pass but the first has `BP = none` (R129), `ARG_MAXDEV` bounds the count (R111), and the
entries stored are the first `min(COUNT, ARG_CAP)` (R131). -/
structure SearchInv (s : State) : Prop where
  branchAfterFirst : (s.phase = .sCheck ∨ s.phase = .sBegin) → s.cur.fin = false → s.cur.count = 0 ∨ s.cur.nbp.isSome = true
  beginUnfinished : s.phase = .sBegin → s.cur.fin = false
  clearedRecords : s.phase ∈ [.sReset, .sCmd, .sReadA, .sReadB, .sDecide, .sWrite, .sStore] →
    s.cur.fin = false → s.cur.nbp.isSome = true
  rootOnlyFirst : s.phase ∈ [.sReset, .sCmd, .sReadA, .sReadB, .sDecide, .sWrite, .sStore] →
    s.cur.bp = none → s.cur.count = 0
  bounded : (s.phase.inPasses = true ∨ s.phase = .sExit) → s.lat.maxdev ≠ 0 → s.cur.count ≤ (s.lat.maxdev : Int)
  boundedInPass : s.phase.inPasses = true → s.phase ≠ .sCheck → s.lat.maxdev ≠ 0 → s.cur.count < (s.lat.maxdev : Int)
  storedPrefix : s.phase.inPasses = true →
    0 ≤ s.cur.count ∧ s.outRaces.map Race.entry =
      (List.range (if s.lat.bufen then min s.cur.count.toNat s.lat.cap else 0)).reverse
  entered : s.phase = .sEnter → s.outRaces = []

/-! ## The successor table (R142) -/

/-- Every pair (phase, successor) of R142's table. -/
def phaseEdges : List (Phase × Phase) :=
  [(.idle, .xReset), (.idle, .xSend), (.idle, .xRead), (.idle, .sEnter), (.idle, .kRun),
   (.xReset, .idle), (.xSend, .idle), (.xRead, .idle), (.kRun, .idle),
   (.sEnter, .sCheck), (.sCheck, .sBegin), (.sCheck, .sExit), (.sBegin, .sReset),
   (.sReset, .sCmd), (.sReset, .sExit), (.sCmd, .sCmd), (.sCmd, .sReadA), (.sReadA, .sReadB), (.sReadB, .sDecide),
   (.sDecide, .sWrite), (.sDecide, .sExit), (.sWrite, .sReadA), (.sWrite, .sStore), (.sStore, .sCheck), (.sExit, .idle)]

/-! ## Counting PHY transactions (R128) -/

/-- How many PHY transactions the core has issued, by the trace (R9(a)). -/
def phyCount : List TraceEvent → Nat
  | [] => 0
  | .issue _ :: rest => phyCount rest + 1
  | .phy _ _ :: rest => phyCount rest
  | .store _ _ :: rest => phyCount rest

/-- 1 when the phase's own transaction is issued: it is outstanding, or has completed and is not yet taken. -/
def justIssued (s : State) : Nat := if s.phy.req.isSome || s.phy.ack.isSome then 1 else 0

/-- The transactions of the pass in progress that have been issued: 1 bus reset, 8 command bits, 3 for each address bit
(R128(b)). -/
def passTransactions (s : State) : Nat :=
  match s.phase with
  | .sReset => justIssued s
  | .sCmd => 1 + s.cur.cidx.val + justIssued s
  | .sReadA => 9 + 3 * s.cur.idx.val + justIssued s
  | .sReadB => 10 + 3 * s.cur.idx.val + justIssued s
  | .sDecide => 11 + 3 * s.cur.idx.val
  | .sWrite => 11 + 3 * s.cur.idx.val + justIssued s
  | .sStore => 201
  | .idle | .xReset | .xSend | .xRead | .kRun | .sEnter | .sCheck | .sBegin | .sExit => 0

/-! ## The reference bus (95_test_vectors.md section 3.1; a test fixture, "no rule depends on it") -/

/-- The devices on the bus, those still taking part, the bit position, whether the complement bit is next, and how many
command bits have come since the bus reset. -/
structure RefBus where
  dev : List RomCode
  act : List RomCode
  pos : Nat
  complementNext : Bool
  cmdBits : Nat
  deriving DecidableEq, Repr

/-- What the reference bus answers to a request, and its state afterwards. -/
def RefBus.answer (b : RefBus) : Instr → Byte × RefBus
  | .phyResetAndSense =>
    (if b.dev.isEmpty then 0 else 1, { b with act := b.dev, pos := 0, complementNext := false, cmdBits := 0 })
  | .phySendBit d =>
    if b.cmdBits < 8 then (0, { b with cmdBits := b.cmdBits + 1 })
    else (0, { b with
      act := b.act.filter (fun r => r.getLsbD b.pos == d.getLsbD 0), pos := b.pos + 1, complementNext := false })
  | .phyReadBit =>
    (if b.act.all (fun r => r.getLsbD b.pos != b.complementNext) then 1 else 0,
      { b with complementNext := !b.complementNext })
  | _ => (0, b)

/-- One step of the core and the reference bus together: the bus answers the outstanding request, or the core moves. -/
def coStep (c : State × RefBus) : Option (State × RefBus) :=
  match c.1.phy.req with
  | some w =>
    match decode (.phy w) with
    | .ok i =>
      match step { c.1 with inbox := [.phyDone (c.2.answer i).1] } with
      | .next t => some (t, (c.2.answer i).2)
      | .fault _ | .refused _ => none
    | .error _ => none
  | none =>
    match step { c.1 with inbox := [] } with
    | .next t => some (t, c.2)
    | .fault _ | .refused _ => none

/-- `n` steps of the core and the reference bus. -/
def coRun : Nat → State × RefBus → Option (State × RefBus)
  | 0, c => some c
  | n + 1, c => (coStep c).bind (coRun n)

/-- The answers of a bus that holds exactly one device `rom`, for one scan: the mode switch, presence, eight command bits, for
each address bit the bit, its complement and the bit sent, the mode switch (95_test_vectors.md S1). -/
def oneDeviceAnswers (rom : RomCode) : List Byte :=
  [0, 1] ++ List.replicate 8 0
    ++ (List.range 64).flatMap (fun i => [if rom.getLsbD i then 1 else 0, if rom.getLsbD i then 0 else 1, 0]) ++ [0]

end Sys2Proof.Machine
end

