-- ==== Sys2Proof/WellFormed.lean ====
section
/-! DEFINITION. What is well-formed: instructions, host accesses and the parameters.

The operand types of `Instr` admit exactly the operands R68 and R75 allow (one bit for `sendBit`, eight for `sendByte`, none
elsewhere), so every `Instr` is well-formed; what can be ill-formed is a register write whose value is no bit pattern of the
register (R11: "every bit pattern of every operand register is legal") and a configuration (R6). -/

namespace Sys2Proof

/-- Every instruction the type admits is well-formed (R67, R68). -/
def Instr.wf : Instr → Bool
  | .reset | .sendbyte | .readbyte | .scan | .checkcrc => true
  | .phyResetAndSense | .phySetModeBit | .phySetModeByte | .phyReadBit | .phyReadByte => true
  | .phySendBit _ | .phySendByte _ => true

/-- `COUNT_W` "must be at least 3 so that -2 and 1 are representable" (R6). -/
def Config.wf (c : Config) : Bool := decide (3 ≤ c.countW)

namespace Machine

/-- A register write is well-formed when its value is a bit pattern of the register (R11). -/
def HostAccess.wf (c : Config) : HostAccess → Bool
  | .write r v => decide (v < 2 ^ r.width c)
  | .read _ => true
  | .writeOut _ _ => true
  | .readOut _ => true

end Machine

end Sys2Proof
end

