-- ==== Sys2Proof/Certificates/Slice0/Obligations.lean ====
section
/-! DEFINITION. The statements about the core, for the provers. Each docstring says which rule of spec/ the statement
formalises, or that it is the model's choice and which log entry makes it. -/

open Sys2Proof Sys2Proof.Machine

/-! ## Encoding -/

/-- One word of every row of the opcode table, written out from R65 and R68. -/
def Obligations.WrittenOutWordsDecode : Prop :=
  decodeTableWord 8 0b001 = some .reset ∧ decodeTableWord 8 0b010 = some .sendbyte ∧
  decodeTableWord 8 0b011 = some .readbyte ∧ decodeTableWord 8 0b100 = some .scan ∧
  decodeTableWord 8 0b101 = some .checkcrc ∧
  decodeTableWord 16 0b00000000000 = some .phyResetAndSense ∧ decodeTableWord 16 0b00100000001 = some .phySetModeBit ∧
  decodeTableWord 16 0b00100001000 = some .phySetModeByte ∧ decodeTableWord 16 0b01000000000 = some (.phySendBit 0) ∧
  decodeTableWord 16 0b01000000001 = some (.phySendBit 1) ∧ decodeTableWord 16 0b01100000000 = some .phyReadBit ∧
  decodeTableWord 16 0b10011001100 = some (.phySendByte 0xCC) ∧ decodeTableWord 16 0b10100000000 = some .phyReadByte

/-- Decoding the word of any well-formed instruction gives it back (R65, R68). -/
def Obligations.DecodeOfEncodeIsTheInstruction : Prop :=
  ∀ i : Instr, i.wf = true → decode (encode i) = .ok i

/-- A word that decodes is the word of what it decodes to: no two words mean the same instruction (R65, R68, R76). -/
def Obligations.EncodeOfDecodeIsTheWord : Prop :=
  ∀ (r : Request) (i : Instr), decode r = .ok i → encode i = r

/-- Reserved codes select nothing: `OP` 000, 110, 111 and no other (R67), `PRIM` 110, 111 with any `DATA` (R68); and writing
one of them to `CMD` is refused by name (U2; notes/assumptions/14.md). That a value above 7, which has more bits than `OP`, is
refused too and not cut to its low bits is the model's choice (notes/assumptions/10.md). -/
def Obligations.ReservedCodesSelectNothing : Prop :=
  (∀ op : HostOp, (∃ e, decode (.host op) = .error e) ↔ (op = 0b000#3 ∨ op = 0b110#3 ∨ op = 0b111#3)) ∧
  (∀ d : Byte, decode (.phy (phyWord 0b110#3 d)) = .error (.primNeverIssued (phyWord 0b110#3 d)) ∧
    decode (.phy (phyWord 0b111#3 d)) = .error (.primNeverIssued (phyWord 0b111#3 d))) ∧
  (∀ (s : State) (v : Nat) (rest : List Event), s.inbox = .host (.write .cmd v) :: rest →
    (v = 0 ∨ 6 ≤ v) → ∃ e, step s = .refused (.undecodable e))

/-! ## A step runs the decoded instruction -/

/-- When the host's next access writes `CMD` with a word that decodes, the step is the instruction's meaning; when the PHY is
about to complete the outstanding request, the step is that request's meaning, on the PHY's answer (R23, R65, R68, R80). A table
word placed by `withFetchWord` is what the very next step runs (notes/assumptions/13.md). -/
def Obligations.StepRunsTheDecodedInstruction : Prop :=
  (∀ (s : State) (v : Nat) (i : Instr) (rest : List Event), s.inbox = .host (.write .cmd v) :: rest →
    decodeCmdWrite v = .ok i → step s = exec i { s with inbox := rest }) ∧
  (∀ (s : State) (w : PhyWord) (v : Byte) (i : Instr) (rest : List Event), s.inbox = .phyDone v :: rest →
    s.phy.req = some w → decode (.phy w) = .ok i →
    step s = exec i { s with inbox := rest, phy := { s.phy with din := v } }) ∧
  (∀ (s : State) (nbits w : Nat) (i : Instr), decodeTableWord nbits w = some i →
    step (s.withFetchWord nbits w) =
      exec i (if nbits ≤ 8 then s else
        { s with
          mode := (modeNeeded i).getD s.mode
          phy := { s.phy with req := some (BitVec.ofNat 11 w), din := 0, mode := (modeNeeded i).getD s.mode } }))

/-! ## Host commands: acceptance (R23) -/

/-- RESET, SENDBYTE and READBYTE in `IDLE` with the PHY ready: accepted; SENDBYTE latches `ARG_TXB`, the others latch nothing
(R23, R89, R90, R91). -/
def Obligations.TransportCommandsAreAccepted : Prop :=
  ∀ s : State, s.phase = .idle → s.phyReady = true →
    exec .reset s = .next { s with args := { s.args with op := 0b001#3 }, busy := true, phase := .xReset } ∧
    exec .sendbyte s = .next { s with
      args := { s.args with op := 0b010#3 }, lat := { s.lat with txb := s.args.txb }, busy := true, phase := .xSend } ∧
    exec .readbyte s = .next { s with args := { s.args with op := 0b011#3 }, busy := true, phase := .xRead }

/-- SCAN in `IDLE` with the PHY ready: accepted, its four operands latched (R23, R110); the model's own records of the scan's stores start
anew (notes/assumptions/12.md). -/
def Obligations.ScanIsAccepted : Prop :=
  ∀ s : State, s.phase = .idle → s.phyReady = true →
    exec .scan s = .next { s with
      args := { s.args with op := 0b100#3 }
      lat := { s.lat with maxdev := s.args.maxdev, scmd := s.args.scmd, cap := s.args.cap, bufen := s.args.bufen }
      busy := true, phase := .sEnter, outRaces := [], outPinned := [] }

/-- CHECKCRC in `IDLE`, whatever the PHY: accepted, `ARG_ROM` latched (R23, R102, R103). -/
def Obligations.CheckcrcIsAccepted : Prop :=
  ∀ s : State, s.phase = .idle →
    exec .checkcrc s = .next { s with
      args := { s.args with op := 0b101#3 }, lat := { s.lat with rom := s.args.rom }, busy := true, phase := .kRun }

/-- A command started outside `IDLE` is not accepted and changes nothing (R23, R174; notes/assumptions/7.md). In `IDLE`, a command
that uses the PHY is refused while R172's boot requirement is not met: the model's choice, notes/assumptions/8.md (U14). -/
def Obligations.CommandsAreTurnedAwayWhenBusyOrUnready : Prop :=
  (∀ s : State, s.phase ≠ .idle →
    exec .reset s = .next s ∧ exec .sendbyte s = .next s ∧ exec .readbyte s = .next s ∧ exec .scan s = .next s ∧
    exec .checkcrc s = .next s) ∧
  (∀ s : State, s.phase = .idle →
    (s.phy.mode = .bit ∨ s.phy.req.isSome = true ∨ s.phy.ack.isSome = true ∨ s.phy.orphan.isSome = true) →
    exec .reset s = .refused .phyNotReady ∧ exec .sendbyte s = .refused .phyNotReady ∧
    exec .readbyte s = .refused .phyNotReady ∧ exec .scan s = .refused .phyNotReady)

/-! ## PHY requests: completion (R80 to R86) -/

/-- `sendBit` and `readBit` in bit mode, `sendByte` and `readByte` in byte mode: the transaction completes with the value the PHY
returns, and only the port and the record change (R82 to R85, R87, R93). The model's own choices (DESIGN CHOICE): the value 0 that
waits after a send, and a one-bit answer as bit 0 of the answer lines (notes/assumptions/17.md); the completion's entry on the
record (notes/assumptions/25.md). -/
def Obligations.BitAndByteRequestsComplete : Prop :=
  (∀ (s : State) (b : BitVec 1), s.mode = .bit → s.phy.mode = .bit →
    exec (.phySendBit b) s = .next { s with
      phy := { s.phy with req := none, ack := some 0 }, trace := .phy (.phySendBit b) 0 :: s.trace } ∧
    exec .phyReadBit s = .next { s with
      phy := { s.phy with req := none, ack := some (if s.phy.din.getLsbD 0 then 1 else 0) }
      trace := .phy .phyReadBit (if s.phy.din.getLsbD 0 then 1 else 0) :: s.trace }) ∧
  (∀ (s : State) (v : Byte), s.mode = .byte → s.phy.mode = .byte →
    exec (.phySendByte v) s = .next { s with
      phy := { s.phy with req := none, ack := some 0 }, trace := .phy (.phySendByte v) 0 :: s.trace } ∧
    exec .phyReadByte s = .next { s with
      phy := { s.phy with req := none, ack := some s.phy.din }, trace := .phy .phyReadByte s.phy.din :: s.trace })

/-- `resetAndSense` in either mode: it returns the presence bit and changes no register (R81, R87, R93). The model's own choices
(DESIGN CHOICE): the presence bit as bit 0 of the answer lines (notes/assumptions/17.md); the completion's entry on the record
(notes/assumptions/25.md). -/
def Obligations.BusResetCompletes : Prop :=
  ∀ s : State, s.phy.mode = s.mode →
    exec .phyResetAndSense s = .next { s with
      phy := { s.phy with req := none, ack := some (if s.phy.din.getLsbD 0 then 1 else 0) }
      trace := .phy .phyResetAndSense (if s.phy.din.getLsbD 0 then 1 else 0) :: s.trace }

/-- `setMode` from either mode, also to the mode already set: the PHY and `STATUS.MODE` take it at completion (R86, R87). The
model's own choices (DESIGN CHOICE): the value 0 that waits (notes/assumptions/17.md); the completion's entry on the record, with
that value (notes/assumptions/25.md). -/
def Obligations.ModeSwitchCompletes : Prop :=
  ∀ s : State, s.phy.mode = s.mode →
    exec .phySetModeBit s = .next { s with
      mode := .bit, phy := { s.phy with req := none, ack := some 0, mode := .bit }
      trace := .phy .phySetModeBit 0 :: s.trace } ∧
    exec .phySetModeByte s = .next { s with
      mode := .byte, phy := { s.phy with req := none, ack := some 0, mode := .byte }
      trace := .phy .phySetModeByte 0 :: s.trace }

/-- A bit request in byte mode and a byte request in bit mode are refused (R87; U6); every request is refused while `STATUS.MODE`
and the PHY's own mode differ (R176; U9; notes/assumptions/16.md). -/
def Obligations.RequestsInTheWrongModeAreRefused : Prop :=
  ∀ (s : State) (b : BitVec 1) (v : Byte),
    (s.phy.mode = s.mode → s.mode = .byte →
      exec (.phySendBit b) s = .refused .wrongTransportMode ∧ exec .phyReadBit s = .refused .wrongTransportMode) ∧
    (s.phy.mode = s.mode → s.mode = .bit →
      exec (.phySendByte v) s = .refused .wrongTransportMode ∧ exec .phyReadByte s = .refused .wrongTransportMode) ∧
    (s.phy.mode ≠ s.mode → ∀ i ∈ [Instr.phyResetAndSense, .phySetModeBit, .phySetModeByte, .phySendBit b, .phyReadBit,
      .phySendByte v, .phyReadByte], exec i s = .refused .phyModeDisagrees)

/-! ## The transport commands and CHECKCRC, phase by phase and whole -/

/-- `X_RESET`, `X_SEND`, `X_READ`: the request each issues, which goes on record (R9(a)), and what each does when it is
answered (R89, R90, R91, R24). The presence bit as bit 0 of the answer is the model's choice (DESIGN CHOICE,
notes/assumptions/17.md). -/
def Obligations.TransportPhasesIssueAndComplete : Prop :=
  ∀ (s s0 : State) (v : Byte), CoreTurn s s0 →
    (s.phase = .xReset →
      (PortFree s → step s = .next { s0 with
        phy := { s0.phy with req := some 0b00000000000#11 }, trace := .issue .phyResetAndSense :: s0.trace }) ∧
      (PortAnswered s v → step s = .next { s0 with
        phy := { s0.phy with ack := none }, res := { s0.res with pres := v.getLsbD 0 }, busy := false, phase := .idle })) ∧
    (s.phase = .xSend →
      (PortFree s → step s = .next { s0 with
        phy := { s0.phy with req := some (0b100#3 ++ s.lat.txb) }, trace := .issue (.phySendByte s.lat.txb) :: s0.trace }) ∧
      (PortAnswered s v → step s = .next { s0 with phy := { s0.phy with ack := none }, busy := false, phase := .idle })) ∧
    (s.phase = .xRead →
      (PortFree s → step s = .next { s0 with
        phy := { s0.phy with req := some 0b10100000000#11 }, trace := .issue .phyReadByte :: s0.trace }) ∧
      (PortAnswered s v → step s = .next { s0 with
        phy := { s0.phy with ack := none }, res := { s0.res with rxb := v }, busy := false, phase := .idle }))

/-- From the write of `CMD` to completion: RESET puts the presence bit in `RES_PRES`, READBYTE the byte in `RES_RXB`, SENDBYTE
sends `ARG_TXB` and changes no result; each issues its one transaction and nothing else changes (R89, R90, R91). The model's own
choices (DESIGN CHOICE): the four steps, the presence bit as bit 0 of the answer lines `din` and the value 0 of a send
(notes/assumptions/17.md); the completion's entry on the record beside the issue's (notes/assumptions/25.md). -/
def Obligations.TransportCommandsRunToCompletion : Prop :=
  ∀ (s : State) (v : Byte), s.phase = .idle → s.mode = .byte → s.phyReady = true →
    (s.inbox = [.host (.write .cmd 1), .phyDone v] → runSteps 4 s = .next { s with
      inbox := [], busy := false, args := { s.args with op := 0b001#3 }, res := { s.res with pres := v.getLsbD 0 }
      phy := { s.phy with din := v }
      trace := .phy .phyResetAndSense (if v.getLsbD 0 then 1 else 0) :: .issue .phyResetAndSense :: s.trace }) ∧
    (s.inbox = [.host (.write .cmd 2), .phyDone v] → runSteps 4 s = .next { s with
      inbox := [], busy := false, args := { s.args with op := 0b010#3 }, lat := { s.lat with txb := s.args.txb }
      phy := { s.phy with din := v }
      trace := .phy (.phySendByte s.args.txb) 0 :: .issue (.phySendByte s.args.txb) :: s.trace }) ∧
    (s.inbox = [.host (.write .cmd 3), .phyDone v] → runSteps 4 s = .next { s with
      inbox := [], busy := false, args := { s.args with op := 0b011#3 }, res := { s.res with rxb := v }
      phy := { s.phy with din := v }
      trace := .phy .phyReadByte v :: .issue .phyReadByte :: s.trace })

/-- CHECKCRC from the write of `CMD` to completion: `RES_CRCOK` is `crc8(payload(ARG_ROM)) == crc(ARG_ROM)`; no PHY transaction,
no entry of `OUT`, no other result (R102, R103). No transaction is outstanding in `IDLE` (R28, R51; a field of `Inv`). That `KIDX`
rests at 55 is the model's choice (notes/assumptions/11.md). -/
def Obligations.CheckcrcRunsToCompletion : Prop :=
  ∀ s : State, s.phase = .idle → s.phy.req = none → s.inbox = [.host (.write .cmd 5)] →
    runSteps 2 s = .next { s with
      inbox := [], busy := false, args := { s.args with op := 0b101#3 }, lat := { s.lat with rom := s.args.rom }
      crc := { crc := crc8 (payload s.args.rom), kidx := 55 }
      res := { s.res with crcok := decide (crc8 (payload s.args.rom) = crcField s.args.rom) } }

/-! ## SCAN, phase by phase (R113 to R127) -/

/-- `S_ENTER`: `T.setMode(bit)`, then the cursor is initialised (R113). -/
def Obligations.ScanEntryInitialisesTheCursor : Prop :=
  ∀ (s s0 : State) (v : Byte), CoreTurn s s0 → s.phase = .sEnter →
    (PortFree s → step s = .next { s0 with
      phy := { s0.phy with req := some 0b00100000001#11 }, trace := .issue .phySetModeBit :: s0.trace }) ∧
    (PortAnswered s v → step s = .next { s0 with
      phy := { s0.phy with ack := none }
      cur := { s0.cur with nbp := none, count := 0, fin := false, cand := 0, err := none }, phase := .sCheck })

/-- `S_CHECK`: the loop condition (R114). -/
def Obligations.LoopConditionChoosesPassOrExit : Prop :=
  ∀ s s0 : State, CoreTurn s s0 → s.phase = .sCheck → s.phy.req = none →
    ((s.cur.fin = false ∧ (s.lat.maxdev = 0 ∨ s.cur.count < (s.lat.maxdev : Int))) →
      step s = .next { s0 with phase := .sBegin }) ∧
    (¬(s.cur.fin = false ∧ (s.lat.maxdev = 0 ∨ s.cur.count < (s.lat.maxdev : Int))) →
      step s = .next { s0 with phase := .sExit })

/-- `S_BEGIN` (R115): `BP <- NBP; FIN <- 1; PHASE <- S_RESET`; `NBP` and everything else keep their values. -/
def Obligations.PassBeginsAtTheRecordedBranch : Prop :=
  ∀ s s0 : State, CoreTurn s s0 → s.phase = .sBegin → s.phy.req = none →
    step s = .next { s0 with cur := { s0.cur with bp := s0.cur.nbp, fin := true }, phase := .sReset }

/-- `S_RESET`: the bus reset of the pass; no device ends the scan with `COUNT <- 0`, whichever pass it is (R116, R157).
The presence bit as bit 0 of the answer is the model's choice (DESIGN CHOICE, notes/assumptions/17.md). -/
def Obligations.FailedBusResetEndsTheScan : Prop :=
  ∀ (s s0 : State) (v : Byte), CoreTurn s s0 → s.phase = .sReset →
    (PortFree s → step s = .next { s0 with
      phy := { s0.phy with req := some 0b00000000000#11 }, trace := .issue .phyResetAndSense :: s0.trace }) ∧
    (PortAnswered s v → v.getLsbD 0 = false → step s = .next { s0 with
      phy := { s0.phy with ack := none }, cur := { s0.cur with count := 0 }, phase := .sExit }) ∧
    (PortAnswered s v → v.getLsbD 0 = true → step s = .next { s0 with
      phy := { s0.phy with ack := none }, cur := { s0.cur with cidx := 0 }, phase := .sCmd })

/-- `S_CMD`: bit `CIDX` of the latched search command goes out, least-significant bit first, eight times (R117, R62). -/
def Obligations.SearchCommandGoesOutLowBitFirst : Prop :=
  ∀ (s s0 : State) (v : Byte), CoreTurn s s0 → s.phase = .sCmd →
    (PortFree s → step s = .next { s0 with
      phy := { s0.phy with req := some (0b0100000000#10 ++ BitVec.ofBool (s.lat.scmd.getLsbD s.cur.cidx.val)) }
      trace := .issue (.phySendBit (BitVec.ofBool (s.lat.scmd.getLsbD s.cur.cidx.val))) :: s0.trace }) ∧
    (PortAnswered s v → s.cur.cidx = 7 → step s = .next { s0 with
      phy := { s0.phy with ack := none }, cur := { s0.cur with idx := 0 }, phase := .sReadA }) ∧
    (PortAnswered s v → s.cur.cidx ≠ 7 → ∃ t, step s = .next t ∧ t.cur.cidx.val = s.cur.cidx.val + 1 ∧
      t = { s0 with phy := { s0.phy with ack := none }, cur := { s0.cur with cidx := t.cur.cidx } })

/-- `S_READ_A` and `S_READ_B` (R118, R119): `A <- T.readBit(); PHASE <- S_READ_B`, then `B <- T.readBit(); PHASE <- S_DECIDE`.
The sampled bit as bit 0 of the answer is the model's choice (DESIGN CHOICE, notes/assumptions/17.md). -/
def Obligations.ResponseBitsAreReadInOrder : Prop :=
  ∀ (s s0 : State) (v : Byte), CoreTurn s s0 →
    (s.phase = .sReadA →
      (PortFree s → step s = .next { s0 with
        phy := { s0.phy with req := some 0b01100000000#11 }, trace := .issue .phyReadBit :: s0.trace }) ∧
      (PortAnswered s v → step s = .next { s0 with
        phy := { s0.phy with ack := none }, cur := { s0.cur with a := v.getLsbD 0 }, phase := .sReadB })) ∧
    (s.phase = .sReadB →
      (PortFree s → step s = .next { s0 with
        phy := { s0.phy with req := some 0b01100000000#11 }, trace := .issue .phyReadBit :: s0.trace }) ∧
      (PortAnswered s v → step s = .next { s0 with
        phy := { s0.phy with ack := none }, cur := { s0.cur with b := v.getLsbD 0 }, phase := .sDecide }))

/-- `S_DECIDE`, collision: the three-way decision, the tests in the order of R121 (R182). `BP = none` lies below every index
(R14). -/
def Obligations.CollisionTakesTheThreeWayDecision : Prop :=
  ∀ s s0 : State, CoreTurn s s0 → s.phase = .sDecide → s.phy.req = none → s.cur.a = false → s.cur.b = false →
    (s.cur.bp = some s.cur.idx → step s = .next { s0 with cur := { s0.cur with dir := true }, phase := .sWrite }) ∧
    (s.cur.bp ≠ some s.cur.idx →
      ((∀ j, s.cur.bp = some j → j < s.cur.idx) ∨ s.cur.cand.getLsbD s.cur.idx.val = false) →
      step s = .next { s0 with
        cur := { s0.cur with dir := false, fin := false, nbp := some s0.cur.idx }, phase := .sWrite }) ∧
    ((∃ j, s.cur.bp = some j ∧ s.cur.idx < j) → s.cur.cand.getLsbD s.cur.idx.val = true →
      step s = .next { s0 with cur := { s0.cur with dir := true }, phase := .sWrite })

/-- `S_DECIDE`, inconsistency: CollisionInconsistency is raised; nothing is sent, stored or counted for it (R122, R156). -/
def Obligations.InconsistencyRaisesTheError : Prop :=
  ∀ s s0 : State, CoreTurn s s0 → s.phase = .sDecide → s.phy.req = none → s.cur.a = true → s.cur.b = true →
    step s = .next { s0 with
      cur := { s0.cur with count := -2, err := some .collisionInconsistency }, phase := .sExit }

/-- `S_DECIDE`, agreement (R123): `d <- A; PHASE <- S_WRITE`, whatever `BP` is; `FIN` and `NBP` are not written. -/
def Obligations.AgreementFollowsTheTrueBit : Prop :=
  ∀ s s0 : State, CoreTurn s s0 → s.phase = .sDecide → s.phy.req = none → s.cur.a ≠ s.cur.b →
    step s = .next { s0 with cur := { s0.cur with dir := s0.cur.a }, phase := .sWrite }

/-- `S_WRITE` (R124): the chosen bit is sent, then recorded in `CAND[i]`, all other bits unchanged; the next index or, after
index 63, the store. -/
def Obligations.ChosenBitIsSentAndRecorded : Prop :=
  ∀ (s s0 : State) (v : Byte), CoreTurn s s0 → s.phase = .sWrite →
    (PortFree s → step s = .next { s0 with
      phy := { s0.phy with req := some (0b0100000000#10 ++ BitVec.ofBool s.cur.dir) }
      trace := .issue (.phySendBit (BitVec.ofBool s.cur.dir)) :: s0.trace }) ∧
    (PortAnswered s v → ∃ t, step s = .next t ∧
      (∀ j : Fin 64, t.cur.cand.getLsbD j.val = if j = s.cur.idx then s.cur.dir else s.cur.cand.getLsbD j.val) ∧
      (s.cur.idx = 63 → t = { s0 with
        phy := { s0.phy with ack := none }, cur := { s0.cur with cand := t.cur.cand }, phase := .sStore }) ∧
      (s.cur.idx ≠ 63 → t.cur.idx.val = s.cur.idx.val + 1 ∧ t = { s0 with
        phy := { s0.phy with ack := none }, cur := { s0.cur with cand := t.cur.cand, idx := t.cur.idx }
        phase := .sReadA }))

/-- `S_STORE`: `MemWrite(COUNT, 64, CAND)` where a buffer was supplied and has room, then `COUNT + 1` in any case (R125, R41,
R144); no other entry changes. A host write that R56 forbids and U8 lets win keeps its entry (notes/assumptions/12.md). -/
def Obligations.CandidateIsStoredAndCounted : Prop :=
  ∀ s s0 : State, CoreTurn s s0 → s.phase = .sStore → s.phy.req = none → s.out.wf = true → 0 ≤ s.cur.count →
    (s.lat.bufen = true ∧ s.cur.count < (s.lat.cap : Int) →
      ∃ t, step s = .next t ∧
        t = { s0 with
          cur := { s0.cur with count := s0.cur.count + 1 }, phase := .sCheck, out := t.out
          outRaces := { entry := s0.cur.count.toNat, host := s0.out.read s0.cur.count.toNat, scan := s0.cur.cand } ::
            s0.outRaces
          trace := .store s0.cur.count.toNat s0.cur.cand :: s0.trace } ∧
        t.out.read s.cur.count.toNat =
          (if s.cur.count.toNat ∈ s.outPinned then s.out.read s.cur.count.toNat else s.cur.cand) ∧
        ∀ k, k ≠ s.cur.count.toNat → t.out.read k = s.out.read k) ∧
    (s.lat.bufen = false ∨ (s.lat.cap : Int) ≤ s.cur.count →
      step s = .next { s0 with cur := { s0.cur with count := s0.cur.count + 1 }, phase := .sCheck })

/-- `S_EXIT`: `T.setMode(byte)` whatever the mode, then the results and completion (R126, R127, R69). -/
def Obligations.ScanExitDeliversTheResults : Prop :=
  ∀ (s s0 : State) (v : Byte), CoreTurn s s0 → s.phase = .sExit →
    (PortFree s → step s = .next { s0 with
      phy := { s0.phy with req := some 0b00100001000#11 }, trace := .issue .phySetModeByte :: s0.trace }) ∧
    (PortAnswered s v → step s = .next { s0 with
      phy := { s0.phy with ack := none }
      res := { s0.res with
        count := s0.cur.count, err := if s0.cur.err = some .collisionInconsistency then 1 else 0 }
      busy := false, phase := .idle })

/-! ## Whole scans -/

/-- An empty bus: the scan returns 0 with exactly one bus reset and no search bit, byte mode restored (R116, R128(c), R152; PLO's
"Empty bus" property). The model's own choices (DESIGN CHOICE): the twelve steps, the presence bit as bit 0 of the answer and the
value 0 of a mode switch (notes/assumptions/17.md); the three completions on the record beside R9(a)'s three issues
(notes/assumptions/25.md). -/
def Obligations.EmptyBusScanReturnsZero : Prop :=
  ∀ (s : State) (x v y : Byte), s.phase = .idle → s.mode = .byte → s.phyReady = true → v.getLsbD 0 = false →
    s.inbox = [.host (.write .cmd 4), .phyDone x, .phyDone v, .phyDone y] →
    ∃ t, runSteps 12 s = .next t ∧ t.phase = .idle ∧ t.busy = false ∧ t.mode = .byte ∧ t.res.count = 0 ∧ t.res.err = 0 ∧
      t.res.pres = s.res.pres ∧ t.out = s.out ∧
      t.trace = .phy .phySetModeByte 0 :: .issue .phySetModeByte :: .phy .phyResetAndSense 0 :: .issue .phyResetAndSense ::
        .phy .phySetModeBit 0 :: .issue .phySetModeBit :: s.trace

/-- A bus with exactly one device of any ROM code: the scan finds it, returns 1, stores it where a buffer has room, and issues
exactly the 203 transactions of R128(b) (PLO's "Single-device bus" property; the answers are those of spec/95_test_vectors.md S1). -/
def Obligations.OneDeviceScanFindsIt : Prop :=
  ∀ (s : State) (rom : RomCode), s.cfg.wf = true → s.out.wf = true → s.phase = .idle → s.mode = .byte →
    s.phyReady = true → s.inbox = .host (.write .cmd 4) :: (oneDeviceAnswers rom).map Event.phyDone →
    ∃ n t, runSteps n s = .next t ∧ t.phase = .idle ∧ t.busy = false ∧ t.mode = .byte ∧ t.res.count = 1 ∧ t.res.err = 0 ∧
      phyCount t.trace = phyCount s.trace + 203 ∧
      t.out.read 0 = (if s.args.bufen = true ∧ 0 < s.args.cap then rom else s.out.read 0) ∧
      ∀ k, 0 < k → t.out.read k = s.out.read k

/-- Under `PHY_LIVE` (the PHY answers every request; here: enough answers, of any value) a SCAN with `ARG_MAXDEV > 0`
completes, with byte mode restored (R184, R135(a), (b), R130). -/
def Obligations.BoundedScanCompletesWithALivePhy : Prop :=
  ∀ (s : State) (answers : List Byte), Inv s → s.phase = .sEnter → PortFree s → 0 < s.lat.maxdev →
    s.inbox = answers.map Event.phyDone →
    2 + 201 * s.lat.maxdev ≤ answers.length →
    ∃ n t, runSteps n s = .next t ∧ t.phase = .idle ∧ t.busy = false ∧ t.mode = .byte ∧ t.phy.mode = .byte ∧
      t.res.count ≤ (s.lat.maxdev : Int)

/-- On the reference bus with a fixed set of devices an unbounded scan returns their number and stores every code exactly once,
in the order of R134: bit 0 first, 0 before 1 (R134, R135(c), R136; PLO's "Search determinism" property). The bus is the test
fixture of spec/95_test_vectors.md section 3.1, which the spec takes from general knowledge. -/
def Obligations.ReferenceBusIsEnumeratedInOrder : Prop :=
  ∀ (s : State) (dev : List RomCode), Inv s → s.phase = .sEnter → PortFree s → dev ≠ [] → dev.Nodup →
    s.lat.maxdev = 0 → s.lat.bufen = true → dev.length ≤ s.lat.cap → s.outPinned = [] →
    ∃ n t b, coRun n (s, { dev := dev, act := [], pos := 0, complementNext := false, cmdBits := 0 }) = some (t, b) ∧
      t.phase = .idle ∧ t.mode = .byte ∧ t.res.count = (dev.length : Int) ∧ t.res.err = 0 ∧
      ((List.range dev.length).map t.out.read).Perm dev ∧
      ((List.range dev.length).map t.out.read).Pairwise (fun x y => x.reverse.toNat < y.reverse.toNat) ∧
      ∀ k, dev.length ≤ k → t.out.read k = s.out.read k

/-- The cursor of an earlier scan is discarded: two cores that enter a scan and differ in their cursors only behave alike from
there on in everything but the cursor (R30, R132, R129). -/
def Obligations.EarlierCursorIsDiscarded : Prop :=
  ∀ (s s' : State) (n : Nat) (t : State), s.phase = .sEnter → s' = { s with cur := s'.cur } →
    runSteps n s = .next t → ∃ t', runSteps n s' = .next t' ∧ t' = { t with cur := t'.cur }

/-! ## Invariants -/

/-- After reset the core is in `IDLE`, not busy, in byte mode, and waits there (R28, R170); the invariants hold (R31). -/
def Obligations.ResetIsIdleAndMeetsTheInvariants : Prop :=
  State.reset.phase = .idle ∧ State.reset.busy = false ∧ State.reset.mode = .byte ∧
  step State.reset = .next State.reset ∧ Inv State.reset ∧ SearchInv State.reset

/-- Every step keeps the invariants of R31, from every state that meets them, whatever the outside does. -/
def Obligations.EveryStepKeepsTheInvariant : Prop :=
  ∀ s t : State, Inv s → step s = .next t → Inv t

/-- Every step keeps the search's invariants: `BP = none` in the first pass only (R129), the count within `ARG_MAXDEV` (R111),
the first `min(COUNT, ARG_CAP)` entries stored (R131). -/
def Obligations.EveryStepKeepsTheSearchInvariant : Prop :=
  ∀ s t : State, SearchInv s → step s = .next t → SearchInv t

/-- `PHASE` moves only along the rows of R142's table; the one other move is core reset (R170). -/
def Obligations.PhaseMovesAlongTheTable : Prop :=
  ∀ s t : State, step s = .next t →
    t.phase = s.phase ∨ (s.phase, t.phase) ∈ phaseEdges ∨ (s.inbox.head? = some .coreReset ∧ t.phase = .idle)

/-- A scan that completes has restored byte mode, and the last thing the PHY received is `setMode(8)` (R126, R130). That
the newest entry of the record is that transaction's completion, with the value 0, and not its issue, is the model's choice
(DESIGN CHOICE, notes/assumptions/25.md, 17.md). -/
def Obligations.CompletedScanRestoresByteMode : Prop :=
  ∀ s t : State, Inv s → s.phase.isScan = true → step s = .next t → t.phase = .idle →
    s.inbox.head? ≠ some .coreReset →
    t.mode = .byte ∧ t.phy.mode = .byte ∧ t.busy = false ∧ t.trace.head? = some (.phy .phySetModeByte 0)

/-- Inside a scan's passes every PHY transaction issued is one that R128(a), (b) counts: 201 a completed pass. -/
def Obligations.PassTransactionsAreCounted : Prop :=
  ∀ s t : State, Inv s → step s = .next t → s.phase.inPasses = true → t.phase.inPasses = true →
    (phyCount t.trace : Int) + (201 * s.cur.count + passTransactions s) =
      (phyCount s.trace : Int) + (201 * t.cur.count + passTransactions t)

/-! ## Whole-machine rules -/

/-- `OUT` changes only by `S_STORE`'s store to entry `COUNT` and by the host's own writes (R40, R42, R144, R103). -/
def Obligations.OnlyTheStoreAndTheHostWriteOut : Prop :=
  ∀ (s t : State) (k : Nat), step s = .next t → t.out.read k ≠ s.out.read k →
    (s.phase = .sStore ∧ s.lat.bufen = true ∧ s.cur.count < (s.lat.cap : Int) ∧ k = s.cur.count.toNat ∧
      t.out = s.out.write s.cur.count.toNat s.cur.cand) ∨
    ∃ v, s.inbox.head? = some (.host (.writeOut k v))

/-- Each command writes only its own result registers (R12, R25, R65): RESET `RES_PRES`, READBYTE `RES_RXB`, CHECKCRC
`RES_CRCOK`, SCAN `RES_COUNT` and `RES_ERR`; a core reset aside (R28). -/
def Obligations.EachCommandWritesOnlyItsResults : Prop :=
  ∀ s t : State, step s = .next t → s.inbox.head? ≠ some .coreReset →
    (t.res.pres ≠ s.res.pres → s.phase = .xReset) ∧ (t.res.rxb ≠ s.res.rxb → s.phase = .xRead) ∧
    (t.res.crcok ≠ s.res.crcok → s.phase = .kRun) ∧
    ((t.res.count ≠ s.res.count ∨ t.res.err ≠ s.res.err) → s.phase = .sExit)

/-- `STATUS.MODE` changes only when a `setMode` transaction completes (the step is the PHY's completion of that outstanding
request, and frees the port), to that transaction's mode, or at a core reset (R13, R86, R170). -/
def Obligations.OnlyTheModeSwitchWritesMode : Prop :=
  ∀ s t : State, step s = .next t → t.mode ≠ s.mode →
    ((∃ v, s.inbox.head? = some (.phyDone v)) ∧ t.phy.req = none ∧
      ((s.phy.req = some 0b00100000001#11 ∧ t.mode = .bit) ∨ (s.phy.req = some 0b00100001000#11 ∧ t.mode = .byte))) ∨
    (s.inbox.head? = some .coreReset ∧ t.mode = .byte)

/-- What the outside does during a command does not reach its latched operands, and outside a scan nothing writes the search
cursor (R11, R23, R54; R14 to R20); a core reset aside. -/
def Obligations.LatchedOperandsAndIdleCursorAreKept : Prop :=
  ∀ s t : State, step s = .next t → s.inbox.head? ≠ some .coreReset →
    (s.phase ≠ .idle → t.lat = s.lat) ∧ (s.phase.isScan = false → t.cur = s.cur)

/-- A step issues or completes at most one PHY transaction or makes one store, and no step takes any of them off the record; the
parameters do not change (R50, R51, R92, R9; R6). That completions stand in the record too is the model's
(notes/assumptions/25.md). -/
def Obligations.StepAddsAtMostOneObservable : Prop :=
  ∀ s t : State, step s = .next t → (t.trace = s.trace ∨ ∃ e, t.trace = e :: s.trace) ∧ t.cfg = s.cfg

/-- While the PHY does not complete the outstanding transaction, nothing changes, for any number of steps that the outside waits,
nor when it has nothing to do or polls `STATUS` while the core is busy; and a PHY that never will leaves a stuck state, never a
completed command (R22, R80, R88, R177; U1, U3; notes/assumptions/20.md). Whatever else the outside does, a core reset and the
platform's initialisation aside, the step keeps everything but the operand registers, `OUT` with its two records, the outside's
list, `hostData` and the counter of free values: the phase, `BUSY`, `MODE`, cursor, latched operands, results, PHY port and trace
stand. A transaction is outstanding only outside `IDLE` (R28, R51; a field of `Inv`). -/
def Obligations.UncompletedTransactionBlocksTheCore : Prop :=
  ∀ (s : State) (n : Nat), s.phy.req.isSome = true →
    (s.inbox = List.replicate n .wait → runSteps n s = .next { s with inbox := [] }) ∧
    (s.inbox = List.replicate n .wait ++ [.phyHang] → runSteps (n + 1) s = .fault .phyStuck) ∧
    (s.inbox = [] → step s = .next s) ∧
    (∀ rest, s.inbox = .awaitIdle :: rest → s.busy = true → step s = .next s) ∧
    (∀ t, s.phase ≠ .idle → step s = .next t → (∀ v, s.inbox.head? ≠ some (.phyDone v)) →
      s.inbox.head? ≠ some .phyHang → s.inbox.head? ≠ some .coreReset → s.inbox.head? ≠ some .phyInit →
      t = { s with
        args := t.args, out := t.out, outRaces := t.outRaces, outPinned := t.outPinned, inbox := t.inbox
        hostData := t.hostData, draws := t.draws })

/-! ## The host, the platform and reset -/

/-- Core reset at any time: `IDLE`, not busy, byte mode, no PHY transaction issued or completed, none put on the port and none taken
off the record, `OUT` untouched; cut short, a command's results keep what they had, and an outstanding transaction is not withdrawn
(R170, R171). The platform then puts the idle core's PHY in
byte mode with nothing outstanding (R172(1), (2)), which while a command runs it must not, and is refused (R176; U9;
notes/assumptions/9.md, 16.md, 19.md). -/
def Obligations.CoreResetAndPhyInitialisation : Prop :=
  (∀ (s : State) (rest : List Event), s.inbox = .coreReset :: rest →
    ∃ t, step s = .next t ∧ t.phase = .idle ∧ t.busy = false ∧ t.mode = .byte ∧ t.trace = s.trace ∧ t.out = s.out ∧
      t.inbox = rest ∧ t.phy.req = none ∧ t.phy.ack = none ∧ (s.busy = true → t.res = s.res) ∧ (s.busy = false → t.phy.mode = s.phy.mode) ∧
      (s.phy.req.isSome = true → t.phy.orphan = s.phy.req)) ∧
  (∀ (s : State) (rest : List Event), s.inbox = .phyInit :: rest →
    (s.busy = false → step s = .next { s with
      inbox := rest, phy := { s.phy with req := none, ack := none, orphan := none, mode := .byte } }) ∧
    (s.busy = true → step s = .refused .phyTakenWhileBusy))

/-- A host that writes an operand register while the core is not busy reads back the value written, and changes nothing else
(R11). That a value too wide for the register leaves its low bits, `v % 2^width`, is the model's choice
(DESIGN CHOICE, notes/assumptions/10.md): the spec says nothing of it. -/
def Obligations.OperandWritesReadBack : Prop :=
  ∀ (s : State) (r : HostReg) (v : Nat), s.busy = false →
    r ∈ [HostReg.argMaxdev, .argScmd, .argCap, .argBufen, .argRom, .argTxb] →
    s.inbox = [.host (.write r v), .host (.read r)] →
    ∃ t, runSteps 2 s = .next t ∧ t.hostData = v % 2 ^ r.width s.cfg ∧ t.args.op = s.args.op ∧
      t = { s with args := t.args, hostData := t.hostData, inbox := [] } ∧
      ∀ r' : HostReg, r' ≠ r → registerValue t r' = registerValue s r'

/-- A host write of `STATUS` or of a result register is ignored, busy or not (R12, R13). A host write of an operand register while
busy leaves the running command unaffected, and the register its old or its new content, which is not determined (R11; U4). Both
hold for every free value. That the new content of a value too wide for the register is its low bits (`writeOperand`) is the
model's choice (DESIGN CHOICE, notes/assumptions/10.md). -/
def Obligations.ReadOnlyAndBusyRegisterWrites : Prop :=
  (∀ (s : State) (r : HostReg) (v : Nat) (rest : List Event),
    r ∈ [HostReg.status, .resCount, .resErr, .resPres, .resRxb, .resCrcok] → s.inbox = .host (.write r v) :: rest →
    ∃ d, step s = .next { s with inbox := rest, draws := d }) ∧
  (∀ (s : State) (r : HostReg) (v : Nat) (rest : List Event), s.busy = true → r ≠ .cmd →
    s.inbox = .host (.write r v) :: rest →
    ∃ t, step s = .next t ∧ (t.args = s.args ∨ t.args = writeOperand s.cfg r v s.args) ∧
      t = { s with args := t.args, inbox := rest, draws := t.draws })

/-- `STATUS` reads as `BUSY` in bit 0, `MODE` in bit 1 and 0 above, at any time (R13, R24). -/
def Obligations.StatusReadsBusyAndMode : Prop :=
  ∀ (s : State) (rest : List Event), s.inbox = .host (.read .status) :: rest →
    ∃ t, step s = .next t ∧ t = { s with hostData := t.hostData, inbox := rest } ∧
      t.hostData.testBit 0 = s.busy ∧ (t.hostData.testBit 1 = true ↔ s.mode = .bit) ∧
      ∀ j, 2 ≤ j → t.hostData.testBit j = false

/-- `RES_COUNT` reads as its `COUNT_W`-bit two's complement when the core is not busy: the count itself, and all ones but bit 0
for -2 (R75, R7). That a read returns the stored count also where no scan has completed since reset, for which the spec gives any
value, one draw a read (R28, R175; U7), is the model's choice (notes/assumptions/22.md). A count above `2^(COUNT_W-1) - 1` reads
as some value of `COUNT_W` bits, whichever (R18; U11; notes/assumptions/15.md). -/
def Obligations.CountReadsAsTwosComplement : Prop :=
  ∀ (s : State) (rest : List Event), s.busy = false → s.cfg.wf = true → s.inbox = .host (.read .resCount) :: rest →
    ∃ t, step s = .next t ∧ t = { s with hostData := t.hostData, draws := t.draws, inbox := rest } ∧
      (0 ≤ s.res.count → s.res.count ≤ ((2 ^ (s.cfg.countW - 1) : Nat) : Int) - 1 → (t.hostData : Int) = s.res.count) ∧
      (s.res.count = -2 → t.hostData = 2 ^ s.cfg.countW - 2) ∧ t.hostData < 2 ^ s.cfg.countW

/-- Host accesses to an entry during the scan that owns it (R56, R41; U8; notes/assumptions/12.md); all hold for every free value,
and say what else may change. In any phase of the scan, a write before the scan's store puts the host's value there, and only
that entry's pin is chosen anew; once the store follows, the entry holds the host's value or the scan's. A write after the store
leaves one of the two likewise. A read after the store gives the host's side (the old value, or what the host wrote) or the
scan's, and nothing else. A read before it gives the content, or the very value that this scan, run on from there, comes to store
in that entry. That the host's own last value stands for the old one is the model's choice (DEDUCED, notes/assumptions/12.md). -/
def Obligations.RacedEntryHoldsHostsOrScans : Prop :=
  (∀ (s : State) (k : Nat) (v : RomCode) (rest : List Event), s.out.wf = true → scanOwns k s = true →
    raceAt k s.outRaces = none → s.inbox = .host (.writeOut k v) :: rest →
    ∃ t, step s = .next t ∧ t = { s with out := t.out, outPinned := t.outPinned, draws := t.draws, inbox := rest } ∧
      t.out.read k = v ∧ ∀ j, j ≠ k → t.out.read j = s.out.read j ∧ (j ∈ t.outPinned ↔ j ∈ s.outPinned)) ∧
  (∀ (s : State) (k : Nat) (v : RomCode), s.out.wf = true → s.phase = .sStore → s.phy.req = none → s.lat.bufen = true →
    s.cur.count = (k : Int) → k < s.lat.cap → raceAt k s.outRaces = none → s.inbox = [.host (.writeOut k v)] →
    ∃ t, runSteps 2 s = .next t ∧
      t = { s with
        cur := { s.cur with count := s.cur.count + 1 }, phase := .sCheck, out := t.out, outPinned := t.outPinned
        outRaces := { entry := k, host := v, scan := s.cur.cand } :: s.outRaces
        draws := t.draws, inbox := [], trace := .store k s.cur.cand :: s.trace } ∧
      (t.out.read k = v ∨ t.out.read k = s.cur.cand) ∧
      ∀ j, j ≠ k → t.out.read j = s.out.read j ∧ (j ∈ t.outPinned ↔ j ∈ s.outPinned)) ∧
  (∀ (s : State) (k : Nat) (v : RomCode) (r : Race) (rest : List Event), s.out.wf = true → scanOwns k s = true →
    raceAt k s.outRaces = some r → s.inbox = .host (.writeOut k v) :: rest →
    ∃ t, step s = .next t ∧ t = { s with out := t.out, outRaces := t.outRaces, draws := t.draws, inbox := rest } ∧
      (t.out.read k = v ∨ t.out.read k = r.scan) ∧ raceAt k t.outRaces = some { r with host := v } ∧
      ∀ j, j ≠ k → t.out.read j = s.out.read j ∧ raceAt j t.outRaces = raceAt j s.outRaces) ∧
  (∀ (s : State) (k : Nat) (rest : List Event), scanOwns k s = true → s.inbox = .host (.readOut k) :: rest →
    ∃ t, step s = .next t ∧ t = { s with hostData := t.hostData, draws := t.draws, inbox := rest } ∧
      (∀ r, raceAt k s.outRaces = some r → t.hostData = r.host.toNat ∨ t.hostData = r.scan.toNat) ∧
      (raceAt k s.outRaces = none → t.hostData = (s.out.read k).toNat ∨
        ∃ n u r, runSteps n t = .next u ∧ raceAt k u.outRaces = some r ∧ t.hostData = r.scan.toNat ∧
          ∀ j ≤ n, ∃ x, runSteps j t = .next x ∧ x.phase.isScan = true))

/-- What the host's reads return, and its writes of `OUT` do where no scan owns the entry. With `BUSY = 0` a read of `CMD`, of an operand or of a
result register returns its content (R11, R12, R24; `RES_COUNT` and `STATUS` have statements of their own). That it does so also
of a result register that no command has written since reset, for which the spec gives any value, one draw a read (R28, R175;
U7), is the model's choice (notes/assumptions/22.md). A write of an entry that no scan owns makes it the value written and changes
no other; a read returns its content (R40, R52). No entry is owned in `IDLE`; that the same holds of an entry without an owner while `BUSY = 1` is the model's choice (notes/assumptions/24.md).
With `BUSY = 1` a read of a register other than `STATUS` returns some value of the register's width, for every free value, and
changes only `hostData` and the counter of free values (R11, R12, R175): that the value is free, and has the width, is the model's (DEDUCED, notes/assumptions/18.md). -/
def Obligations.HostReadsRegistersAndAccessesOut : Prop :=
  (∀ (s : State) (r : HostReg) (v : Nat) (rest : List Event), s.busy = false →
    (r, v) ∈ [(HostReg.cmd, s.args.op.toNat), (.argMaxdev, s.args.maxdev), (.argScmd, s.args.scmd.toNat),
      (.argCap, s.args.cap), (.argBufen, if s.args.bufen then 1 else 0), (.argRom, s.args.rom.toNat),
      (.argTxb, s.args.txb.toNat), (.resErr, s.res.err.toNat), (.resPres, if s.res.pres then 1 else 0),
      (.resRxb, s.res.rxb.toNat), (.resCrcok, if s.res.crcok then 1 else 0)] →
    s.inbox = .host (.read r) :: rest → step s = .next { s with hostData := v, inbox := rest }) ∧
  (∀ (s : State) (r : HostReg) (rest : List Event), s.busy = true → r ≠ .status → s.inbox = .host (.read r) :: rest →
    ∃ t, step s = .next t ∧ t = { s with hostData := t.hostData, draws := t.draws, inbox := rest } ∧
      t.hostData < 2 ^ r.width s.cfg) ∧
  (∀ (s : State) (k : Nat) (v : RomCode) (rest : List Event), s.out.wf = true → scanOwns k s = false →
    s.inbox = .host (.writeOut k v) :: rest →
    ∃ t, step s = .next t ∧ t = { s with out := t.out, inbox := rest } ∧ t.out.wf = true ∧ t.out.read k = v ∧
      ∀ j, j ≠ k → t.out.read j = s.out.read j) ∧
  (∀ (s : State) (k : Nat) (rest : List Event), scanOwns k s = false → s.inbox = .host (.readOut k) :: rest →
    step s = .next { s with hostData := (s.out.read k).toNat, inbox := rest })

/-! ## CRC and formats -/

/-- The CRC step (R100), the shift being logical: bit 7 of the shifted value is 0. -/
def Obligations.CrcStepShiftsAndFeedsBack : Prop :=
  ∀ (c : Byte) (x : Bool),
    ((x ^^ c.getLsbD 0) = true → crcStep c x = (c >>> 1) ^^^ 0b10001100#8) ∧
    ((x ^^ c.getLsbD 0) = false → crcStep c x = c >>> 1) ∧ (c >>> 1).getLsbD 7 = false

/-- `crc8` consumes exactly the 56 payload bits, least-significant first, from 0 (R101). -/
def Obligations.CrcConsumesThePayloadLowBitFirst : Prop :=
  ∀ p : BitVec 56, crc8 p = (List.range 56).foldl (fun c k => crcStep c (p.getLsbD k)) 0x00#8

/-- For every payload, the code packed with its computed CRC passes `checkCrc`, and with any other CRC byte it fails
(R105(a), R102). -/
def Obligations.OnlyTheComputedCrcPasses : Prop :=
  ∀ (fam : Byte) (ser : BitVec 48) (c : Byte), checkCrc (pack fam ser c) = true ↔ c = crc8 (ser ++ fam)

/-- `crc8` is linear (R105(b)). -/
def Obligations.CrcIsLinear : Prop :=
  (∀ (c1 c2 : Byte) (x1 x2 : Bool), crcStep (c1 ^^^ c2) (x1 ^^ x2) = crcStep c1 x1 ^^^ crcStep c2 x2) ∧
  (∀ p q : BitVec 56, crc8 (p ^^^ q) = crc8 p ^^^ crc8 q) ∧ crc8 0 = 0

/-- A valid code with any one of its 64 bits flipped fails `checkCrc` (R105(c)). -/
def Obligations.SingleBitCorruptionIsDetected : Prop :=
  ∀ (rom : RomCode) (k : Nat), k < 64 → checkCrc rom = true → checkCrc (rom ^^^ BitVec.twoPow 64 k) = false

/-- Running the step over all 64 bits of a code ends in 0 exactly when `checkCrc` is true (R105(d)). -/
def Obligations.CrcResidueIsZeroExactlyForValidCodes : Prop :=
  ∀ rom : RomCode, crcAfter rom 64 = 0 ↔ checkCrc rom = true

/-- The fields of a ROM code are bits 7:0, 55:8, 63:56 and 55:0, and packing a code's own fields gives it back (R61). -/
def Obligations.RomFieldsPackBack : Prop :=
  ∀ (r : RomCode) (f : Byte) (n : BitVec 48) (c : Byte),
    pack (family r) (serial r) (crcField r) = r ∧ payload r = serial r ++ family r ∧
    family (pack f n c) = f ∧ serial (pack f n c) = n ∧ crcField (pack f n c) = c ∧
    (∀ i, i < 8 → (family r).getLsbD i = r.getLsbD i) ∧ (∀ i, i < 48 → (serial r).getLsbD i = r.getLsbD (8 + i)) ∧
    (∀ i, i < 8 → (crcField r).getLsbD i = r.getLsbD (56 + i)) ∧ (∀ i, i < 56 → (payload r).getLsbD i = r.getLsbD i)

/-- Branch points as 7-bit two's complement: -1 is `none`, 0 to 63 the indices, and `i == BP`, `i > BP` are ordinary signed
comparisons (R70, R14). -/
def Obligations.BranchPointsCompareAsSignedNumbers : Prop :=
  ∀ (i : Fin 64) (bp : Option (Fin 64)),
    (encodeBranch none).toInt = -1 ∧ (encodeBranch (some i)).toInt = (i.val : Int) ∧
    (atBranch i bp = true ↔ (encodeBranch (some i)).toInt = (encodeBranch bp).toInt) ∧
    (pastBranch i bp = true ↔ (encodeBranch bp).toInt < (encodeBranch (some i)).toInt)
end

