-- ==== Sys2Proof/Laws/Memory.lean ====
section
/-! SUPPORT. The laws of the output buffer: a write is read back, leaves every other entry alone, and keeps the canonical
form (spec/20_memory.md R40, R41). -/

namespace Sys2Proof.Machine

@[simp] theorem Memory.read_nil (k : Nat) : Memory.read [] k = Memory.blank := rfl

theorem Memory.read_cons (a k : Nat) (v : RomCode) (m : Memory) :
    Memory.read ((a, v) :: m) k = if a = k then v else Memory.read m k := rfl

@[simp] theorem Memory.wfFrom_nil (lo : Nat) : Memory.wfFrom lo [] = true := rfl

theorem Memory.wfFrom_cons (lo a : Nat) (v : RomCode) (m : Memory) :
    Memory.wfFrom lo ((a, v) :: m) = true ↔ lo ≤ a ∧ v ≠ Memory.blank ∧ Memory.wfFrom (a + 1) m = true := by
  simp [Memory.wfFrom, and_assoc]

/-- The canonical form from `lo` on is the canonical form from any lower index on. -/
theorem Memory.wfFrom_mono {lo lo' : Nat} (h : lo ≤ lo') :
    ∀ {m : Memory}, Memory.wfFrom lo' m = true → Memory.wfFrom lo m = true
  | [], _ => rfl
  | (a, v) :: m, hm => by
    rw [Memory.wfFrom_cons] at hm ⊢
    exact ⟨h.trans hm.1, hm.2⟩

/-- No index below `lo` is listed in a buffer canonical from `lo` on. -/
theorem Memory.read_below {lo k : Nat} (h : k < lo) :
    ∀ {m : Memory}, Memory.wfFrom lo m = true → Memory.read m k = Memory.blank
  | [], _ => rfl
  | (a, v) :: m, hm => by
    rw [Memory.wfFrom_cons] at hm
    rw [Memory.read_cons, if_neg (by omega)]
    exact Memory.read_below (by omega) hm.2.2

/-- A write leaves every other entry alone (R41). -/
theorem Memory.read_write_other {k j : Nat} (h : j ≠ k) (v : RomCode) :
    ∀ m : Memory, Memory.read (Memory.write m k v) j = Memory.read m j
  | [] => by
    unfold Memory.write
    split <;> simp [Memory.read_cons, Ne.symm h]
  | (a, w) :: m => by
    unfold Memory.write
    split
    · split <;> simp [Memory.read_cons, Ne.symm h]
    · split
      · next hka => split <;> simp [Memory.read_cons, ← hka, Ne.symm h]
      · simp [Memory.read_cons, Memory.read_write_other h v m]

/-- A written entry reads as the value written (R41), in a canonical buffer. -/
theorem Memory.read_write_same (k : Nat) (v : RomCode) :
    ∀ {lo : Nat} {m : Memory}, Memory.wfFrom lo m = true → Memory.read (Memory.write m k v) k = v
  | _, [], _ => by
    unfold Memory.write
    split
    · next h => simp [h]
    · simp [Memory.read_cons]
  | _, (a, w) :: m, hm => by
    rw [Memory.wfFrom_cons] at hm
    unfold Memory.write
    split
    · next hka =>
      split
      · next hv =>
        rw [Memory.read_cons, if_neg (by omega), Memory.read_below (by omega) hm.2.2, hv]
      · simp [Memory.read_cons]
    · split
      · next hka =>
        split
        · next hv => rw [Memory.read_below (by omega) hm.2.2, hv]
        · simp [Memory.read_cons]
      · next hne =>
        rw [Memory.read_cons, if_neg (Ne.symm hne), Memory.read_write_same k v hm.2.2]

/-- A write at or above `lo` keeps the canonical form from `lo` on. -/
theorem Memory.wfFrom_write (k : Nat) (v : RomCode) :
    ∀ {lo : Nat} {m : Memory}, lo ≤ k → Memory.wfFrom lo m = true → Memory.wfFrom lo (Memory.write m k v) = true
  | lo, [], hk, _ => by
    unfold Memory.write
    split
    · rfl
    · next hv => simp [Memory.wfFrom_cons, hk, hv]
  | lo, (a, w) :: m, hk, hm => by
    have hm' := hm
    rw [Memory.wfFrom_cons] at hm'
    obtain ⟨hlo, hw, hrest⟩ := hm'
    unfold Memory.write
    split
    · next hka =>
      split
      · exact hm
      · next hv =>
        simp only [Memory.wfFrom_cons]
        exact ⟨hk, hv, by omega, hw, hrest⟩
    · split
      · next hka =>
        split
        · exact Memory.wfFrom_mono (by omega) hrest
        · next hv =>
          rw [Memory.wfFrom_cons]
          exact ⟨hk, hv, by rwa [hka]⟩
      · next hlt hne =>
        rw [Memory.wfFrom_cons]
        exact ⟨hlo, hw, Memory.wfFrom_write k v (by omega) hrest⟩

/-- Every write keeps the canonical form. -/
theorem Memory.wf_write {m : Memory} (k : Nat) (v : RomCode) (h : m.wf = true) : (Memory.write m k v).wf = true :=
  Memory.wfFrom_write k v (Nat.zero_le k) h

/-- A written entry of a canonical buffer reads as the value written. -/
theorem Memory.read_write {m : Memory} (k : Nat) (v : RomCode) (h : m.wf = true) : (Memory.write m k v).read k = v :=
  Memory.read_write_same k v h

end Sys2Proof.Machine
end

