-- ==== Sys2Proof/Laws/State.lean ====
section
/-! SUPPORT. What each shared update of the state does to each field: one lemma per field per update, true by `rfl`, so
that no later proof unfolds a record update. -/

namespace Sys2Proof.Machine

variable (s : State)

/-! ### Command acceptance (R23) -/

@[simp] theorem accept_cfg (op : HostOp) (p : Phase) : (accept op p s).cfg = s.cfg := rfl
@[simp] theorem accept_args (op : HostOp) (p : Phase) : (accept op p s).args = { s.args with op := op } := rfl
@[simp] theorem accept_lat (op : HostOp) (p : Phase) : (accept op p s).lat = s.lat := rfl
@[simp] theorem accept_res (op : HostOp) (p : Phase) : (accept op p s).res = s.res := rfl
@[simp] theorem accept_busy (op : HostOp) (p : Phase) : (accept op p s).busy = true := rfl
@[simp] theorem accept_mode (op : HostOp) (p : Phase) : (accept op p s).mode = s.mode := rfl
@[simp] theorem accept_phase (op : HostOp) (p : Phase) : (accept op p s).phase = p := rfl
@[simp] theorem accept_cur (op : HostOp) (p : Phase) : (accept op p s).cur = s.cur := rfl
@[simp] theorem accept_crc (op : HostOp) (p : Phase) : (accept op p s).crc = s.crc := rfl
@[simp] theorem accept_out (op : HostOp) (p : Phase) : (accept op p s).out = s.out := rfl
@[simp] theorem accept_outRaces (op : HostOp) (p : Phase) : (accept op p s).outRaces = s.outRaces := rfl
@[simp] theorem accept_outPinned (op : HostOp) (p : Phase) : (accept op p s).outPinned = s.outPinned := rfl
@[simp] theorem accept_phy (op : HostOp) (p : Phase) : (accept op p s).phy = s.phy := rfl
@[simp] theorem accept_inbox (op : HostOp) (p : Phase) : (accept op p s).inbox = s.inbox := rfl
@[simp] theorem accept_hostData (op : HostOp) (p : Phase) : (accept op p s).hostData = s.hostData := rfl
@[simp] theorem accept_draws (op : HostOp) (p : Phase) : (accept op p s).draws = s.draws := rfl
@[simp] theorem accept_trace (op : HostOp) (p : Phase) : (accept op p s).trace = s.trace := rfl

/-! ### Command completion (R24) -/

@[simp] theorem complete_cfg : (complete s).cfg = s.cfg := rfl
@[simp] theorem complete_args : (complete s).args = s.args := rfl
@[simp] theorem complete_lat : (complete s).lat = s.lat := rfl
@[simp] theorem complete_res : (complete s).res = s.res := rfl
@[simp] theorem complete_busy : (complete s).busy = false := rfl
@[simp] theorem complete_mode : (complete s).mode = s.mode := rfl
@[simp] theorem complete_phase : (complete s).phase = .idle := rfl
@[simp] theorem complete_cur : (complete s).cur = s.cur := rfl
@[simp] theorem complete_crc : (complete s).crc = s.crc := rfl
@[simp] theorem complete_out : (complete s).out = s.out := rfl
@[simp] theorem complete_outRaces : (complete s).outRaces = s.outRaces := rfl
@[simp] theorem complete_outPinned : (complete s).outPinned = s.outPinned := rfl
@[simp] theorem complete_phy : (complete s).phy = s.phy := rfl
@[simp] theorem complete_inbox : (complete s).inbox = s.inbox := rfl
@[simp] theorem complete_hostData : (complete s).hostData = s.hostData := rfl
@[simp] theorem complete_draws : (complete s).draws = s.draws := rfl
@[simp] theorem complete_trace : (complete s).trace = s.trace := rfl

/-! ### A completed PHY transaction (R80) -/

@[simp] theorem finishTransaction_cfg (i : Instr) (v : Byte) : (finishTransaction i v s).cfg = s.cfg := rfl
@[simp] theorem finishTransaction_args (i : Instr) (v : Byte) : (finishTransaction i v s).args = s.args := rfl
@[simp] theorem finishTransaction_lat (i : Instr) (v : Byte) : (finishTransaction i v s).lat = s.lat := rfl
@[simp] theorem finishTransaction_res (i : Instr) (v : Byte) : (finishTransaction i v s).res = s.res := rfl
@[simp] theorem finishTransaction_busy (i : Instr) (v : Byte) : (finishTransaction i v s).busy = s.busy := rfl
@[simp] theorem finishTransaction_mode (i : Instr) (v : Byte) : (finishTransaction i v s).mode = s.mode := rfl
@[simp] theorem finishTransaction_phase (i : Instr) (v : Byte) : (finishTransaction i v s).phase = s.phase := rfl
@[simp] theorem finishTransaction_cur (i : Instr) (v : Byte) : (finishTransaction i v s).cur = s.cur := rfl
@[simp] theorem finishTransaction_crc (i : Instr) (v : Byte) : (finishTransaction i v s).crc = s.crc := rfl
@[simp] theorem finishTransaction_out (i : Instr) (v : Byte) : (finishTransaction i v s).out = s.out := rfl
@[simp] theorem finishTransaction_outRaces (i : Instr) (v : Byte) : (finishTransaction i v s).outRaces = s.outRaces := rfl
@[simp] theorem finishTransaction_outPinned (i : Instr) (v : Byte) : (finishTransaction i v s).outPinned = s.outPinned := rfl
@[simp] theorem finishTransaction_phy (i : Instr) (v : Byte) :
    (finishTransaction i v s).phy =
      { s.phy with req := none, ack := some v } := rfl
@[simp] theorem finishTransaction_inbox (i : Instr) (v : Byte) : (finishTransaction i v s).inbox = s.inbox := rfl
@[simp] theorem finishTransaction_hostData (i : Instr) (v : Byte) : (finishTransaction i v s).hostData = s.hostData := rfl
@[simp] theorem finishTransaction_draws (i : Instr) (v : Byte) : (finishTransaction i v s).draws = s.draws := rfl
@[simp] theorem finishTransaction_trace (i : Instr) (v : Byte) : (finishTransaction i v s).trace = .phy i v :: s.trace := rfl

/-! ### The mode switch (R86) -/

@[simp] theorem setTransportMode_cfg (m : Mode) : (setTransportMode m s).cfg = s.cfg := rfl
@[simp] theorem setTransportMode_args (m : Mode) : (setTransportMode m s).args = s.args := rfl
@[simp] theorem setTransportMode_lat (m : Mode) : (setTransportMode m s).lat = s.lat := rfl
@[simp] theorem setTransportMode_res (m : Mode) : (setTransportMode m s).res = s.res := rfl
@[simp] theorem setTransportMode_busy (m : Mode) : (setTransportMode m s).busy = s.busy := rfl
@[simp] theorem setTransportMode_mode (m : Mode) : (setTransportMode m s).mode = m := rfl
@[simp] theorem setTransportMode_phase (m : Mode) : (setTransportMode m s).phase = s.phase := rfl
@[simp] theorem setTransportMode_cur (m : Mode) : (setTransportMode m s).cur = s.cur := rfl
@[simp] theorem setTransportMode_crc (m : Mode) : (setTransportMode m s).crc = s.crc := rfl
@[simp] theorem setTransportMode_out (m : Mode) : (setTransportMode m s).out = s.out := rfl
@[simp] theorem setTransportMode_outRaces (m : Mode) : (setTransportMode m s).outRaces = s.outRaces := rfl
@[simp] theorem setTransportMode_outPinned (m : Mode) : (setTransportMode m s).outPinned = s.outPinned := rfl
@[simp] theorem setTransportMode_phy (m : Mode) : (setTransportMode m s).phy = { s.phy with mode := m } := rfl
@[simp] theorem setTransportMode_inbox (m : Mode) : (setTransportMode m s).inbox = s.inbox := rfl
@[simp] theorem setTransportMode_hostData (m : Mode) : (setTransportMode m s).hostData = s.hostData := rfl
@[simp] theorem setTransportMode_draws (m : Mode) : (setTransportMode m s).draws = s.draws := rfl
@[simp] theorem setTransportMode_trace (m : Mode) : (setTransportMode m s).trace = s.trace := rfl

/-! ### A request put on the port and on record (R68, R9(a)) -/

@[simp] theorem issueWord_cfg (i : Instr) (w : PhyWord) : (issueWord i w s).cfg = s.cfg := rfl
@[simp] theorem issueWord_args (i : Instr) (w : PhyWord) : (issueWord i w s).args = s.args := rfl
@[simp] theorem issueWord_lat (i : Instr) (w : PhyWord) : (issueWord i w s).lat = s.lat := rfl
@[simp] theorem issueWord_res (i : Instr) (w : PhyWord) : (issueWord i w s).res = s.res := rfl
@[simp] theorem issueWord_busy (i : Instr) (w : PhyWord) : (issueWord i w s).busy = s.busy := rfl
@[simp] theorem issueWord_mode (i : Instr) (w : PhyWord) : (issueWord i w s).mode = s.mode := rfl
@[simp] theorem issueWord_phase (i : Instr) (w : PhyWord) : (issueWord i w s).phase = s.phase := rfl
@[simp] theorem issueWord_cur (i : Instr) (w : PhyWord) : (issueWord i w s).cur = s.cur := rfl
@[simp] theorem issueWord_crc (i : Instr) (w : PhyWord) : (issueWord i w s).crc = s.crc := rfl
@[simp] theorem issueWord_out (i : Instr) (w : PhyWord) : (issueWord i w s).out = s.out := rfl
@[simp] theorem issueWord_outRaces (i : Instr) (w : PhyWord) : (issueWord i w s).outRaces = s.outRaces := rfl
@[simp] theorem issueWord_outPinned (i : Instr) (w : PhyWord) : (issueWord i w s).outPinned = s.outPinned := rfl
@[simp] theorem issueWord_phy (i : Instr) (w : PhyWord) : (issueWord i w s).phy = { s.phy with req := some w } := rfl
@[simp] theorem issueWord_inbox (i : Instr) (w : PhyWord) : (issueWord i w s).inbox = s.inbox := rfl
@[simp] theorem issueWord_hostData (i : Instr) (w : PhyWord) : (issueWord i w s).hostData = s.hostData := rfl
@[simp] theorem issueWord_draws (i : Instr) (w : PhyWord) : (issueWord i w s).draws = s.draws := rfl
@[simp] theorem issueWord_trace (i : Instr) (w : PhyWord) : (issueWord i w s).trace = .issue i :: s.trace := rfl

/-! ### A completion taken by the sequencer -/

@[simp] theorem takeAck_cfg : (takeAck s).cfg = s.cfg := rfl
@[simp] theorem takeAck_args : (takeAck s).args = s.args := rfl
@[simp] theorem takeAck_lat : (takeAck s).lat = s.lat := rfl
@[simp] theorem takeAck_res : (takeAck s).res = s.res := rfl
@[simp] theorem takeAck_busy : (takeAck s).busy = s.busy := rfl
@[simp] theorem takeAck_mode : (takeAck s).mode = s.mode := rfl
@[simp] theorem takeAck_phase : (takeAck s).phase = s.phase := rfl
@[simp] theorem takeAck_cur : (takeAck s).cur = s.cur := rfl
@[simp] theorem takeAck_crc : (takeAck s).crc = s.crc := rfl
@[simp] theorem takeAck_out : (takeAck s).out = s.out := rfl
@[simp] theorem takeAck_outRaces : (takeAck s).outRaces = s.outRaces := rfl
@[simp] theorem takeAck_outPinned : (takeAck s).outPinned = s.outPinned := rfl
@[simp] theorem takeAck_phy : (takeAck s).phy = { s.phy with ack := none } := rfl
@[simp] theorem takeAck_inbox : (takeAck s).inbox = s.inbox := rfl
@[simp] theorem takeAck_hostData : (takeAck s).hostData = s.hostData := rfl
@[simp] theorem takeAck_draws : (takeAck s).draws = s.draws := rfl
@[simp] theorem takeAck_trace : (takeAck s).trace = s.trace := rfl

/-! ### An event taken from the inbox -/

@[simp] theorem popEvent_cfg : (popEvent s).cfg = s.cfg := rfl
@[simp] theorem popEvent_args : (popEvent s).args = s.args := rfl
@[simp] theorem popEvent_lat : (popEvent s).lat = s.lat := rfl
@[simp] theorem popEvent_res : (popEvent s).res = s.res := rfl
@[simp] theorem popEvent_busy : (popEvent s).busy = s.busy := rfl
@[simp] theorem popEvent_mode : (popEvent s).mode = s.mode := rfl
@[simp] theorem popEvent_phase : (popEvent s).phase = s.phase := rfl
@[simp] theorem popEvent_cur : (popEvent s).cur = s.cur := rfl
@[simp] theorem popEvent_crc : (popEvent s).crc = s.crc := rfl
@[simp] theorem popEvent_out : (popEvent s).out = s.out := rfl
@[simp] theorem popEvent_outRaces : (popEvent s).outRaces = s.outRaces := rfl
@[simp] theorem popEvent_outPinned : (popEvent s).outPinned = s.outPinned := rfl
@[simp] theorem popEvent_phy : (popEvent s).phy = s.phy := rfl
@[simp] theorem popEvent_inbox : (popEvent s).inbox = s.inbox.tail := rfl
@[simp] theorem popEvent_hostData : (popEvent s).hostData = s.hostData := rfl
@[simp] theorem popEvent_draws : (popEvent s).draws = s.draws := rfl
@[simp] theorem popEvent_trace : (popEvent s).trace = s.trace := rfl

/-! ### The PHY's answer lines -/

@[simp] theorem answerLines_cfg (v : Byte) : (answerLines v s).cfg = s.cfg := rfl
@[simp] theorem answerLines_args (v : Byte) : (answerLines v s).args = s.args := rfl
@[simp] theorem answerLines_lat (v : Byte) : (answerLines v s).lat = s.lat := rfl
@[simp] theorem answerLines_res (v : Byte) : (answerLines v s).res = s.res := rfl
@[simp] theorem answerLines_busy (v : Byte) : (answerLines v s).busy = s.busy := rfl
@[simp] theorem answerLines_mode (v : Byte) : (answerLines v s).mode = s.mode := rfl
@[simp] theorem answerLines_phase (v : Byte) : (answerLines v s).phase = s.phase := rfl
@[simp] theorem answerLines_cur (v : Byte) : (answerLines v s).cur = s.cur := rfl
@[simp] theorem answerLines_crc (v : Byte) : (answerLines v s).crc = s.crc := rfl
@[simp] theorem answerLines_out (v : Byte) : (answerLines v s).out = s.out := rfl
@[simp] theorem answerLines_outRaces (v : Byte) : (answerLines v s).outRaces = s.outRaces := rfl
@[simp] theorem answerLines_outPinned (v : Byte) : (answerLines v s).outPinned = s.outPinned := rfl
@[simp] theorem answerLines_phy (v : Byte) : (answerLines v s).phy = { s.phy with din := v } := rfl
@[simp] theorem answerLines_inbox (v : Byte) : (answerLines v s).inbox = s.inbox := rfl
@[simp] theorem answerLines_hostData (v : Byte) : (answerLines v s).hostData = s.hostData := rfl
@[simp] theorem answerLines_draws (v : Byte) : (answerLines v s).draws = s.draws := rfl
@[simp] theorem answerLines_trace (v : Byte) : (answerLines v s).trace = s.trace := rfl

/-! ### The error (R156) -/

@[simp] theorem raiseCollisionInconsistency_cfg : (raiseCollisionInconsistency s).cfg = s.cfg := rfl
@[simp] theorem raiseCollisionInconsistency_args : (raiseCollisionInconsistency s).args = s.args := rfl
@[simp] theorem raiseCollisionInconsistency_lat : (raiseCollisionInconsistency s).lat = s.lat := rfl
@[simp] theorem raiseCollisionInconsistency_res : (raiseCollisionInconsistency s).res = s.res := rfl
@[simp] theorem raiseCollisionInconsistency_busy : (raiseCollisionInconsistency s).busy = s.busy := rfl
@[simp] theorem raiseCollisionInconsistency_mode : (raiseCollisionInconsistency s).mode = s.mode := rfl
@[simp] theorem raiseCollisionInconsistency_phase : (raiseCollisionInconsistency s).phase = .sExit := rfl
@[simp] theorem raiseCollisionInconsistency_cur :
    (raiseCollisionInconsistency s).cur =
      { s.cur with count := -2, err := some .collisionInconsistency } := rfl
@[simp] theorem raiseCollisionInconsistency_crc : (raiseCollisionInconsistency s).crc = s.crc := rfl
@[simp] theorem raiseCollisionInconsistency_out : (raiseCollisionInconsistency s).out = s.out := rfl
@[simp] theorem raiseCollisionInconsistency_outRaces : (raiseCollisionInconsistency s).outRaces = s.outRaces := rfl
@[simp] theorem raiseCollisionInconsistency_outPinned : (raiseCollisionInconsistency s).outPinned = s.outPinned := rfl
@[simp] theorem raiseCollisionInconsistency_phy : (raiseCollisionInconsistency s).phy = s.phy := rfl
@[simp] theorem raiseCollisionInconsistency_inbox : (raiseCollisionInconsistency s).inbox = s.inbox := rfl
@[simp] theorem raiseCollisionInconsistency_hostData : (raiseCollisionInconsistency s).hostData = s.hostData := rfl
@[simp] theorem raiseCollisionInconsistency_draws : (raiseCollisionInconsistency s).draws = s.draws := rfl
@[simp] theorem raiseCollisionInconsistency_trace : (raiseCollisionInconsistency s).trace = s.trace := rfl

/-! ### The NoDevicePresent exit (R157) -/

@[simp] theorem noDeviceExit_cfg : (noDeviceExit s).cfg = s.cfg := rfl
@[simp] theorem noDeviceExit_args : (noDeviceExit s).args = s.args := rfl
@[simp] theorem noDeviceExit_lat : (noDeviceExit s).lat = s.lat := rfl
@[simp] theorem noDeviceExit_res : (noDeviceExit s).res = s.res := rfl
@[simp] theorem noDeviceExit_busy : (noDeviceExit s).busy = s.busy := rfl
@[simp] theorem noDeviceExit_mode : (noDeviceExit s).mode = s.mode := rfl
@[simp] theorem noDeviceExit_phase : (noDeviceExit s).phase = .sExit := rfl
@[simp] theorem noDeviceExit_cur : (noDeviceExit s).cur = { s.cur with count := 0 } := rfl
@[simp] theorem noDeviceExit_crc : (noDeviceExit s).crc = s.crc := rfl
@[simp] theorem noDeviceExit_out : (noDeviceExit s).out = s.out := rfl
@[simp] theorem noDeviceExit_outRaces : (noDeviceExit s).outRaces = s.outRaces := rfl
@[simp] theorem noDeviceExit_outPinned : (noDeviceExit s).outPinned = s.outPinned := rfl
@[simp] theorem noDeviceExit_phy : (noDeviceExit s).phy = s.phy := rfl
@[simp] theorem noDeviceExit_inbox : (noDeviceExit s).inbox = s.inbox := rfl
@[simp] theorem noDeviceExit_hostData : (noDeviceExit s).hostData = s.hostData := rfl
@[simp] theorem noDeviceExit_draws : (noDeviceExit s).draws = s.draws := rfl
@[simp] theorem noDeviceExit_trace : (noDeviceExit s).trace = s.trace := rfl

/-! ### SENDBYTE's latch (R90) -/

@[simp] theorem latchTxb_cfg : (latchTxb s).cfg = s.cfg := rfl
@[simp] theorem latchTxb_args : (latchTxb s).args = s.args := rfl
@[simp] theorem latchTxb_lat : (latchTxb s).lat = { s.lat with txb := s.args.txb } := rfl
@[simp] theorem latchTxb_res : (latchTxb s).res = s.res := rfl
@[simp] theorem latchTxb_busy : (latchTxb s).busy = s.busy := rfl
@[simp] theorem latchTxb_mode : (latchTxb s).mode = s.mode := rfl
@[simp] theorem latchTxb_phase : (latchTxb s).phase = s.phase := rfl
@[simp] theorem latchTxb_cur : (latchTxb s).cur = s.cur := rfl
@[simp] theorem latchTxb_crc : (latchTxb s).crc = s.crc := rfl
@[simp] theorem latchTxb_out : (latchTxb s).out = s.out := rfl
@[simp] theorem latchTxb_outRaces : (latchTxb s).outRaces = s.outRaces := rfl
@[simp] theorem latchTxb_outPinned : (latchTxb s).outPinned = s.outPinned := rfl
@[simp] theorem latchTxb_phy : (latchTxb s).phy = s.phy := rfl
@[simp] theorem latchTxb_inbox : (latchTxb s).inbox = s.inbox := rfl
@[simp] theorem latchTxb_hostData : (latchTxb s).hostData = s.hostData := rfl
@[simp] theorem latchTxb_draws : (latchTxb s).draws = s.draws := rfl
@[simp] theorem latchTxb_trace : (latchTxb s).trace = s.trace := rfl

/-! ### SCAN's latch (R110) -/

@[simp] theorem latchScan_cfg : (latchScan s).cfg = s.cfg := rfl
@[simp] theorem latchScan_args : (latchScan s).args = s.args := rfl
@[simp] theorem latchScan_lat :
    (latchScan s).lat =
      { s.lat with maxdev := s.args.maxdev, scmd := s.args.scmd, cap := s.args.cap, bufen := s.args.bufen } := rfl
@[simp] theorem latchScan_res : (latchScan s).res = s.res := rfl
@[simp] theorem latchScan_busy : (latchScan s).busy = s.busy := rfl
@[simp] theorem latchScan_mode : (latchScan s).mode = s.mode := rfl
@[simp] theorem latchScan_phase : (latchScan s).phase = s.phase := rfl
@[simp] theorem latchScan_cur : (latchScan s).cur = s.cur := rfl
@[simp] theorem latchScan_crc : (latchScan s).crc = s.crc := rfl
@[simp] theorem latchScan_out : (latchScan s).out = s.out := rfl
@[simp] theorem latchScan_outRaces : (latchScan s).outRaces = [] := rfl
@[simp] theorem latchScan_outPinned : (latchScan s).outPinned = [] := rfl
@[simp] theorem latchScan_phy : (latchScan s).phy = s.phy := rfl
@[simp] theorem latchScan_inbox : (latchScan s).inbox = s.inbox := rfl
@[simp] theorem latchScan_hostData : (latchScan s).hostData = s.hostData := rfl
@[simp] theorem latchScan_draws : (latchScan s).draws = s.draws := rfl
@[simp] theorem latchScan_trace : (latchScan s).trace = s.trace := rfl

/-! ### CHECKCRC's latch (R102) -/

@[simp] theorem latchRom_cfg : (latchRom s).cfg = s.cfg := rfl
@[simp] theorem latchRom_args : (latchRom s).args = s.args := rfl
@[simp] theorem latchRom_lat : (latchRom s).lat = { s.lat with rom := s.args.rom } := rfl
@[simp] theorem latchRom_res : (latchRom s).res = s.res := rfl
@[simp] theorem latchRom_busy : (latchRom s).busy = s.busy := rfl
@[simp] theorem latchRom_mode : (latchRom s).mode = s.mode := rfl
@[simp] theorem latchRom_phase : (latchRom s).phase = s.phase := rfl
@[simp] theorem latchRom_cur : (latchRom s).cur = s.cur := rfl
@[simp] theorem latchRom_crc : (latchRom s).crc = s.crc := rfl
@[simp] theorem latchRom_out : (latchRom s).out = s.out := rfl
@[simp] theorem latchRom_outRaces : (latchRom s).outRaces = s.outRaces := rfl
@[simp] theorem latchRom_outPinned : (latchRom s).outPinned = s.outPinned := rfl
@[simp] theorem latchRom_phy : (latchRom s).phy = s.phy := rfl
@[simp] theorem latchRom_inbox : (latchRom s).inbox = s.inbox := rfl
@[simp] theorem latchRom_hostData : (latchRom s).hostData = s.hostData := rfl
@[simp] theorem latchRom_draws : (latchRom s).draws = s.draws := rfl
@[simp] theorem latchRom_trace : (latchRom s).trace = s.trace := rfl

end Sys2Proof.Machine
end

