-- ==== Sys2Proof/Laws/Ops.lean ====
section
/-! SUPPORT. One lemma per shared operation that says everything it can do when it answers a next state; provers cite these
instead of unfolding the operations. -/

namespace Sys2Proof.Machine

variable {s t : State}

/-! ## Commands and transactions -/

/-- A command start that answers leaves a busy core alone, or accepts the command. -/
theorem startCommand_next {u : Bool} {op : HostOp} {p : Phase} {latch : State → State}
    (h : startCommand u op p latch s = .next t) :
    (s.phase ≠ .idle ∧ t = s) ∨
      (s.phase = .idle ∧ (u = true → s.phyReady = true) ∧ t = accept op p (latch s)) := by
  unfold startCommand at h
  split at h
  · next hi =>
    split at h
    · exact absurd h (by simp)
    · next hr => exact .inr ⟨hi, by simpa using hr, by simpa using h.symm⟩
  · next hi => exact .inl ⟨hi, by simpa using h.symm⟩

theorem startCommand_accepts {u : Bool} {op : HostOp} {p : Phase} {latch : State → State} (hi : s.phase = .idle)
    (hr : u = true → s.phyReady = true) : startCommand u op p latch s = .next (accept op p (latch s)) := by
  unfold startCommand
  rw [if_pos hi, if_neg (by simpa using hr)]

theorem startCommand_busy {u : Bool} {op : HostOp} {p : Phase} {latch : State → State} (hi : s.phase ≠ .idle) :
    startCommand u op p latch s = .next s := by
  unfold startCommand
  rw [if_neg hi]

theorem startCommand_no_fault {u : Bool} {op : HostOp} {p : Phase} {latch : State → State} {f : Fault} :
    startCommand u op p latch s ≠ .fault f := by
  unfold startCommand
  repeat' split
  all_goals simp

/-- What the boot requirement says (R172). -/
theorem phyReady_iff : s.phyReady = true ↔
    s.phy.mode = .byte ∧ s.phy.req = none ∧ s.phy.ack = none ∧ s.phy.orphan = none := by
  simp [State.phyReady, and_assoc]

/-- A PHY transaction that answers had its mode precondition met and has completed. -/
theorem transact_next {i : Instr} {need : Option Mode} {effect : State → State} {v : Byte}
    (h : transact i need effect v s = .next t) :
    s.phy.mode = s.mode ∧ modeAllows need s = true ∧ t = finishTransaction i v (effect s) := by
  unfold transact at h
  split at h
  · exact absurd h (by simp)
  · next hm =>
    split at h
    · next ha => exact ⟨by simpa using hm, ha, by simpa using h.symm⟩
    · exact absurd h (by simp)

theorem transact_completes {i : Instr} {need : Option Mode} {effect : State → State} {v : Byte}
    (hm : s.phy.mode = s.mode) (ha : modeAllows need s = true) :
    transact i need effect v s = .next (finishTransaction i v (effect s)) := by
  unfold transact
  rw [if_neg (by simpa using hm), if_pos ha]

theorem transact_no_fault {i : Instr} {need : Option Mode} {effect : State → State} {v : Byte} {f : Fault} :
    transact i need effect v s ≠ .fault f := by
  unfold transact
  repeat' split
  all_goals simp

@[simp] theorem modeAllows_none : modeAllows none s = true := rfl

@[simp] theorem modeAllows_some {m : Mode} : modeAllows (some m) s = true ↔ s.mode = m := by simp [modeAllows]

/-! ## Words -/

@[simp] theorem primOf_phyWord (p : BitVec 3) (d : Byte) : primOf (phyWord p d) = p := by
  unfold primOf phyWord
  apply BitVec.eq_of_getLsbD_eq
  intro i hi
  rw [BitVec.getLsbD_extractLsb', BitVec.getLsbD_append]
  simp [hi]

@[simp] theorem dataOf_phyWord (p : BitVec 3) (d : Byte) : dataOf (phyWord p d) = d := by
  unfold dataOf phyWord
  apply BitVec.eq_of_getLsbD_eq
  intro i hi
  rw [BitVec.getLsbD_extractLsb', BitVec.getLsbD_append]
  simp [hi]

/-- A request word is its `PRIM` and its `DATA`. -/
theorem phyWord_primOf_dataOf (w : PhyWord) : phyWord (primOf w) (dataOf w) = w := by
  unfold primOf dataOf phyWord
  apply BitVec.eq_of_getLsbD_eq
  intro i hi
  rw [BitVec.getLsbD_append, BitVec.getLsbD_extractLsb', BitVec.getLsbD_extractLsb']
  by_cases h : i < 8
  · simp [h]
  · simp only [h, decide_false, Bool.false_and]
    have h2 : i - 8 < 3 := by omega
    have h3 : 8 + (i - 8) = i := by omega
    simp [h2, h3]

/-- The request a phase makes has a word for the PHY port. -/
theorem phaseRequest_word {i : Instr} (h : phaseRequest s = some i) : ∃ w, encode i = .phy w := by
  unfold phaseRequest at h
  split at h <;> cases h <;> exact ⟨_, rfl⟩

theorem issue_of_encode {i : Instr} {w : PhyWord} (h : encode i = .phy w) : issue i s = issueWord i w s := by
  unfold issue
  rw [h]

/-- A value written to `CMD` decodes to a host command or to nothing (R65, R66). -/
theorem decodeCmdWrite_host {v : Nat} {i : Instr} (h : decodeCmdWrite v = .ok i) :
    i = .reset ∨ i = .sendbyte ∨ i = .readbyte ∨ i = .scan ∨ i = .checkcrc := by
  unfold decodeCmdWrite at h
  split at h
  · simp only [decode, decodeHost] at h
    repeat' split at h
    all_goals cases h <;> simp
  · exact absurd h (by simp)

/-- A request word decodes to a PHY request or to nothing (R68). -/
theorem decodePhy_phy {w : PhyWord} {i : Instr} (h : decodePhy w = .ok i) :
    i = .phyResetAndSense ∨ i = .phySetModeBit ∨ i = .phySetModeByte ∨ (∃ b, i = .phySendBit b) ∨ i = .phyReadBit ∨
      (∃ v, i = .phySendByte v) ∨ i = .phyReadByte := by
  unfold decodePhy at h
  repeat' split at h
  all_goals cases h <;> simp

/-- The request word of `sendBit` (R68, R82). -/
theorem sendBit_word (b : Bool) : phyWord 0b010#3 (bitData (bitOperand b)) = 0b0100000000#10 ++ BitVec.ofBool b := by
  cases b <;> rfl

/-- `REG[i] <- b` changes bit `i` and no other (R8, R140). -/
theorem setBit_getLsbD (v : RomCode) {i j : Nat} (hi : i < 64) (hj : j < 64) (b : Bool) :
    (setBit v i b).getLsbD j = if j = i then b else v.getLsbD j := by
  unfold setBit
  cases b <;> by_cases h : j = i
  · subst h; simp [hj]
  · simp [BitVec.getElem_twoPow, hj, h]
  · subst h; simp [hj]
  · simp [BitVec.getElem_twoPow, hj, h]

/-! ## Races for an entry of `OUT` -/

/-- A host write changes no race's index. -/
@[simp] theorem hostWrote_map_entry (k : Nat) (v : RomCode) (l : List Race) :
    (hostWrote k v l).map Race.entry = l.map Race.entry := by
  induction l with
  | nil => rfl
  | cons r rest ih =>
    simp only [hostWrote, List.map_cons, ih]
    split <;> rfl

/-- After a host write to an entry the scan has stored, its race holds the host's value and the scan's. -/
theorem raceAt_hostWrote {k : Nat} {r : Race} (v : RomCode) : ∀ {l : List Race}, raceAt k l = some r →
    raceAt k (hostWrote k v l) = some { r with host := v }
  | q :: rest, h => by
    unfold raceAt at h
    by_cases hq : q.entry = k
    · rw [if_pos hq] at h
      cases h
      simp [hostWrote, raceAt, hq]
    · rw [if_neg hq] at h
      simp [hostWrote, raceAt, hq, raceAt_hostWrote v h]

/-- A host write to one entry leaves the races of the others. -/
theorem raceAt_hostWrote_other {j k : Nat} (hj : j ≠ k) (v : RomCode) (l : List Race) :
    raceAt j (hostWrote k v l) = raceAt j l := by
  induction l with
  | nil => rfl
  | cons r rest ih =>
    by_cases hr : r.entry = k
    · simp [hostWrote, raceAt, hr, Ne.symm hj, ih]
    · simp [hostWrote, raceAt, hr, ih]

/-- An entry whose index the record does not hold has no race. -/
theorem raceAt_eq_none_iff {k : Nat} {l : List Race} : raceAt k l = none ↔ k ∉ l.map Race.entry := by
  induction l with
  | nil => simp [raceAt]
  | cons r rest ih =>
    unfold raceAt
    by_cases hr : r.entry = k
    · simp [hr]
    · simp [hr, ih, Ne.symm hr]

/-- `COUNT_W >= 3` leaves room for the counts 0 to 3 (R6). -/
theorem Config.countMax_ge {c : Config} (h : 3 ≤ c.countW) : 3 ≤ c.countMax := by
  have h1 : 2 ^ 2 ≤ 2 ^ (c.countW - 1) := Nat.pow_le_pow_right (by omega) (by omega)
  unfold Config.countMax
  omega

/-! ## Phases -/

/-- `S_STORE` either stores and counts, or only counts. -/
theorem sStore_next (h : sStore s = .next t) :
    t = countPass (if storesCandidate s then storeCandidate s else s) := by
  simpa [sStore] using h.symm

/-- Everything a step of the core by itself can do. -/
theorem coreMove_next (h : coreMove s = .next t) :
    (s.phy.req.isSome = true ∧ t = s) ∨
    (s.phy.req = none ∧ phaseRequest s = none ∧ phaseStep s = .next t) ∨
    (s.phy.req = none ∧ ∃ i, phaseRequest s = some i ∧
      ((s.phy.ack = none ∧ t = issue i s) ∨ ∃ v, s.phy.ack = some v ∧ t = phaseDone v (takeAck s))) := by
  unfold coreMove at h
  split at h
  · next hr => exact .inl ⟨hr, by simpa using h.symm⟩
  · next hr =>
    have hr' : s.phy.req = none := by simpa using hr
    split at h
    · next hp => exact .inr (.inl ⟨hr', hp, h⟩)
    · next i hp =>
      refine .inr (.inr ⟨hr', i, hp, ?_⟩)
      split at h
      · next ha => exact .inl ⟨ha, by simpa using h.symm⟩
      · next v ha => exact .inr ⟨v, ha, by simpa using h.symm⟩

/-! ## The outside -/

/-- Everything a host access that answers can do. -/
theorem hostAccess_next {a : HostAccess} (h : hostAccess a s = .next t) :
    (∃ v i, a = .write .cmd v ∧ decodeCmdWrite v = .ok i ∧ exec i s = .next t) ∨
    (∃ r v, a = .write r v ∧ r ≠ .cmd ∧ t = writeRegister r v s) ∨
    (∃ r, a = .read r ∧ t = readRegister r s) ∨
    (∃ k v, a = .writeOut k v ∧ t = writeEntry k v s) ∨
    (∃ k, a = .readOut k ∧ t = readEntry k s) := by
  unfold hostAccess at h
  split at h
  · next v =>
    unfold writeCmd at h
    split at h
    · next i hd => exact .inl ⟨v, i, rfl, hd, h⟩
    · exact absurd h (by simp)
  · next r v hr => exact .inr (.inl ⟨r, v, rfl, hr, by simpa using h.symm⟩)
  · next r => exact .inr (.inr (.inl ⟨r, rfl, by simpa using h.symm⟩))
  · next k v => exact .inr (.inr (.inr (.inl ⟨k, v, rfl, by simpa using h.symm⟩)))
  · next k => exact .inr (.inr (.inr (.inr ⟨k, rfl, by simpa using h.symm⟩)))

/-- A host write to an entry that no scan owns. -/
theorem writeEntry_unowned {k : Nat} (v : RomCode) (h : scanOwns k s = false) :
    writeEntry k v s = { s with out := s.out.write k v } := by
  simp [writeEntry, h]

/-- A host read of an entry that no scan owns. -/
theorem readEntry_unowned {k : Nat} (h : scanOwns k s = false) : readEntry k s = { s with hostData := (s.out.read k).toNat } := by
  simp [readEntry, h]

/-- A host read of an entry that a scan owns sees the host's side or the scan's. -/
theorem readEntry_owned {k : Nat} (h : scanOwns k s = true) :
    ∃ w, (w = (entrySides k s).1 ∨ w = (entrySides k s).2) ∧
      readEntry k s = { s with hostData := w.toNat, draws := s.draws + 1 } := by
  refine ⟨if freeBit s.draws then (entrySides k s).2 else (entrySides k s).1, ?_, by simp [readEntry, h]⟩
  cases freeBit s.draws
  · exact .inl rfl
  · exact .inr rfl

/-- The sides of an entry that its scan has stored. -/
theorem entrySides_raced {k : Nat} {r : Race} (hr : raceAt k s.outRaces = some r) : entrySides k s = (r.host, r.scan) := by
  simp [entrySides, hr]

/-- The sides of an entry that its scan has yet to store. -/
theorem entrySides_unstored {k : Nat} (hr : raceAt k s.outRaces = none) :
    entrySides k s = (s.out.read k, (valueToStore k (stepsAhead s) s).getD (s.out.read k)) := by
  simp [entrySides, hr]

/-- A host write to an entry that its scan has yet to store puts the host's value there and chooses that entry's pin anew. -/
theorem writeEntry_unstored {k : Nat} (v : RomCode) (h : scanOwns k s = true) (hr : raceAt k s.outRaces = none) :
    ∃ pins, (∀ j, j ≠ k → (j ∈ pins ↔ j ∈ s.outPinned)) ∧
      writeEntry k v s = { s with out := s.out.write k v, outPinned := pins, draws := s.draws + 1 } := by
  unfold writeEntry
  rw [if_pos h, hr]
  refine ⟨_, fun j hj => ?_, rfl⟩
  cases freeBit s.draws <;> simp [hj]

/-- A host write to an entry that its scan has stored leaves the host's value or the scan's. -/
theorem writeEntry_raced {k : Nat} {r : Race} (v : RomCode) (h : scanOwns k s = true) (hr : raceAt k s.outRaces = some r) :
    ∃ w, (w = v ∨ w = r.scan) ∧ writeEntry k v s =
      { s with out := s.out.write k w, outRaces := hostWrote k v s.outRaces, draws := s.draws + 1 } := by
  refine ⟨if freeBit s.draws then v else r.scan, ?_, by simp [writeEntry, h, hr]⟩
  cases freeBit s.draws
  · exact .inr rfl
  · exact .inl rfl

/-- Everything a step can do, by who acts in it. -/
theorem step_next (h : step s = .next t) :
    (s.inbox = [] ∧ coreMove s = .next t) ∨
    (∃ rest, s.inbox = .wait :: rest ∧ coreMove (popEvent s) = .next t) ∨
    (∃ rest, s.inbox = .awaitIdle :: rest ∧
      ((s.busy = true ∧ coreMove s = .next t) ∨ (s.busy = false ∧ t = popEvent s))) ∨
    (∃ a rest, s.inbox = .host a :: rest ∧ hostAccess a (popEvent s) = .next t) ∨
    (∃ v rest w i, s.inbox = .phyDone v :: rest ∧ s.phy.req = some w ∧ decode (.phy w) = .ok i ∧
      exec i (answerLines v (popEvent s)) = .next t) ∨
    ((∃ e rest, s.inbox = e :: rest ∧ (e = .phyHang ∨ ∃ v, e = .phyDone v)) ∧ s.phy.req = none ∧
      ((s.phase = .idle ∧ t = popEvent s) ∨ (s.phase ≠ .idle ∧ coreMove s = .next t))) ∨
    (∃ rest, s.inbox = .coreReset :: rest ∧ t = coreReset (popEvent s)) ∨
    (∃ rest, s.inbox = .phyInit :: rest ∧ phyInit (popEvent s) = .next t) := by
  unfold step advance advanceWith at h
  split at h
  · next hin => exact .inl ⟨hin, h⟩
  · next rest hin => exact .inr (.inl ⟨rest, hin, h⟩)
  · next rest hin =>
    refine .inr (.inr (.inl ⟨rest, hin, ?_⟩))
    split at h
    · next hb => exact .inl ⟨hb, h⟩
    · next hb => exact .inr ⟨by simpa using hb, by simpa using h.symm⟩
  · next a rest hin => exact .inr (.inr (.inr (.inl ⟨a, rest, hin, h⟩)))
  · next v rest hin =>
    split at h
    · next w hw =>
      unfold runPhyWord at h
      split at h
      · next i hd => exact .inr (.inr (.inr (.inr (.inl ⟨v, rest, w, i, hin, hw, hd, h⟩))))
      · exact absurd h (by simp)
    · next hw =>
      unfold awaitRequest at h
      refine .inr (.inr (.inr (.inr (.inr (.inl ⟨⟨_, rest, hin, .inr ⟨v, rfl⟩⟩, hw, ?_⟩)))))
      split at h
      · next hi => exact .inl ⟨hi, by simpa using h.symm⟩
      · next hi => exact .inr ⟨hi, h⟩
  · next rest hin =>
    split at h
    · exact absurd h (by simp)
    · next hw =>
      unfold awaitRequest at h
      refine .inr (.inr (.inr (.inr (.inr (.inl ⟨⟨_, rest, hin, .inl rfl⟩, hw, ?_⟩)))))
      split at h
      · next hi => exact .inl ⟨hi, by simpa using h.symm⟩
      · next hi => exact .inr ⟨hi, h⟩
  · next rest hin => exact .inr (.inr (.inr (.inr (.inr (.inr (.inl ⟨rest, hin, by simpa using h.symm⟩))))))
  · next rest hin => exact .inr (.inr (.inr (.inr (.inr (.inr (.inr ⟨rest, hin, h⟩))))))

/-- The platform initialises an idle core's PHY (R172). -/
theorem phyInit_next (h : phyInit s = .next t) :
    s.busy = false ∧
      t = { s with phy := { s.phy with req := none, ack := none, orphan := none, mode := .byte } } := by
  unfold phyInit at h
  split at h
  · exact absurd h (by simp)
  · next hb => exact ⟨by simpa using hb, by simpa using h.symm⟩

/-- In a step in which the core moves, the step is the core's move. -/
theorem step_of_coreTurn {s0 : State} (h : CoreTurn s s0) : step s = coreMove s0 := by
  unfold step advance advanceWith
  obtain ⟨hin, rfl⟩ | ⟨rest, hin, rfl⟩ | ⟨rest, hin, hb, rfl⟩ | ⟨v, rest, hin, hr, hp, rfl⟩ | ⟨rest, hin, hr, hp, rfl⟩ := h
  · rw [hin]
  · rw [hin]; simp [popEvent, hin]
  · rw [hin]; simp [hb]
  · rw [hin]; simp [hr, awaitRequest, hp]
  · rw [hin]; simp [hr, awaitRequest, hp]

/-- The core moves from a state that differs from the machine's in the inbox only. -/
theorem coreTurn_fields {s0 : State} (h : CoreTurn s s0) : s0 = { s with inbox := s0.inbox } := by
  obtain ⟨-, rfl⟩ | ⟨_, -, rfl⟩ | ⟨_, -, -, rfl⟩ | ⟨_, _, -, -, -, rfl⟩ | ⟨_, -, -, -, rfl⟩ := h <;> rfl

/-- The core's move in a phase without a transaction. -/
theorem coreMove_phaseStep (hr : s.phy.req = none) (hp : phaseRequest s = none) : coreMove s = phaseStep s := by
  simp [coreMove, hr, hp]

/-- The core's move when its phase has a request to make. -/
theorem coreMove_issue {i : Instr} (hr : s.phy.req = none) (hp : phaseRequest s = some i) (ha : s.phy.ack = none) :
    coreMove s = .next (issue i s) := by
  simp [coreMove, hr, hp, ha]

/-- The core's move when its phase's transaction has completed. -/
theorem coreMove_done {i : Instr} {v : Byte} (hr : s.phy.req = none) (hp : phaseRequest s = some i)
    (ha : s.phy.ack = some v) : coreMove s = .next (phaseDone v (takeAck s)) := by
  simp [coreMove, hr, hp, ha]

/-! ## Runs -/

@[simp] theorem runSteps_zero : runSteps 0 s = .next s := rfl

theorem runSteps_succ (n : Nat) (s : State) :
    runSteps (n + 1) s =
      match step s with
      | .next u => runSteps n u
      | .fault f => .fault f
      | .refused r => .refused r := rfl

/-- A run goes on from the next state. -/
theorem runSteps_of_step {n : Nat} (h : step s = .next t) : runSteps (n + 1) s = runSteps n t := by
  rw [runSteps_succ, h]

/-- A run stops at the first fault. -/
theorem runSteps_of_fault {n : Nat} {f : Fault} (h : step s = .fault f) : runSteps (n + 1) s = .fault f := by
  rw [runSteps_succ, h]

/-- A run that goes on has a first step that goes on. -/
theorem runSteps_next {n : Nat} (h : runSteps (n + 1) s = .next t) : ∃ u, step s = .next u ∧ runSteps n u = .next t := by
  rw [runSteps_succ] at h
  split at h
  · next u hu => exact ⟨u, hu, h⟩
  · exact absurd h (by simp)
  · exact absurd h (by simp)

/-- Runs compose. -/
theorem runSteps_add {m : Nat} : ∀ {n : Nat} {s u : State}, runSteps n s = .next u →
    runSteps (n + m) s = runSteps m u
  | 0, s, u, h => by
    rw [runSteps_zero] at h
    cases h
    rw [Nat.zero_add]
  | n + 1, s, u, h => by
    obtain ⟨v, hv, hr⟩ := runSteps_next h
    rw [Nat.succ_add, runSteps_of_step hv, runSteps_add hr]

end Sys2Proof.Machine
end

