-- ==== Sys2Proof/Laws/Step.lean ====
section
/-! SUPPORT. Everything a step can do, said once and flat: `CoreMoves`, `HostMoves`, `PhyMoves` and `StepMoves` list the next
states of a core move, a host access, a completing transaction and a step, with what holds in each case. A statement about
every step is proved by cases on these. -/

namespace Sys2Proof.Machine

variable {s t : State}

/-- The next states of a core move, a row for each way a phase can advance. -/
inductive CoreMoves (s : State) : State → Prop where
  /-- A transaction is outstanding, or the core is in `IDLE`. -/
  | stay (h : s.phy.req.isSome = true ∨ s.phase = .idle) : CoreMoves s s
  | issue (i : Instr) (w : PhyWord) (hr : s.phy.req = none) (ha : s.phy.ack = none) (hp : phaseRequest s = some i)
      (hw : encode i = .phy w) :
      CoreMoves s { s with phy := { s.phy with req := some w }, trace := .issue i :: s.trace }
  | xReset (v : Byte) (hr : s.phy.req = none) (ha : s.phy.ack = some v) (hp : s.phase = .xReset) :
      CoreMoves s { s with
        phy := { s.phy with ack := none }, res := { s.res with pres := bitOfAnswer v }, busy := false, phase := .idle }
  | xSend (v : Byte) (hr : s.phy.req = none) (ha : s.phy.ack = some v) (hp : s.phase = .xSend) :
      CoreMoves s { s with phy := { s.phy with ack := none }, busy := false, phase := .idle }
  | xRead (v : Byte) (hr : s.phy.req = none) (ha : s.phy.ack = some v) (hp : s.phase = .xRead) :
      CoreMoves s { s with
        phy := { s.phy with ack := none }, res := { s.res with rxb := v }, busy := false, phase := .idle }
  | kRun (hr : s.phy.req = none) (hp : s.phase = .kRun) : CoreMoves s (kRun s)
  | sEnter (v : Byte) (hr : s.phy.req = none) (ha : s.phy.ack = some v) (hp : s.phase = .sEnter) :
      CoreMoves s { s with
        phy := { s.phy with ack := none }
        cur := { s.cur with nbp := none, count := 0, fin := false, cand := 0, err := none }, phase := .sCheck }
  | anotherPass (hr : s.phy.req = none) (hp : s.phase = .sCheck) (hc : anotherPass s = true) :
      CoreMoves s { s with phase := .sBegin }
  | lastPass (hr : s.phy.req = none) (hp : s.phase = .sCheck) (hc : anotherPass s = false) :
      CoreMoves s { s with phase := .sExit }
  | sBegin (hr : s.phy.req = none) (hp : s.phase = .sBegin) :
      CoreMoves s { s with cur := { s.cur with bp := s.cur.nbp, fin := true }, phase := .sReset }
  | present (v : Byte) (hr : s.phy.req = none) (ha : s.phy.ack = some v) (hp : s.phase = .sReset)
      (hc : bitOfAnswer v = true) :
      CoreMoves s { s with phy := { s.phy with ack := none }, cur := { s.cur with cidx := 0 }, phase := .sCmd }
  | noDevice (v : Byte) (hr : s.phy.req = none) (ha : s.phy.ack = some v) (hp : s.phase = .sReset)
      (hc : bitOfAnswer v = false) :
      CoreMoves s { s with phy := { s.phy with ack := none }, cur := { s.cur with count := 0 }, phase := .sExit }
  | nextCommandBit (v : Byte) (hr : s.phy.req = none) (ha : s.phy.ack = some v) (hp : s.phase = .sCmd)
      (hc : s.cur.cidx ≠ 7) :
      CoreMoves s { s with phy := { s.phy with ack := none }, cur := { s.cur with cidx := s.cur.cidx + 1 } }
  | lastCommandBit (v : Byte) (hr : s.phy.req = none) (ha : s.phy.ack = some v) (hp : s.phase = .sCmd)
      (hc : s.cur.cidx = 7) :
      CoreMoves s { s with phy := { s.phy with ack := none }, cur := { s.cur with idx := 0 }, phase := .sReadA }
  | sReadA (v : Byte) (hr : s.phy.req = none) (ha : s.phy.ack = some v) (hp : s.phase = .sReadA) :
      CoreMoves s { s with phy := { s.phy with ack := none }, cur := { s.cur with a := bitOfAnswer v }, phase := .sReadB }
  | sReadB (v : Byte) (hr : s.phy.req = none) (ha : s.phy.ack = some v) (hp : s.phase = .sReadB) :
      CoreMoves s { s with phy := { s.phy with ack := none }, cur := { s.cur with b := bitOfAnswer v }, phase := .sDecide }
  /-- `S_DECIDE` with no 0-branch taken at a collision: agreement, resume or replay. -/
  | sendDirection (d : Bool) (hr : s.phy.req = none) (hp : s.phase = .sDecide) :
      CoreMoves s { s with cur := { s.cur with dir := d }, phase := .sWrite }
  | zeroBranch (hr : s.phy.req = none) (hp : s.phase = .sDecide) (hb : atBranch s.cur.idx s.cur.bp = false)
      (hc : pastBranch s.cur.idx s.cur.bp = true ∨ candidateBit s = false) :
      CoreMoves s { s with
        cur := { s.cur with dir := false, fin := false, nbp := some s.cur.idx }, phase := .sWrite }
  | inconsistency (hr : s.phy.req = none) (hp : s.phase = .sDecide) (ha : s.cur.a = true) (hb : s.cur.b = true) :
      CoreMoves s { s with
        cur := { s.cur with count := -2, err := some .collisionInconsistency }, phase := .sExit }
  | nextIndex (v : Byte) (hr : s.phy.req = none) (ha : s.phy.ack = some v) (hp : s.phase = .sWrite)
      (hc : s.cur.idx ≠ 63) :
      CoreMoves s { s with
        phy := { s.phy with ack := none }
        cur := { s.cur with cand := setBit s.cur.cand s.cur.idx.val s.cur.dir, idx := s.cur.idx + 1 }
        phase := .sReadA }
  | lastIndex (v : Byte) (hr : s.phy.req = none) (ha : s.phy.ack = some v) (hp : s.phase = .sWrite)
      (hc : s.cur.idx = 63) :
      CoreMoves s { s with
        phy := { s.phy with ack := none }
        cur := { s.cur with cand := setBit s.cur.cand s.cur.idx.val s.cur.dir }, phase := .sStore }
  | countOnly (hr : s.phy.req = none) (hp : s.phase = .sStore) (hc : storesCandidate s = false) :
      CoreMoves s { s with cur := { s.cur with count := s.cur.count + 1 }, phase := .sCheck }
  | store (hr : s.phy.req = none) (hp : s.phase = .sStore) (hc : storesCandidate s = true) :
      CoreMoves s { s with
        cur := { s.cur with count := s.cur.count + 1 }, phase := .sCheck
        out := if s.cur.count.toNat ∈ s.outPinned then s.out else s.out.write s.cur.count.toNat s.cur.cand
        outRaces :=
          { entry := s.cur.count.toNat, host := s.out.read s.cur.count.toNat, scan := s.cur.cand } :: s.outRaces
        trace := .store s.cur.count.toNat s.cur.cand :: s.trace }
  | sExit (v : Byte) (hr : s.phy.req = none) (ha : s.phy.ack = some v) (hp : s.phase = .sExit) :
      CoreMoves s { s with
        phy := { s.phy with ack := none }
        res := { s.res with count := s.cur.count, err := errorCode s.cur.err }, busy := false, phase := .idle }

/-- What a phase without a transaction does. -/
theorem phaseStep_moves (hr : s.phy.req = none) (hp : phaseRequest s = none) (h : phaseStep s = .next t) :
    CoreMoves s t := by
  unfold phaseStep at h
  cases hph : s.phase <;> simp only [hph] at h <;> cases h
  case idle => exact .stay (.inr hph)
  case kRun => exact .kRun hr hph
  case sCheck =>
    unfold sCheck
    cases hc : Machine.anotherPass s
    · exact .lastPass hr hph hc
    · exact .anotherPass hr hph hc
  case sBegin => exact .sBegin hr hph
  case sDecide =>
    unfold sDecide pairMeaning
    split
    · next hm =>
      unfold takeArm
      split
      · exact .sendDirection true hr hph
      · next hb =>
        unfold branchArm at hb
        split at hb
        · cases hb
        · next h1 =>
          split at hb
          · next h2 => exact .zeroBranch hr hph (by simpa using h1) (by simpa using h2)
          · cases hb
      · exact .sendDirection true hr hph
    · next hm =>
      split at hm
      · cases hm
      · split at hm
        · next hab => exact .inconsistency hr hph hab.1 hab.2
        · cases hm
    · exact .sendDirection s.cur.a hr hph
  case sStore =>
    cases hc : storesCandidate s
    · exact .countOnly hr hph hc
    · exact .store hr hph hc
  all_goals exact absurd hp (by simp [phaseRequest, hph])

/-- What a phase with a transaction does when it has completed. -/
theorem phaseDone_moves {i : Instr} {v : Byte} (hr : s.phy.req = none) (hp : phaseRequest s = some i)
    (ha : s.phy.ack = some v) : CoreMoves s (phaseDone v (takeAck s)) := by
  unfold phaseDone
  cases hph : s.phase <;> simp only [takeAck_phase, hph]
  case xReset => exact .xReset v hr ha hph
  case xSend => exact .xSend v hr ha hph
  case xRead => exact .xRead v hr ha hph
  case sEnter => exact .sEnter v hr ha hph
  case sReset =>
    unfold sResetDone
    cases hc : bitOfAnswer v
    · exact .noDevice v hr ha hph hc
    · exact .present v hr ha hph hc
  case sCmd =>
    unfold sCmdDone
    split
    · next hc => exact .lastCommandBit v hr ha hph hc
    · next hc => exact .nextCommandBit v hr ha hph hc
  case sReadA => exact .sReadA v hr ha hph
  case sReadB => exact .sReadB v hr ha hph
  case sWrite =>
    unfold sWriteDone
    split
    · next hc => exact .lastIndex v hr ha hph hc
    · next hc => exact .nextIndex v hr ha hph hc
  case sExit => exact .sExit v hr ha hph
  all_goals exact absurd hp (by simp [phaseRequest, hph])

/-- Everything a core move can do. -/
theorem coreMove_moves (h : coreMove s = .next t) : CoreMoves s t := by
  obtain ⟨hr, rfl⟩ | ⟨hr, hp, h⟩ | ⟨hr, i, hp, ⟨ha, rfl⟩ | ⟨v, ha, rfl⟩⟩ := coreMove_next h
  · exact .stay (.inl hr)
  · exact phaseStep_moves hr hp h
  · obtain ⟨w, hw⟩ := phaseRequest_word hp
    rw [issue_of_encode hw]
    exact .issue i w hr ha hp hw
  · exact phaseDone_moves hr hp ha

/-- A core move always answers a next state: the core by itself never stops (R22). -/
theorem coreMove_answers (s : State) : ∃ t, coreMove s = .next t := by
  unfold coreMove phaseStep sStore
  repeat' split
  all_goals exact ⟨_, rfl⟩

/-- The next states of a host access. -/
inductive HostMoves (a : HostAccess) (s : State) : State → Prop where
  /-- A command started while one is in progress. -/
  | turnedAway (hp : s.phase ≠ .idle) : HostMoves a s s
  | accepted (op : HostOp) (first : Phase) (latch : State → State) (hp : s.phase = .idle)
      (hc : (first = .xReset ∧ latch = id ∧ s.phyReady = true) ∨ (first = .xSend ∧ latch = latchTxb ∧ s.phyReady = true) ∨
        (first = .xRead ∧ latch = id ∧ s.phyReady = true) ∨ (first = .sEnter ∧ latch = latchScan ∧ s.phyReady = true) ∨
        (first = .kRun ∧ latch = latchRom)) : HostMoves a s (accept op first (latch s))
  | register (r : HostReg) (v d : Nat) (x : Operands) (ha : a = .write r v)
      (hx : x = s.args ∨ x = writeOperand s.cfg r v s.args) : HostMoves a s { s with args := x, draws := d }
  | read (x d : Nat) (ha : (∃ r, a = .read r) ∨ ∃ k, a = .readOut k) : HostMoves a s { s with hostData := x, draws := d }
  | entry (k : Nat) (v w : RomCode) (p : List Nat) (q : List Race) (d : Nat) (ha : a = .writeOut k v)
      (hw : w = v ∨ ∃ r, scanOwns k s = true ∧ raceAt k s.outRaces = some r ∧ w = r.scan)
      (hq : q = s.outRaces ∨ q = hostWrote k v s.outRaces) :
      HostMoves a s { s with out := s.out.write k w, outPinned := p, outRaces := q, draws := d }

/-- Everything a host access can do. -/
theorem hostAccess_moves {a : HostAccess} (h : hostAccess a s = .next t) : HostMoves a s t := by
  obtain ⟨v, i, rfl, hd, hs⟩ | ⟨r, v, rfl, -, rfl⟩ | ⟨r, rfl, rfl⟩ | ⟨k, v, rfl, rfl⟩ | ⟨k, rfl, rfl⟩ := hostAccess_next h
  · rcases decodeCmdWrite_host hd with rfl | rfl | rfl | rfl | rfl <;> simp only [exec] at hs <;>
      obtain ⟨hp, rfl⟩ | ⟨hi, hr, rfl⟩ := startCommand_next hs <;>
      first
      | exact .turnedAway hp
      | exact .accepted _ _ _ hi (by simp_all)
  · unfold writeRegister
    split
    · refine .register r v _ _ rfl ?_
      split
      · exact .inr rfl
      · exact .inl rfl
    · exact .register r v s.draws _ rfl (.inr rfl)
  · unfold readRegister
    split
    · exact .read _ _ (.inl ⟨r, rfl⟩)
    · exact .read _ s.draws (.inl ⟨r, rfl⟩)
  · unfold writeEntry
    split
    · next hs =>
      split
      · exact .entry k v v _ s.outRaces _ rfl (.inl rfl) (.inl rfl)
      · next r hr =>
        refine .entry k v _ s.outPinned _ _ rfl ?_ (.inr rfl)
        split
        · exact .inl rfl
        · exact .inr ⟨r, hs, hr, rfl⟩
    · exact .entry k v v s.outPinned s.outRaces s.draws rfl (.inl rfl) (.inl rfl)
  · unfold readEntry
    split
    · exact .read _ _ (.inr ⟨k, rfl⟩)
    · exact .read _ s.draws (.inr ⟨k, rfl⟩)

/-- The next states of a PHY request's meaning: only the two mode switches touch the mode. -/
inductive PhyMoves (i : Instr) (s : State) : State → Prop where
  | plain (v : Byte) (hm : s.phy.mode = s.mode) (h1 : i ≠ .phySetModeBit) (h2 : i ≠ .phySetModeByte) :
      PhyMoves i s (finishTransaction i v s)
  | toBit (hm : s.phy.mode = s.mode) (hi : i = .phySetModeBit) :
      PhyMoves i s (finishTransaction .phySetModeBit 0 (setTransportMode .bit s))
  | toByte (hm : s.phy.mode = s.mode) (hi : i = .phySetModeByte) :
      PhyMoves i s (finishTransaction .phySetModeByte 0 (setTransportMode .byte s))

/-- Everything a completing transaction can do. -/
theorem execPhy_moves {i : Instr} {w : PhyWord} (hd : decode (.phy w) = .ok i) (h : exec i s = .next t) :
    PhyMoves i s t := by
  rcases decodePhy_phy hd with rfl | rfl | rfl | ⟨b, rfl⟩ | rfl | ⟨v, rfl⟩ | rfl <;> simp only [exec] at h <;>
    obtain ⟨h1, -, rfl⟩ := transact_next h <;>
    first
    | exact .toBit h1 rfl
    | exact .toByte h1 rfl
    | exact .plain _ h1 (by simp) (by simp)

/-- The next states of a step, by who acts. -/
inductive StepMoves (s : State) : State → Prop where
  | core (x : List Event) (t : State) (h : CoreMoves { s with inbox := x } t) : StepMoves s t
  /-- An event that has no effect: a void completion, the end of a wait for `BUSY = 0`. -/
  | pop (x : List Event) : StepMoves s { s with inbox := x }
  | host (a : HostAccess) (x : List Event) (t : State) (hi : s.inbox = .host a :: x)
      (h : HostMoves a { s with inbox := x } t) : StepMoves s t
  | phy (v : Byte) (x : List Event) (w : PhyWord) (i : Instr) (t : State) (hi : s.inbox = .phyDone v :: x)
      (hr : s.phy.req = some w) (hd : decode (.phy w) = .ok i)
      (h : PhyMoves i { s with inbox := x, phy := { s.phy with din := v } } t) : StepMoves s t
  | coreReset (x : List Event) (hi : s.inbox = .coreReset :: x) : StepMoves s (coreReset { s with inbox := x })
  | phyInit (x : List Event) (hi : s.inbox = .phyInit :: x) (hb : s.busy = false) :
      StepMoves s { s with
        inbox := x, phy := { s.phy with req := none, ack := none, orphan := none, mode := .byte } }

/-- Everything a step can do. -/
theorem step_moves (h : step s = .next t) : StepMoves s t := by
  have hpop : ∀ {e : Event} {x : List Event}, s.inbox = e :: x → popEvent s = { s with inbox := x } := by
    intro e x hx
    simp [popEvent, hx]
  obtain ⟨-, h1⟩ | ⟨x, hi, h1⟩ | ⟨x, -, ⟨-, h1⟩ | ⟨-, rfl⟩⟩ | ⟨a, x, hi, h1⟩ | ⟨v, x, w, i, hi, hr, hd, h1⟩ |
    ⟨-, -, ⟨-, rfl⟩ | ⟨-, h1⟩⟩ | ⟨x, hi, rfl⟩ | ⟨x, hi, h1⟩ := step_next h
  · exact .core s.inbox t (coreMove_moves h1)
  · exact .core _ t (coreMove_moves h1)
  · exact .core s.inbox t (coreMove_moves h1)
  · exact .pop _
  · exact .host a x t hi (hostAccess_moves (hpop hi ▸ h1))
  · refine .phy v x w i t hi hr hd (execPhy_moves hd ?_)
    simpa [hpop hi, answerLines] using h1
  · exact .pop _
  · exact .core s.inbox t (coreMove_moves h1)
  · rw [hpop hi]
    exact .coreReset x hi
  · obtain ⟨hb, rfl⟩ := phyInit_next h1
    rw [hpop hi]
    exact .phyInit x hi hb

end Sys2Proof.Machine
end

