-- ==== Sys2Proof/Laws/Ahead.lean ====
section
/-! SUPPORT. Running a scan ahead: `valueToStore` finds a value only where the machine itself comes to store it, and
`stepsAhead` is steps enough to find it. -/

namespace Sys2Proof.Machine

variable {s t u : State}

/-! ## States that differ in what the host has written and read -/

/-- `s` with what the host writes and reads replaced. -/
def withHost (s : State) (a : Operands) (o : Memory) (q : List Race) (p : List Nat) (x d : Nat) : State :=
  { s with args := a, out := o, outRaces := q, outPinned := p, hostData := x, draws := d }

/-- Two states that differ only in what the host has written and read: a running scan does the same in both. -/
def ScanAlike (s u : State) : Prop :=
  ∃ a o q p x d, u = withHost s a o q p x d ∧ ∀ k, (raceAt k q).map Race.scan = (raceAt k s.outRaces).map Race.scan

theorem ScanAlike.refl (s : State) : ScanAlike s s := ⟨_, _, _, _, _, _, rfl, fun _ => rfl⟩

theorem ScanAlike.phase (h : ScanAlike s u) : u.phase = s.phase := by
  obtain ⟨_, _, _, _, _, _, rfl, -⟩ := h
  rfl

theorem ScanAlike.inbox (h : ScanAlike s u) : u.inbox = s.inbox := by
  obtain ⟨_, _, _, _, _, _, rfl, -⟩ := h
  rfl

theorem ScanAlike.busy (h : ScanAlike s u) : u.busy = s.busy := by
  obtain ⟨_, _, _, _, _, _, rfl, -⟩ := h
  rfl

theorem ScanAlike.phy (h : ScanAlike s u) : u.phy = s.phy := by
  obtain ⟨_, _, _, _, _, _, rfl, -⟩ := h
  rfl

theorem ScanAlike.races (h : ScanAlike s u) (k : Nat) :
    (raceAt k u.outRaces).map Race.scan = (raceAt k s.outRaces).map Race.scan := by
  obtain ⟨_, _, _, _, _, _, rfl, hq⟩ := h
  exact hq k

theorem ScanAlike.pop (h : ScanAlike s u) : ScanAlike (popEvent s) (popEvent u) := by
  obtain ⟨_, _, _, _, _, _, rfl, hq⟩ := h
  exact ⟨_, _, _, _, _, _, rfl, hq⟩

/-- A write of an entry changes no scan's side. -/
theorem raceAt_hostWrote_scan (j k : Nat) (v : RomCode) (l : List Race) :
    (raceAt j (hostWrote k v l)).map Race.scan = (raceAt j l).map Race.scan := by
  by_cases hj : j = k
  · subst hj
    cases hr : raceAt j l with
    | none =>
      have h : raceAt j (hostWrote j v l) = none := by
        rw [raceAt_eq_none_iff] at hr ⊢
        simpa using hr
      rw [h]
    | some r => rw [raceAt_hostWrote v hr]; rfl
  · rw [raceAt_hostWrote_other hj]

/-- Only `S_STORE` makes a race. -/
theorem CoreMoves.outRaces (h : CoreMoves s t) (hp : s.phase ≠ .sStore) : t.outRaces = s.outRaces := by
  cases h <;> first | rfl | exact absurd (by assumption) hp

/-- A phase outside `S_STORE` does not see what the host writes and reads. -/
theorem phaseStep_withHost (hp : s.phase ≠ .sStore) (hs : phaseStep s = .next t) (a : Operands) (o : Memory) (q : List Race)
    (p : List Nat) (x d : Nat) : phaseStep (withHost s a o q p x d) = .next (withHost t a o q p x d) := by
  unfold phaseStep at hs
  cases hph : s.phase <;> simp only [hph] at hs
  case sStore => exact absurd hph hp
  all_goals
    cases hs
    simp only [phaseStep, withHost, hph, sCheck, sBegin, sDecide, kRun, complete, takeArm, candidateBit]
  case sCheck => rfl
  case sDecide =>
    split
    · split <;> rfl
    · rfl
    · rfl

/-- A completed transaction does not either. -/
theorem phaseDone_withHost (v : Byte) (s : State) (a : Operands) (o : Memory) (q : List Race) (p : List Nat) (x d : Nat) :
    phaseDone v (takeAck (withHost s a o q p x d)) = withHost (phaseDone v (takeAck s)) a o q p x d := by
  cases hph : s.phase <;>
    simp only [phaseDone, withHost, takeAck, hph, xResetDone, xSendDone, xReadDone, sEnterDone, sResetDone, sCmdDone, sReadADone,
      sReadBDone, sWriteDone, sExitDone, complete, noDeviceExit] <;>
    (try split) <;> rfl

/-- A store is a store in alike states, of the same value to the same entry. -/
theorem sStore_alike (h : ScanAlike s u) (hs : sStore s = .next t) : ∃ t', sStore u = .next t' ∧ ScanAlike t t' := by
  obtain ⟨a, o, q, p, x, d, rfl, hq⟩ := h
  cases hs
  refine ⟨_, rfl, ?_⟩
  rw [show storesCandidate (withHost s a o q p x d) = storesCandidate s from rfl]
  cases storesCandidate s
  · exact ⟨_, _, _, _, _, _, rfl, hq⟩
  · refine ⟨_, _, _, _, _, _, rfl, fun k => ?_⟩
    simp only [countPass, storeCandidate, withHost, raceAt, if_true]
    split
    · rfl
    · exact hq k

/-- The core moves alike in alike states. -/
theorem coreMove_alike (h : ScanAlike s u) (hs : coreMove s = .next t) : ∃ t', coreMove u = .next t' ∧ ScanAlike t t' := by
  have hm := coreMove_moves hs
  obtain ⟨hr, rfl⟩ | ⟨hr, hp, hs⟩ | ⟨hr, i, hp, ha⟩ := coreMove_next hs
  · exact ⟨u, by simp [coreMove, h.phy, hr], h⟩
  · have hc : coreMove u = phaseStep u := by
      obtain ⟨a, o, q, p, x, d, rfl, -⟩ := h
      have hp' : phaseRequest (withHost s a o q p x d) = none := hp
      unfold coreMove
      rw [hp']
      simp [withHost, hr]
    rw [hc]
    by_cases hst : s.phase = .sStore
    · simp only [phaseStep, hst] at hs
      simp only [phaseStep, h.phase, hst]
      exact sStore_alike h hs
    · obtain ⟨a, o, q, p, x, d, rfl, hq⟩ := h
      exact ⟨_, phaseStep_withHost hst hs a o q p x d, _, _, _, _, _, _, rfl, hm.outRaces hst ▸ hq⟩
  · have hst : s.phase ≠ .sStore := fun hst => by simp [phaseRequest, hst] at hp
    obtain ⟨a, o, q, p, x, d, rfl, hq⟩ := h
    have hp' : phaseRequest (withHost s a o q p x d) = some i := hp
    unfold coreMove
    rw [hp', if_neg (by simp [withHost, hr])]
    have hq' := hm.outRaces hst ▸ hq
    obtain ⟨ha, rfl⟩ | ⟨v, ha, rfl⟩ := ha
    · obtain ⟨w, hw⟩ := phaseRequest_word hp
      simp only [withHost, ha, issue_of_encode hw]
      exact ⟨_, rfl, _, _, _, _, _, _, rfl, hq⟩
    · simp only [show (withHost s a o q p x d).phy.ack = some v from ha]
      exact ⟨_, rfl, _, _, _, _, _, _, phaseDone_withHost v s a o q p x d, hq'⟩

/-- The PHY completes a transaction alike in alike states. -/
theorem runPhyWord_alike {w : PhyWord} {v : Byte} (h : ScanAlike s u) (hs : runPhyWord w (answerLines v s) = .next t) :
    ∃ t', runPhyWord w (answerLines v u) = .next t' ∧ ScanAlike t t' := by
  obtain ⟨a, o, q, p, x, d, rfl, hq⟩ := h
  unfold runPhyWord at hs ⊢
  cases hd : decode (.phy w) with
  | error e => rw [hd] at hs; cases hs
  | ok i =>
    rw [hd] at hs
    rcases decodePhy_phy hd with rfl | rfl | rfl | ⟨b, rfl⟩ | rfl | ⟨b, rfl⟩ | rfl <;>
      obtain ⟨h1, h2, rfl⟩ := transact_next hs <;>
      exact ⟨_, (if_neg (not_not.mpr h1)).trans (if_pos h2), _, _, _, _, _, _, rfl, hq⟩

/-- The PHY's completion leaves the outside's list. -/
theorem runPhyWord_inbox {w : PhyWord} (h : runPhyWord w s = .next t) : t.inbox = s.inbox := by
  unfold runPhyWord at h
  split at h
  · next i hd => cases execPhy_moves hd h <;> rfl
  · cases h

/-- A host access ahead changes nothing. -/
theorem accessAhead_next {a : HostAccess} (hp : s.phase ≠ .idle) (hs : accessAhead a s = .next t) : t = s := by
  cases a with
  | write r v =>
    cases r <;> simp only [accessAhead] at hs <;> try exact (by simpa using hs.symm)
    unfold writeCmd at hs
    split at hs
    · next i hd =>
      rcases decodeCmdWrite_host hd with rfl | rfl | rfl | rfl | rfl <;>
        obtain ⟨-, rfl⟩ | ⟨hi, -⟩ := startCommand_next hs <;>
        first
        | rfl
        | exact absurd hi hp
    · cases hs
  | _ => simpa [accessAhead] using hs.symm

/-- A host access during a scan answers in any state alike to one in which it answers ahead, and changes what the host writes and
reads only. -/
theorem hostAccess_alike {a : HostAccess} (h : ScanAlike s u) (hp : s.phase ≠ .idle) (hs : accessAhead a s = .next t) :
    ∃ t', hostAccess a u = .next t' ∧ ScanAlike t t' := by
  have hpu : u.phase ≠ .idle := h.phase ▸ hp
  obtain rfl := accessAhead_next hp hs
  have hans : ∃ t', hostAccess a u = .next t' := by
    cases a with
    | write r v =>
      cases r <;> try exact ⟨_, rfl⟩
      simp only [accessAhead, writeCmd] at hs
      simp only [hostAccess, writeCmd]
      split at hs
      · next i hd =>
        rcases decodeCmdWrite_host hd with rfl | rfl | rfl | rfl | rfl <;> exact ⟨_, if_neg hpu⟩
      · cases hs
    | _ => exact ⟨_, rfl⟩
  obtain ⟨t', ht⟩ := hans
  refine ⟨t', ht, ?_⟩
  obtain ⟨b, o, q, p, x, d, rfl, hq⟩ := h
  cases hostAccess_moves ht with
  | turnedAway => exact ⟨_, _, _, _, _, _, rfl, hq⟩
  | accepted op first latch hi => exact absurd hi hpu
  | register => exact ⟨_, _, _, _, _, _, rfl, hq⟩
  | read => exact ⟨_, _, _, _, _, _, rfl, hq⟩
  | entry k v w p' q' d' ha hw hq' =>
    refine ⟨_, _, _, _, _, _, rfl, fun j => ?_⟩
    obtain rfl | rfl := hq'
    · exact hq j
    · rw [raceAt_hostWrote_scan]
      exact hq j

/-- While the scan goes on, the machine does step by step what running ahead does. -/
theorem advanceWith_alike (h : ScanAlike s u) (hp : s.phase ≠ .idle) (ht : t.phase ≠ .idle)
    (hs : advanceWith accessAhead s = .next t) : ∃ t', step u = .next t' ∧ ScanAlike t t' := by
  have hpu : u.phase ≠ .idle := h.phase ▸ hp
  unfold step advance
  unfold advanceWith at hs ⊢
  rw [h.inbox]
  cases hin : s.inbox with
  | nil => simp only [hin] at hs ⊢; exact coreMove_alike h hs
  | cons e rest =>
    cases e with
    | wait => simp only [hin] at hs ⊢; exact coreMove_alike h.pop hs
    | awaitIdle =>
      simp only [hin, h.busy] at hs ⊢
      split at hs
      · next hb => rw [if_pos hb]; exact coreMove_alike h hs
      · next hb =>
        rw [if_neg hb]
        cases hs
        exact ⟨_, rfl, h.pop⟩
    | host a => simp only [hin] at hs ⊢; exact hostAccess_alike h.pop hp hs
    | phyDone v =>
      simp only [hin, h.phy] at hs ⊢
      cases hr : s.phy.req with
      | some w => simp only [hr] at hs ⊢; exact runPhyWord_alike h.pop hs
      | none =>
        simp only [hr, awaitRequest, if_neg hp, if_neg hpu] at hs ⊢
        exact coreMove_alike h hs
    | phyHang =>
      simp only [hin, h.phy] at hs ⊢
      cases hr : s.phy.req with
      | some w => simp [hr] at hs
      | none =>
        simp only [hr, awaitRequest, if_neg hp, if_neg hpu] at hs ⊢
        exact coreMove_alike h hs
    | coreReset =>
      simp only [hin] at hs
      cases hs
      exact absurd rfl ht
    | phyInit =>
      simp only [hin] at hs ⊢
      obtain ⟨hb, rfl⟩ := phyInit_next hs
      obtain ⟨a, o, q, p, x, d, rfl, hq⟩ := h
      exact ⟨_, if_neg (by simpa [popEvent, withHost] using hb), _, _, _, _, _, _, rfl, hq⟩

/-- A value found ahead is one that the machine comes to store in the entry, in the same scan. -/
theorem valueToStore_sound {k : Nat} {v : RomCode} : ∀ {n : Nat} {s u : State}, ScanAlike s u → s.phase.isScan = true →
    valueToStore k n s = some v →
    ∃ m w r, runSteps m u = .next w ∧ raceAt k w.outRaces = some r ∧ r.scan = v ∧
      ∀ j ≤ m, ∃ x, runSteps j u = .next x ∧ x.phase.isScan = true
  | 0, s, u, _, _, hv => by simp [valueToStore] at hv
  | n + 1, s, u, h, hs, hv => by
    unfold valueToStore at hv
    split at hv
    · next t ht =>
      split at hv
      · next hsc =>
        obtain ⟨t', hu, h'⟩ := advanceWith_alike h (fun hi => by simp [hi, Phase.isScan] at hs)
          (fun hi => by simp [hi, Phase.isScan] at hsc) ht
        have hscan : ∀ m, (∀ j ≤ m, ∃ x, runSteps j t' = .next x ∧ x.phase.isScan = true) →
            ∀ j ≤ m + 1, ∃ x, runSteps j u = .next x ∧ x.phase.isScan = true := by
          intro m hm j hj
          cases j with
          | zero => exact ⟨u, rfl, h.phase ▸ hs⟩
          | succ j =>
            obtain ⟨x, hx, hxs⟩ := hm j (by omega)
            exact ⟨x, (runSteps_of_step hu).trans hx, hxs⟩
        split at hv
        · next r hr =>
          obtain ⟨r', hr', he⟩ := Option.map_eq_some_iff.mp ((h'.races k).trans (by rw [hr]; rfl))
          refine ⟨1, t', r', runSteps_of_step hu, hr', he.trans (by simpa using hv), hscan 0 fun j hj => ?_⟩
          obtain rfl : j = 0 := by omega
          exact ⟨t', rfl, h'.phase ▸ hsc⟩
        · obtain ⟨m, w, r, hw, hr, he, hm⟩ := valueToStore_sound h' hsc hv
          exact ⟨m + 1, w, r, (runSteps_of_step hu).trans hw, hr, he, hscan m hm⟩
      · simp at hv
    · simp at hv
    · simp at hv

/-! ## Steps enough -/

/-- How many moves a scan can make before it waits for the outside. -/
def movesLeft (s : State) : Nat :=
  if s.phy.req.isSome then 0
  else
    match s.phase, s.phy.ack.isSome with
    | .sEnter, true | .sCheck, true => 4
    | .sReset, true | .sCmd, true | .sReadA, true => 2
    | .sReadB, true | .sBegin, true => 3
    | .sWrite, true | .sStore, true => 5
    | .sDecide, true => 6
    | .sCheck, false => 3
    | .sBegin, false | .sDecide, false => 2
    | .sStore, false => 4
    | .idle, _ | .xReset, _ | .xSend, _ | .xRead, _ | .kRun, _ => 0
    | .sExit, _ | .sEnter, false | .sReset, false | .sCmd, false | .sReadA, false | .sReadB, false | .sWrite, false => 1

theorem movesLeft_le (s : State) : movesLeft s ≤ 6 := by
  unfold movesLeft
  split
  · omega
  · split <;> omega

theorem CoreMoves.inbox (h : CoreMoves s t) : t.inbox = s.inbox := by cases h <;> rfl

/-- A move within a scan leaves fewer to make, or the scan waits. -/
theorem CoreMoves.movesLeft (h : CoreMoves s t) (hs : s.phase.isScan = true) (ht : t.phase.isScan = true) :
    t = s ∨ Machine.movesLeft t < Machine.movesLeft s := by
  cases h with
  | stay => exact .inl rfl
  | issue i w hr ha hp =>
    right
    cases hph : s.phase <;> simp_all [Machine.movesLeft, phaseRequest, Phase.isScan]
  | _ =>
    right
    cases hk : s.phy.ack <;> simp_all [Machine.movesLeft, Phase.isScan]

/-- A step ahead within a scan comes nearer to the point where the scan waits for ever, or is there. -/
theorem advanceWith_movesLeft (hs : s.phase.isScan = true) (ht : t.phase.isScan = true)
    (h : advanceWith accessAhead s = .next t) :
    t = s ∨ 8 * t.inbox.length + movesLeft t < 8 * s.inbox.length + movesLeft s := by
  have hcore : ∀ {r : State}, r.phase.isScan = true → coreMove r = .next t →
      t.inbox = r.inbox ∧ (t = r ∨ movesLeft t < movesLeft r) := fun hr hm =>
    ⟨(coreMove_moves hm).inbox, (coreMove_moves hm).movesLeft hr ht⟩
  have hpop : ∀ {e : Event} {rest : List Event}, s.inbox = e :: rest → t.inbox = rest →
      8 * t.inbox.length + movesLeft t < 8 * s.inbox.length + movesLeft s := by
    intro e rest hin hti
    have := movesLeft_le t
    rw [hin, hti, List.length_cons]
    omega
  have hstay : coreMove s = .next t →
      t = s ∨ 8 * t.inbox.length + movesLeft t < 8 * s.inbox.length + movesLeft s := by
    intro hm
    obtain ⟨hi, rfl | hl⟩ := hcore hs hm
    · exact .inl rfl
    · right
      rw [hi]
      omega
  unfold advanceWith at h
  cases hin : s.inbox with
  | nil => simp only [hin] at h hstay ⊢; exact hstay h
  | cons e rest =>
    have hwait : awaitRequest s = .next t →
        t = s ∨ 8 * t.inbox.length + movesLeft t < 8 * s.inbox.length + movesLeft s := by
      intro hm
      unfold awaitRequest at hm
      split at hm
      · cases hm
        exact .inr (hpop hin (by simp [popEvent, hin]))
      · exact hstay hm
    rw [← hin]
    cases e with
    | wait =>
      simp only [hin] at h
      exact .inr (hpop hin (by rw [(hcore (r := popEvent s) hs h).1]; simp [popEvent, hin]))
    | awaitIdle =>
      simp only [hin] at h
      split at h
      · exact hstay h
      · cases h
        exact .inr (hpop hin (by simp [popEvent, hin]))
    | host a =>
      simp only [hin] at h
      have hp : s.phase ≠ .idle := fun hi => by simp [hi, Phase.isScan] at hs
      obtain rfl := accessAhead_next (s := popEvent s) hp h
      exact .inr (hpop hin (by simp [popEvent, hin]))
    | phyDone v =>
      simp only [hin] at h
      split at h
      · exact .inr (hpop hin (by rw [runPhyWord_inbox h]; simp [answerLines, popEvent, hin]))
      · exact hwait h
    | phyHang =>
      simp only [hin] at h
      split at h
      · cases h
      · exact hwait h
    | coreReset =>
      simp only [hin] at h
      cases h
      exact absurd ht (by simp [coreReset, Phase.isScan])
    | phyInit =>
      simp only [hin] at h
      obtain ⟨-, rfl⟩ := phyInit_next h
      exact .inr (hpop hin (by simp [popEvent, hin]))

/-- A scan that waits for ever stores nothing more. -/
theorem valueToStore_stay {k : Nat} (h : advanceWith accessAhead s = .next s) (hr : raceAt k s.outRaces = none) :
    ∀ n : Nat, valueToStore k n s = none
  | 0 => rfl
  | n + 1 => by
    simp only [valueToStore, h, hr]
    split
    · exact valueToStore_stay h hr n
    · rfl

/-- One step more finds nothing else, once the steps are enough. -/
theorem valueToStore_succ {k : Nat} : ∀ {n : Nat} {s : State}, s.phase.isScan = true → raceAt k s.outRaces = none →
    8 * s.inbox.length + movesLeft s ≤ n → valueToStore k (n + 1) s = valueToStore k n s
  | n, s, hs, hr, hn => by
    cases ha : advanceWith accessAhead s with
    | fault f => cases n <;> simp [valueToStore, ha]
    | refused r => cases n <;> simp [valueToStore, ha]
    | next t =>
      cases ht : t.phase.isScan with
      | false => cases n <;> simp [valueToStore, ha, ht]
      | true =>
        obtain rfl | hl := advanceWith_movesLeft hs ht ha
        · rw [valueToStore_stay ha hr, valueToStore_stay ha hr]
        · cases n with
          | zero => omega
          | succ n =>
            simp only [valueToStore, ha, ht, if_true]
            cases hrt : raceAt k t.outRaces with
            | some r => rfl
            | none => exact valueToStore_succ ht hrt (by omega)

/-- `stepsAhead` is steps enough: more find nothing else. -/
theorem valueToStore_stepsAhead {k : Nat} (hs : s.phase.isScan = true) (hr : raceAt k s.outRaces = none) (n : Nat) :
    valueToStore k (stepsAhead s + n) s = valueToStore k (stepsAhead s) s := by
  induction n with
  | zero => rfl
  | succ n ih =>
    have := movesLeft_le s
    rw [← ih, ← Nat.add_assoc, valueToStore_succ hs hr (by unfold stepsAhead; omega)]

end Sys2Proof.Machine
end

