-- ==== Sys2Proof/Laws/PerInstr.lean ====
section
/-! SUPPORT. Statements about every instruction as syntax, one lemma per constructor.

`TableWord`: an instruction is well-formed and its word is one of its row of spec/opcode_table.json: it has no bit above the
row's width, and under the row's mask it is the row's match. -/

namespace Sys2Proof.Laws.TableWord

open Sys2Proof Sys2Proof.Machine

/-- A row of spec/opcode_table.json: how many bits its word has, which are fixed, and what they are. -/
structure Row where
  width : Nat
  mask : Nat
  fixed : Nat

/-- The row of each instruction, as the table gives it. -/
def row : Instr → Row
  | .reset => ⟨3, 0x7, 0x1⟩
  | .sendbyte => ⟨3, 0x7, 0x2⟩
  | .readbyte => ⟨3, 0x7, 0x3⟩
  | .scan => ⟨3, 0x7, 0x4⟩
  | .checkcrc => ⟨3, 0x7, 0x5⟩
  | .phyResetAndSense => ⟨11, 0x7FF, 0x000⟩
  | .phySetModeBit => ⟨11, 0x7FF, 0x101⟩
  | .phySetModeByte => ⟨11, 0x7FF, 0x108⟩
  | .phySendBit _ => ⟨11, 0x7FE, 0x200⟩
  | .phyReadBit => ⟨11, 0x7FF, 0x300⟩
  | .phySendByte _ => ⟨11, 0x700, 0x400⟩
  | .phyReadByte => ⟨11, 0x7FF, 0x500⟩

/-- The instruction is well-formed and its word is one of its table row. -/
def Statement (i : Instr) : Prop :=
  i.wf = true ∧ (encode i).bits < 2 ^ (row i).width ∧ (encode i).bits &&& (row i).mask = (row i).fixed

theorem reset : Statement .reset := ⟨rfl, by decide, rfl⟩

theorem sendbyte : Statement .sendbyte := ⟨rfl, by decide, rfl⟩

theorem readbyte : Statement .readbyte := ⟨rfl, by decide, rfl⟩

theorem scan : Statement .scan := ⟨rfl, by decide, rfl⟩

theorem checkcrc : Statement .checkcrc := ⟨rfl, by decide, rfl⟩

theorem phyResetAndSense : Statement .phyResetAndSense := ⟨rfl, by decide, rfl⟩

theorem phySetModeBit : Statement .phySetModeBit := ⟨rfl, by decide, rfl⟩

theorem phySetModeByte : Statement .phySetModeByte := ⟨rfl, by decide, rfl⟩

theorem phySendBit (b : BitVec 1) : Statement (.phySendBit b) := by
  obtain rfl | rfl : b = 0 ∨ b = 1 := by revert b; decide
  all_goals exact ⟨rfl, by decide, rfl⟩

theorem phyReadBit : Statement .phyReadBit := ⟨rfl, by decide, rfl⟩

theorem phySendByte (v : Byte) : Statement (.phySendByte v) := by
  refine ⟨rfl, (phyWord 0b100#3 v).isLt, ?_⟩
  have h : phyWord 0b100#3 v &&& 0x700#11 = 0x400#11 := by
    apply BitVec.eq_of_getLsbD_eq
    intro i hi
    rw [BitVec.getLsbD_and]
    unfold phyWord
    rw [BitVec.getLsbD_append]
    interval_cases i <;> simp
  have hn := congrArg BitVec.toNat h
  rw [BitVec.toNat_and] at hn
  exact hn

theorem phyReadByte : Statement .phyReadByte := ⟨rfl, by decide, rfl⟩

end Sys2Proof.Laws.TableWord
end

