-- ==== Sys2Proof/Tests/Slice0.lean ====
section
/-! SUPPORT. Tests, with results taken from spec/ (its tables of encodings and spec/95_test_vectors.md) or worked out by hand from
its rules, and for every statement that has hypotheses a state that meets them. -/

namespace Sys2Proof.Tests

open Sys2Proof Sys2Proof.Machine Host

/-! ## Helpers -/

/-- The step answers a next state that satisfies `p`. -/
def goesTo (o : Outcome State Fault Refusal) (p : State → Bool) : Bool :=
  match o with
  | .next t => p t
  | .fault _ => false
  | .refused _ => false

/-- The step is refused for the reason `r`. -/
def refusesWith (o : Outcome State Fault Refusal) (r : Refusal) : Bool :=
  match o with
  | .next _ => false
  | .fault _ => false
  | .refused q => decide (q = r)

/-- A step that answers, given as a statement about the next state. -/
theorem exists_next {o : Outcome State Fault Refusal} (h : goesTo o (fun _ => true) = true) : ∃ t, o = .next t := by
  cases o with
  | next t => exact ⟨t, rfl⟩
  | fault f => simp [goesTo] at h
  | refused r => simp [goesTo] at h

/-- The core after reset, the outside about to do `es`. -/
def idleWith (es : List Event) : State := { State.reset with inbox := es }

/-- A command in phase `p`, in byte mode, its transaction not yet issued. -/
def runningIn (p : Phase) : State := { State.reset with busy := true, phase := p }

/-- A scan's pass in phase `p`, in bit mode. -/
def passIn (p : Phase) : State :=
  { State.reset with busy := true, phase := p, mode := .bit, phy := { PhyPort.ready with mode := .bit } }

/-- The phase's transaction has completed with `v`. -/
def answered (v : Byte) (s : State) : State := { s with phy := { s.phy with ack := some v } }

/-- The PHY in bit mode, as `STATUS.MODE` says. -/
def bitMode : State := passIn .sReadA

/-! ## Well-formedness: a term that each check refuses

Every term of `Instr` is well-formed, its operand types admitting exactly R68's operands. -/

theorem test_wf_refuses_wide_command_write : HostAccess.wf .default (.write .cmd 8) = false := by decide
theorem test_wf_refuses_wide_operand_write : HostAccess.wf .default (.write .argScmd 0x100) = false := by decide
theorem test_wf_refuses_wide_flag_write : HostAccess.wf .default (.write .argBufen 2) = false := by decide
theorem test_wf_admits_the_top_pattern : HostAccess.wf .default (.write .argScmd 0xFF) = true := by decide
theorem test_wf_refuses_count_width_two : Config.wf { Config.default with countW := 2 } = false := by decide
theorem test_wf_admits_the_default_widths : Config.wf .default = true := by decide
theorem test_wf_refuses_unsorted_buffer : Memory.wf [(1, 1), (0, 1)] = false := by decide
theorem test_wf_refuses_repeated_entry : Memory.wf [(1, 1), (1, 2)] = false := by decide
theorem test_wf_refuses_listed_blank : Memory.wf [(0, 0)] = false := by decide

/-! ## Decoding: words written out from R65 and R68 -/

theorem test_decode_reset : decodeTableWord 8 0b001 = some .reset := by decide
theorem test_decode_sendbyte : decodeTableWord 8 0b010 = some .sendbyte := by decide
theorem test_decode_readbyte : decodeTableWord 8 0b011 = some .readbyte := by decide
theorem test_decode_scan : decodeTableWord 8 0b100 = some .scan := by decide
theorem test_decode_checkcrc : decodeTableWord 8 0b101 = some .checkcrc := by decide
theorem test_decode_reset_and_sense : decodeTableWord 16 0b00000000000 = some .phyResetAndSense := by decide
theorem test_decode_set_mode_bit : decodeTableWord 16 0b00100000001 = some .phySetModeBit := by decide
theorem test_decode_set_mode_byte : decodeTableWord 16 0b00100001000 = some .phySetModeByte := by decide
theorem test_decode_send_bit_one : decodeTableWord 16 0b01000000001 = some (.phySendBit 1) := by decide
theorem test_decode_read_bit : decodeTableWord 16 0b01100000000 = some .phyReadBit := by decide
theorem test_decode_send_byte : decodeTableWord 16 0b10011001100 = some (.phySendByte 0xCC) := by decide
theorem test_decode_read_byte : decodeTableWord 16 0b10100000000 = some .phyReadByte := by decide

/-- R67's three reserved codes, and a word with a bit above `OP`. -/
theorem test_decode_refuses_reserved_op :
    decodeTableWord 8 0b000 = none ∧ decodeTableWord 8 0b110 = none ∧ decodeTableWord 8 0b111 = none ∧
    decodeTableWord 8 0b1001 = none := by decide

/-- R68: `PRIM` 110 and 111, an unused `DATA` bit that is not 0, and U5's `setMode` of another value. -/
theorem test_decode_refuses_bad_requests :
    decodeTableWord 16 0b11000000000 = none ∧ decodeTableWord 16 0b11111111111 = none ∧
    decodeTableWord 16 0b01000000010 = none ∧ decodeTableWord 16 0b00100000010 = none ∧
    decodeTableWord 16 0b100000000000 = none := by decide

/-! ## Host commands, one step each -/

/-- RESET is accepted in `IDLE` (R23, R89). -/
theorem test_reset_accepted :
    goesTo (step (State.reset.withFetchWord 8 0b001)) (fun t => decide (t.phase = .xReset) && t.busy) = true := by decide

/-- T1: the PHY answered 1, so `RES_PRES = 1` and the core is idle. -/
theorem test_reset_delivers_presence :
    goesTo (step (answered 1 (runningIn .xReset))) (fun t => t.res.pres && !t.busy && decide (t.phase = .idle)) = true := by
  decide

/-- SENDBYTE latches `ARG_TXB` (R90). -/
theorem test_sendbyte_latches :
    goesTo (exec .sendbyte { State.reset with args := { Operands.zero with txb := 0xCC } })
      (fun t => decide (t.lat.txb = 0xCC) && decide (t.phase = .xSend)) = true := by decide

/-- T3: `WB CC` is the request of SENDBYTE 0xCC. -/
theorem test_sendbyte_issues :
    goesTo (step { runningIn .xSend with lat := { Latched.zero with txb := 0xCC } })
      (fun t => decide (t.phy.req = some 0b10011001100)) = true := by decide

/-- READBYTE latches nothing (R91). -/
theorem test_readbyte_accepted :
    goesTo (exec .readbyte State.reset) (fun t => decide (t.phase = .xRead) && decide (t.lat = Latched.zero)) = true := by
  decide

/-- T5: the PHY returns 0x28, so `RES_RXB = 0x28`. -/
theorem test_readbyte_delivers :
    goesTo (step (answered 0x28 (runningIn .xRead))) (fun t => decide (t.res.rxb = 0x28) && !t.busy) = true := by decide

/-- S7: the pair (1,1) at index 1 ends the scan with count -2 (R122). -/
theorem test_scan_inconsistency :
    goesTo (step { passIn .sDecide with cur := { Cursor.zero with a := true, b := true, idx := 1, count := 1 } })
      (fun t => decide (t.cur.count = -2) && decide (t.phase = .sExit)) = true := by decide

/-- S3, pass 3, index 8: `8 < 9` and `CAND[8] = 1`, so the 1-branch is taken again and `NBP`, `FIN` stay (R121). -/
theorem test_scan_replay :
    goesTo (step { passIn .sDecide with
        cur := { Cursor.zero with idx := 8, bp := some 9, nbp := some 9, fin := true, cand := 0x2900000000000128#64 } })
      (fun t => t.cur.dir && t.cur.fin && decide (t.cur.nbp = some 9) && decide (t.phase = .sWrite)) = true := by decide

/-- K5: CHECKCRC of a valid code gives 1. -/
theorem test_checkcrc_valid :
    goesTo (step { runningIn .kRun with lat := { Latched.zero with rom := 0xA200000001B81C02#64 } })
      (fun t => t.res.crcok && !t.busy) = true := by decide +kernel

/-- K6: one payload bit flipped gives 0; the computed CRC is 0x9F. -/
theorem test_checkcrc_corrupt :
    goesTo (step { runningIn .kRun with lat := { Latched.zero with rom := 0xA200000001B81C03#64 } })
      (fun t => !t.res.crcok && decide (t.crc.crc = 0x9F)) = true := by decide +kernel

/-! ## PHY requests, one step each -/

/-- `RS1`: the presence bit is passed on (R81, R93). -/
theorem test_phy_reset_and_sense :
    goesTo (exec .phyResetAndSense { State.reset with phy := { PhyPort.ready with din := 1 } })
      (fun t => decide (t.phy.ack = some 1) && decide (t.trace = [.phy .phyResetAndSense 1])) = true := by decide

/-- `M1` sets `STATUS.MODE` and the PHY (R86). -/
theorem test_phy_set_mode_bit :
    goesTo (exec .phySetModeBit State.reset)
      (fun t => decide (t.mode = .bit) && decide (t.phy.mode = .bit) && decide (statusWord t = 0b10)) = true := by decide

/-- `M8` restores byte mode (R86). -/
theorem test_phy_set_mode_byte :
    goesTo (exec .phySetModeByte bitMode) (fun t => decide (t.mode = .byte) && decide (t.phy.mode = .byte)) = true := by decide

/-- `W1` returns nothing and leaves the mode alone (R82). -/
theorem test_phy_send_bit :
    goesTo (exec (.phySendBit 1) bitMode) (fun t => decide (t.mode = .bit) && decide (t.phy.req = none)) = true := by decide

/-- A bit transaction in byte mode is refused (R87; U6). -/
theorem test_phy_send_bit_in_byte_mode : refusesWith (exec (.phySendBit 1) State.reset) .wrongTransportMode = true := by decide

/-- `r1`: the sampled bit is passed on (R83, R93). -/
theorem test_phy_read_bit :
    goesTo (exec .phyReadBit { bitMode with phy := { bitMode.phy with din := 1 } })
      (fun t => decide (t.phy.ack = some 1)) = true := by decide

/-- T11: `R` is issued, and is on record before any completion (R89, R9(a)). -/
theorem test_reset_issue_on_record :
    goesTo (step (runningIn .xReset))
      (fun t => decide (t.trace = [.issue .phyResetAndSense]) && decide (t.phy.req = some 0b00000000000#11)) = true := by decide

/-- The completion of `WB CC` is on record with its byte (R84). -/
theorem test_phy_send_byte :
    goesTo (exec (.phySendByte 0xCC) State.reset) (fun t => decide (t.trace = [.phy (.phySendByte 0xCC) 0])) = true := by decide

/-- A byte transaction in bit mode is refused (R87; U6). -/
theorem test_phy_send_byte_in_bit_mode : refusesWith (exec (.phySendByte 0) bitMode) .wrongTransportMode = true := by decide

/-- `RB 28` (R85). -/
theorem test_phy_read_byte :
    goesTo (exec .phyReadByte { State.reset with phy := { PhyPort.ready with din := 0x28 } })
      (fun t => decide (t.phy.ack = some 0x28)) = true := by decide

/-! ## Functions of the spec -/

/-- K3, with its `pack`ed code of K5 (R61, R101). -/
theorem test_crc_of_a_known_code :
    crc8 (payload 0xA200000001B81C02#64) = 0xA2 ∧ pack 0x02 0x00000001B81C 0xA2 = 0xA200000001B81C02#64 := by decide +kernel

/-- T8: `0xEC` goes out as 0 0 1 1 0 1 1 1 (R62). -/
theorem test_search_command_bits :
    (List.range 8).map (0xEC#8).getLsbD = [false, false, true, true, false, true, true, true] := by decide

/-- S4, pass 4, index 0: `0 < 9` and `CAND[0] = 0`, the 0-branch (R121). -/
theorem test_zero_branch_below_the_branch_point : branchArm 0 (some 9) false = .zeroBranch := by decide

/-- R32's numbers name all thirteen registers. -/
theorem test_register_numbers : (List.range 13).map HostReg.ofNumber =
    [some .cmd, some .status, some .argMaxdev, some .argScmd, some .argCap, some .argBufen, some .argRom, some .argTxb,
     some .resCount, some .resErr, some .resPres, some .resRxb, some .resCrcok] := by decide

/-! ## Witnesses: a state that meets every hypothesis of a statement -/

theorem witness_DecodeOfEncodeIsTheInstruction : (Instr.phySendByte 0xFF).wf = true := rfl

theorem witness_EncodeOfDecodeIsTheWord :
    decode (.phy 0b10011111111#11) = .ok (.phySendByte 0xFF) ∧ decode (.host 0b101#3) = .ok .checkcrc := ⟨rfl, rfl⟩

/-- The boundaries of `v = 0 ∨ 6 ≤ v`, and the first value that does not fit the register. -/
theorem witness_ReservedCodesSelectNothing : ∀ v ∈ [0, 6, 7, 8],
    (idleWith [.host (.write .cmd v)]).inbox = .host (.write .cmd v) :: [] ∧ (v = 0 ∨ 6 ≤ v) := by decide

theorem witness_StepRunsTheDecodedInstruction :
    ((idleWith [.host (.write .cmd 5)]).inbox = .host (.write .cmd 5) :: [] ∧ decodeCmdWrite 5 = .ok .checkcrc) ∧
    (∃ s : State, s.inbox = .phyDone 1 :: [] ∧ s.phy.req = some 0b01100000000#11 ∧
      decode (.phy 0b01100000000#11) = .ok .phyReadBit) ∧
    (decodeTableWord 8 0b101 = some .checkcrc ∧ decodeTableWord 16 0b01000000001 = some (.phySendBit 1)) :=
  ⟨⟨rfl, rfl⟩,
    ⟨{ passIn .sReadA with inbox := [.phyDone 1], phy := { PhyPort.ready with req := some 0b01100000000#11, mode := .bit } },
      rfl, rfl, rfl⟩, by decide⟩

theorem witness_TransportCommandsAreAccepted : State.reset.phase = .idle ∧ State.reset.phyReady = true := by decide

theorem witness_ScanIsAccepted : State.reset.phase = .idle ∧ State.reset.phyReady = true := by decide

/-- An idle core whose PHY is not ready: CHECKCRC does not use it. -/
theorem witness_CheckcrcIsAccepted :
    ∃ s : State, s.phase = .idle ∧ s.phyReady = false :=
  ⟨{ State.reset with phy := { PhyPort.ready with mode := .bit } }, by decide⟩

theorem witness_CommandsAreTurnedAwayWhenBusyOrUnready :
    (runningIn .kRun).phase ≠ .idle ∧
    (∃ s : State, s.phase = .idle ∧ s.phy.mode = .bit) ∧ (∃ s : State, s.phase = .idle ∧ s.phy.req.isSome = true) ∧
    (∃ s : State, s.phase = .idle ∧ s.phy.ack.isSome = true) ∧ (∃ s : State, s.phase = .idle ∧ s.phy.orphan.isSome = true) :=
  ⟨by decide, ⟨{ State.reset with phy := { PhyPort.ready with mode := .bit } }, by decide⟩,
    ⟨{ State.reset with phy := { PhyPort.ready with req := some 0 } }, by decide⟩,
    ⟨{ State.reset with phy := { PhyPort.ready with ack := some 0 } }, by decide⟩,
    ⟨{ State.reset with phy := { PhyPort.ready with orphan := some 0 } }, by decide⟩⟩

theorem witness_BitAndByteRequestsComplete :
    (bitMode.mode = .bit ∧ bitMode.phy.mode = .bit) ∧ (State.reset.mode = .byte ∧ State.reset.phy.mode = .byte) := by decide

theorem witness_BusResetCompletes : State.reset.phy.mode = State.reset.mode ∧ bitMode.phy.mode = bitMode.mode := by decide

theorem witness_ModeSwitchCompletes : State.reset.phy.mode = State.reset.mode ∧ bitMode.phy.mode = bitMode.mode := by decide

theorem witness_RequestsInTheWrongModeAreRefused :
    (State.reset.phy.mode = State.reset.mode ∧ State.reset.mode = .byte) ∧ (bitMode.phy.mode = bitMode.mode ∧ bitMode.mode = .bit) ∧
    ({ bitMode with mode := .byte } : State).phy.mode ≠ ({ bitMode with mode := .byte } : State).mode := by decide

/-- Each of the five ways in which a step is the core's. -/
theorem witness_CoreTurn :
    CoreTurn (runningIn .xReset) (runningIn .xReset) ∧
    CoreTurn { runningIn .xReset with inbox := [.wait] } (runningIn .xReset) ∧
    (∀ e ∈ [Event.awaitIdle, .phyDone 0, .phyHang],
      CoreTurn { runningIn .xReset with inbox := [e] } { runningIn .xReset with inbox := [e] }) := by
  refine ⟨.inl ⟨rfl, rfl⟩, .inr (.inl ⟨[], rfl, rfl⟩), ?_⟩
  intro e he
  simp only [List.mem_cons, List.not_mem_nil, or_false] at he
  obtain rfl | rfl | rfl := he
  · exact .inr (.inr (.inl ⟨[], rfl, rfl, rfl⟩))
  · exact .inr (.inr (.inr (.inl ⟨0, [], rfl, rfl, by decide, rfl⟩)))
  · exact .inr (.inr (.inr (.inr ⟨[], rfl, rfl, by decide, rfl⟩)))

theorem witness_TransportPhasesIssueAndComplete : ∀ p ∈ [Phase.xReset, .xSend, .xRead],
    (CoreTurn (runningIn p) (runningIn p) ∧ (runningIn p).phase = p ∧ PortFree (runningIn p)) ∧
    (CoreTurn (answered 1 (runningIn p)) (answered 1 (runningIn p)) ∧ PortAnswered (answered 1 (runningIn p)) 1) :=
  fun _ _ => ⟨⟨.inl ⟨rfl, rfl⟩, rfl, rfl, rfl⟩, .inl ⟨rfl, rfl⟩, rfl, rfl⟩

theorem witness_TransportCommandsRunToCompletion : ∀ c ∈ [1, 2, 3],
    (idleWith [.host (.write .cmd c), .phyDone 1]).phase = .idle ∧
    (idleWith [.host (.write .cmd c), .phyDone 1]).mode = .byte ∧
    (idleWith [.host (.write .cmd c), .phyDone 1]).phyReady = true ∧
    (idleWith [.host (.write .cmd c), .phyDone 1]).inbox = [.host (.write .cmd c), .phyDone 1] := by decide

theorem witness_CheckcrcRunsToCompletion :
    (idleWith [.host (.write .cmd 5)]).phase = .idle ∧ (idleWith [.host (.write .cmd 5)]).phy.req = none ∧
    (idleWith [.host (.write .cmd 5)]).inbox = [.host (.write .cmd 5)] := by decide

/-- A scan that enters, with its transaction to issue and with it completed. -/
theorem witness_ScanEntryInitialisesTheCursor :
    (CoreTurn (runningIn .sEnter) (runningIn .sEnter) ∧ (runningIn .sEnter).phase = .sEnter ∧ PortFree (runningIn .sEnter)) ∧
    (CoreTurn (answered 0 (passIn .sEnter)) (answered 0 (passIn .sEnter)) ∧ PortAnswered (answered 0 (passIn .sEnter)) 0) :=
  ⟨⟨.inl ⟨rfl, rfl⟩, rfl, rfl, rfl⟩, .inl ⟨rfl, rfl⟩, rfl, rfl⟩

/-- A bound of 3 with 2 and with 3 found (S5), no bound, and `FIN = 1`. -/
theorem witness_LoopConditionChoosesPassOrExit :
    (∀ s : State, s.inbox = [] → CoreTurn s s) ∧
    (∀ nm ∈ [((2 : Int), 3), (7, 0)], ∃ s : State, s.inbox = [] ∧ s.phase = .sCheck ∧ s.phy.req = none ∧ s.cur.count = nm.1 ∧
      s.lat.maxdev = nm.2 ∧ s.cur.fin = false ∧ (s.lat.maxdev = 0 ∨ s.cur.count < (s.lat.maxdev : Int))) ∧
    (∀ nf ∈ [((3 : Int), false), (0, true)], ∃ s : State, s.inbox = [] ∧ s.phase = .sCheck ∧ s.phy.req = none ∧
      s.cur.count = nf.1 ∧ s.lat.maxdev = 3 ∧ s.cur.fin = nf.2 ∧
      ¬(s.cur.fin = false ∧ (s.lat.maxdev = 0 ∨ s.cur.count < (s.lat.maxdev : Int)))) := by
  refine ⟨fun s h => .inl ⟨h, rfl⟩, ?_, ?_⟩
  · intro nm h
    refine ⟨{ passIn .sCheck with cur := { Cursor.zero with count := nm.1 }, lat := { Latched.zero with maxdev := nm.2 } },
      rfl, rfl, rfl, rfl, rfl, rfl, ?_⟩
    revert nm
    decide
  · intro nf h
    refine ⟨{ passIn .sCheck with
      cur := { Cursor.zero with count := nf.1, fin := nf.2 }, lat := { Latched.zero with maxdev := 3 } },
      rfl, rfl, rfl, rfl, rfl, rfl, ?_⟩
    revert nf
    decide

theorem witness_PassBeginsAtTheRecordedBranch :
    CoreTurn (passIn .sBegin) (passIn .sBegin) ∧ (passIn .sBegin).phase = .sBegin ∧ (passIn .sBegin).phy.req = none :=
  ⟨.inl ⟨rfl, rfl⟩, rfl, rfl⟩

/-- Presence and no presence. -/
theorem witness_FailedBusResetEndsTheScan :
    (CoreTurn (passIn .sReset) (passIn .sReset) ∧ (passIn .sReset).phase = .sReset ∧ PortFree (passIn .sReset)) ∧
    (∀ v ∈ [(0 : Byte), 1], CoreTurn (answered v (passIn .sReset)) (answered v (passIn .sReset)) ∧
      PortAnswered (answered v (passIn .sReset)) v) ∧ (0 : Byte).getLsbD 0 = false ∧ (1 : Byte).getLsbD 0 = true :=
  ⟨⟨.inl ⟨rfl, rfl⟩, rfl, rfl, rfl⟩, fun _ _ => ⟨.inl ⟨rfl, rfl⟩, rfl, rfl⟩, by decide, by decide⟩

/-- The first, the last but one and the last command bit. -/
theorem witness_SearchCommandGoesOutLowBitFirst :
    (∀ c : Fin 8, ∃ s : State, CoreTurn s s ∧ s.phase = .sCmd ∧ PortFree s ∧ s.cur.cidx = c) ∧
    (∀ c : Fin 8, ∃ s : State, CoreTurn s s ∧ s.phase = .sCmd ∧ PortAnswered s 0 ∧ s.cur.cidx = c) :=
  ⟨fun c => ⟨{ passIn .sCmd with cur := { Cursor.zero with cidx := c } }, .inl ⟨rfl, rfl⟩, rfl, ⟨rfl, rfl⟩, rfl⟩,
    fun c => ⟨answered 0 { passIn .sCmd with cur := { Cursor.zero with cidx := c } }, .inl ⟨rfl, rfl⟩, rfl, ⟨rfl, rfl⟩, rfl⟩⟩

theorem witness_ResponseBitsAreReadInOrder : ∀ p ∈ [Phase.sReadA, .sReadB],
    (CoreTurn (passIn p) (passIn p) ∧ (passIn p).phase = p ∧ PortFree (passIn p)) ∧
    (CoreTurn (answered 1 (passIn p)) (answered 1 (passIn p)) ∧ PortAnswered (answered 1 (passIn p)) 1) :=
  fun _ _ => ⟨⟨.inl ⟨rfl, rfl⟩, rfl, rfl, rfl⟩, .inl ⟨rfl, rfl⟩, rfl, rfl⟩

/-- A pass that decides at index `i` on the pair `(a, b)`. -/
def deciding (i : Fin 64) (bp : Option (Fin 64)) (cand : RomCode) (a b : Bool) : State :=
  { passIn .sDecide with cur := { Cursor.zero with idx := i, bp := bp, cand := cand, a := a, b := b } }

/-- At the branch point (0 and 63); past it (`none`, and 63 past 62); before it on a 0 and on a 1. -/
theorem witness_CollisionTakesTheThreeWayDecision :
    (∀ i ∈ [(0 : Fin 64), 63], CoreTurn (deciding i (some i) 0 false false) (deciding i (some i) 0 false false) ∧
      (deciding i (some i) 0 false false).cur.bp = some i) ∧
    ((deciding 0 none (-1) false false).cur.bp ≠ some 0 ∧
      ∀ j, (deciding 0 none (-1) false false).cur.bp = some j → j < 0) ∧
    (∀ j, (deciding 63 (some 62) (-1) false false).cur.bp = some j → j < 63) ∧
    ((deciding 0 (some 63) 0 false false).cur.bp ≠ some 0 ∧ (deciding 0 (some 63) 0 false false).cur.cand.getLsbD 0 = false) ∧
    ((∃ j, (deciding 62 (some 63) (-1) false false).cur.bp = some j ∧ 62 < j) ∧
      (deciding 62 (some 63) (-1) false false).cur.cand.getLsbD 62 = true) := by
  refine ⟨fun i _ => ⟨.inl ⟨rfl, rfl⟩, rfl⟩, ⟨by decide, ?_⟩, ?_, by decide, ⟨63, rfl, by decide⟩, by decide⟩
  · intro j h
    cases h
  · intro j h
    cases h
    decide

theorem witness_InconsistencyRaisesTheError :
    CoreTurn (deciding 1 none 0 true true) (deciding 1 none 0 true true) ∧ (deciding 1 none 0 true true).phase = .sDecide ∧
    (deciding 1 none 0 true true).phy.req = none := ⟨.inl ⟨rfl, rfl⟩, rfl, rfl⟩

/-- Both pairs that agree. -/
theorem witness_AgreementFollowsTheTrueBit : ∀ a : Bool,
    CoreTurn (deciding 1 none 0 a (!a)) (deciding 1 none 0 a (!a)) ∧ (deciding 1 none 0 a (!a)).phase = .sDecide ∧
    (deciding 1 none 0 a (!a)).phy.req = none ∧ (deciding 1 none 0 a (!a)).cur.a ≠ (deciding 1 none 0 a (!a)).cur.b := by
  intro a
  exact ⟨.inl ⟨rfl, rfl⟩, rfl, rfl, by cases a <;> decide⟩

/-- Every index, the last and the others. -/
theorem witness_ChosenBitIsSentAndRecorded : ∀ i : Fin 64,
    (∃ s : State, CoreTurn s s ∧ s.phase = .sWrite ∧ PortFree s ∧ s.cur.idx = i) ∧
    (∃ s : State, CoreTurn s s ∧ s.phase = .sWrite ∧ PortAnswered s 0 ∧ s.cur.idx = i) :=
  fun i => ⟨⟨{ passIn .sWrite with cur := { Cursor.zero with idx := i } }, .inl ⟨rfl, rfl⟩, rfl, ⟨rfl, rfl⟩, rfl⟩,
    ⟨answered 0 { passIn .sWrite with cur := { Cursor.zero with idx := i } }, .inl ⟨rfl, rfl⟩, rfl, ⟨rfl, rfl⟩, rfl⟩⟩

/-- A pass that stores with `n` found and room for `c`. -/
def storing (n : Int) (c : Nat) (buf : Bool) : State :=
  { passIn .sStore with
    cur := { Cursor.zero with count := n, cand := 5 }, lat := { Latched.zero with cap := c, bufen := buf } }

/-- The last entry with room, the first without, no buffer; and a host's pin on the entry. -/
theorem witness_CandidateIsStoredAndCounted :
    (∀ s ∈ [storing 3 4 true, { storing 3 4 true with outPinned := [3] }, storing 4 4 true, storing 0 4 false],
      CoreTurn s s ∧ s.phase = .sStore ∧ s.phy.req = none ∧ s.out.wf = true ∧ 0 ≤ s.cur.count) ∧
    ((storing 3 4 true).lat.bufen = true ∧ (storing 3 4 true).cur.count < ((storing 3 4 true).lat.cap : Int)) ∧
    ((storing 4 4 true).lat.cap : Int) ≤ (storing 4 4 true).cur.count ∧ (storing 0 4 false).lat.bufen = false := by
  refine ⟨?_, by decide, by decide, by decide⟩
  intro s h
  simp only [List.mem_cons, List.not_mem_nil, or_false] at h
  obtain rfl | rfl | rfl | rfl := h <;> exact ⟨.inl ⟨rfl, rfl⟩, rfl, rfl, rfl, by decide⟩

/-- With the error and without. -/
theorem witness_ScanExitDeliversTheResults : ∀ e ∈ [none, some ErrorKind.collisionInconsistency],
    (∃ s : State, CoreTurn s s ∧ s.phase = .sExit ∧ PortFree s ∧ s.cur.err = e) ∧
    (∃ s : State, CoreTurn s s ∧ s.phase = .sExit ∧ PortAnswered s 0 ∧ s.cur.err = e) :=
  fun e _ => ⟨⟨{ passIn .sExit with cur := { Cursor.zero with err := e } }, .inl ⟨rfl, rfl⟩, rfl, ⟨rfl, rfl⟩, rfl⟩,
    ⟨answered 0 { runningIn .sExit with cur := { Cursor.zero with err := e } }, .inl ⟨rfl, rfl⟩, rfl, ⟨rfl, rfl⟩, rfl⟩⟩

theorem witness_EmptyBusScanReturnsZero :
    ∃ s : State, s.phase = .idle ∧ s.mode = .byte ∧ s.phyReady = true ∧ (0 : Byte).getLsbD 0 = false ∧
      s.inbox = [.host (.write .cmd 4), .phyDone 0, .phyDone 0, .phyDone 0] :=
  ⟨idleWith [.host (.write .cmd 4), .phyDone 0, .phyDone 0, .phyDone 0], by decide⟩

theorem witness_OneDeviceScanFindsIt :
    ∃ s : State, s.cfg.wf = true ∧ s.out.wf = true ∧ s.phase = .idle ∧ s.mode = .byte ∧ s.phyReady = true ∧
      s.inbox = .host (.write .cmd 4) :: (oneDeviceAnswers 0x2900000000000128#64).map Event.phyDone :=
  ⟨idleWith (.host (.write .cmd 4) :: (oneDeviceAnswers 0x2900000000000128#64).map Event.phyDone), by decide, by decide, rfl,
    rfl, by decide, rfl⟩

/-- A scan that enters with a bound of 1 and room for three codes. -/
def entering (bound : Nat) (es : List Event) : State :=
  { runningIn .sEnter with lat := { Latched.zero with maxdev := bound, cap := 3, bufen := true }, inbox := es }

theorem entering_inv (bound : Nat) (hb : bound < 2 ^ 32) (es : List Event) : Inv (entering bound es) := by
  constructor <;>
    simp [entering, runningIn, State.reset, Config.default, Operands.zero, Latched.zero, PhyPort.ready, Memory.wf,
      Phase.inPasses]
  simpa using hb

theorem entering_searchInv (bound : Nat) (es : List Event) : SearchInv (entering bound es) := by
  constructor <;> simp [entering, runningIn, State.reset, Phase.inPasses]

theorem witness_BoundedScanCompletesWithALivePhy :
    ∃ (s : State) (answers : List Byte), Inv s ∧ s.phase = .sEnter ∧ PortFree s ∧ 0 < s.lat.maxdev ∧
      s.inbox = answers.map Event.phyDone ∧ 2 + 201 * s.lat.maxdev ≤ answers.length :=
  ⟨entering 1 ((List.replicate 203 0).map Event.phyDone), List.replicate 203 0, entering_inv 1 (by decide) _, rfl, ⟨rfl, rfl⟩,
    by decide, rfl, by rw [List.length_replicate]; decide⟩

/-- The three devices of S3. -/
theorem witness_ReferenceBusIsEnumeratedInOrder :
    ∃ (s : State) (dev : List RomCode), Inv s ∧ s.phase = .sEnter ∧ PortFree s ∧ dev ≠ [] ∧ dev.Nodup ∧ s.lat.maxdev = 0 ∧
      s.lat.bufen = true ∧ dev.length ≤ s.lat.cap ∧ s.outPinned = [] :=
  ⟨entering 0 [], [0x2900000000000128#64, 0x7000000000000228#64, 0x4700000000000328#64], entering_inv 0 (by decide) _, rfl,
    ⟨rfl, rfl⟩, by decide, by decide, rfl, rfl, by decide, rfl⟩

/-- Two cursors that differ, one step. -/
theorem witness_EarlierCursorIsDiscarded :
    ∃ (s s' : State) (t : State), s.phase = .sEnter ∧ s' = { s with cur := s'.cur } ∧ s'.cur ≠ s.cur ∧
      runSteps 1 s = .next t :=
  ⟨entering 1 [], { entering 1 [] with cur := { Cursor.zero with bp := some 3 } }, _, rfl, rfl, by decide, rfl⟩

theorem witness_EveryStepKeepsTheInvariant : ∃ s t : State, Inv s ∧ step s = .next t :=
  ⟨entering 1 [], _, entering_inv 1 (by decide) [], rfl⟩

theorem witness_EveryStepKeepsTheSearchInvariant : ∃ s t : State, SearchInv s ∧ step s = .next t :=
  ⟨entering 1 [], _, entering_searchInv 1 [], rfl⟩

theorem witness_PhaseMovesAlongTheTable : ∃ t, step (passIn .sBegin) = .next t := exists_next (by decide)

/-- A scan about to complete: `setMode(8)` has just been answered. -/
theorem witness_CompletedScanRestoresByteMode :
    ∃ s t : State, Inv s ∧ s.phase.isScan = true ∧ step s = .next t ∧ t.phase = .idle ∧ s.inbox.head? ≠ some .coreReset := by
  refine ⟨answered 0 { runningIn .sExit with trace := [.phy .phySetModeByte 0] }, _, ?_, rfl, rfl, rfl, by decide⟩
  constructor <;>
    simp [answered, runningIn, State.reset, Config.default, Operands.zero, Latched.zero, PhyPort.ready, Memory.wf,
      Phase.inPasses, phaseRequest, Cursor.zero]

/-- A pass of a scan in bit mode. -/
theorem passIn_sBegin_inv : Inv (passIn .sBegin) := by
  constructor <;>
    simp [passIn, State.reset, Config.default, Operands.zero, Latched.zero, PhyPort.ready, Memory.wf,
      Phase.inPasses, Cursor.zero]

theorem witness_PassTransactionsAreCounted :
    ∃ s t : State, Inv s ∧ step s = .next t ∧ s.phase.inPasses = true ∧ t.phase.inPasses = true :=
  ⟨passIn .sBegin, _, passIn_sBegin_inv, rfl, rfl, rfl⟩

/-- A store that changes an entry, and a host's write that does. -/
theorem witness_OnlyTheStoreAndTheHostWriteOut :
    goesTo (step (storing 0 4 true)) (fun t => decide (t.out.read 0 ≠ (storing 0 4 true).out.read 0)) = true ∧
    goesTo (step (idleWith [.host (.writeOut 7 9)]))
      (fun t => decide (t.out.read 7 ≠ (idleWith [.host (.writeOut 7 9)]).out.read 7)) = true := by decide

/-- Every result changes in some step. -/
theorem witness_EachCommandWritesOnlyItsResults :
    goesTo (step (answered 1 (runningIn .xReset))) (fun t => decide (t.res.pres ≠ false)) = true ∧
    goesTo (step (answered 1 (runningIn .xRead))) (fun t => decide (t.res.rxb ≠ 0)) = true ∧
    goesTo (step (runningIn .kRun)) (fun t => decide (t.res.crcok ≠ false)) = true ∧
    goesTo (step (answered 0 { runningIn .sExit with
        cur := { Cursor.zero with count := -2, err := some .collisionInconsistency } }))
      (fun t => decide (t.res.count ≠ 0) && decide (t.res.err ≠ 0)) = true := by decide +kernel

/-- Both switches and a core reset change the mode. -/
theorem witness_OnlyTheModeSwitchWritesMode :
    goesTo (step { runningIn .sEnter with
        inbox := [.phyDone 0], phy := { PhyPort.ready with req := some 0b00100000001#11 } })
      (fun t => decide (t.mode ≠ .byte)) = true ∧
    goesTo (step { passIn .sExit with
        inbox := [.phyDone 0], phy := { PhyPort.ready with req := some 0b00100001000#11, mode := .bit } })
      (fun t => decide (t.mode ≠ .bit)) = true ∧
    (∃ t, step { passIn .sReset with inbox := [.coreReset] } = .next t ∧ t.mode ≠ (passIn .sReset).mode) :=
  ⟨by decide, by decide, _, rfl, by decide⟩

theorem witness_LatchedOperandsAndIdleCursorAreKept :
    (∃ t, step (passIn .sBegin) = .next t) ∧ (passIn .sBegin).inbox.head? ≠ some .coreReset ∧ (passIn .sBegin).phase ≠ .idle ∧
    (∃ t, step (runningIn .kRun) = .next t) ∧ (runningIn .kRun).phase.isScan = false :=
  ⟨exists_next (by decide), by decide, by decide, exists_next (by decide), by decide⟩

theorem witness_StepAddsAtMostOneObservable : ∃ t, step (storing 0 4 true) = .next t := exists_next (by decide)

theorem witness_UncompletedTransactionBlocksTheCore : ∀ n ≤ 2, ∃ s s' : State,
    s.phy.req.isSome = true ∧ s.inbox = List.replicate n .wait ∧
    s'.phy.req.isSome = true ∧ s'.inbox = List.replicate n .wait ++ [.phyHang] :=
  fun n _ => ⟨{ runningIn .xReset with phy := { PhyPort.ready with req := some 0 }, inbox := List.replicate n .wait },
    { runningIn .xReset with phy := { PhyPort.ready with req := some 0 }, inbox := List.replicate n .wait ++ [.phyHang] },
    rfl, rfl, rfl, rfl⟩

/-- With a transaction outstanding: nothing to do, the host polls, the host reads a register. -/
theorem witness_UncompletedTransactionBlocksTheCore_outside :
    ∀ es ∈ [[], [Event.awaitIdle], [.host (.read .resPres)]], ∃ s t : State, s.phy.req.isSome = true ∧ s.inbox = es ∧
      s.busy = true ∧ s.phase ≠ .idle ∧ step s = .next t ∧ (∀ v, s.inbox.head? ≠ some (.phyDone v)) ∧
      s.inbox.head? ≠ some .phyHang ∧ s.inbox.head? ≠ some .coreReset ∧ s.inbox.head? ≠ some .phyInit := by
  intro es he
  simp only [List.mem_cons, List.not_mem_nil, or_false] at he
  obtain rfl | rfl | rfl := he <;>
    exact ⟨{ runningIn .xReset with phy := { PhyPort.ready with req := some 0 }, inbox := _ }, _, rfl, rfl, rfl, by decide, rfl,
      by simp, by simp, by simp, by simp⟩

/-- A reset of an idle core, and of one that waits for its PHY; the platform's turn with the core idle and busy. -/
theorem witness_CoreResetAndPhyInitialisation :
    ((idleWith [.coreReset]).inbox = .coreReset :: [] ∧ (idleWith [.coreReset]).busy = false) ∧
    (∃ s : State, s.inbox = .coreReset :: [] ∧ s.busy = true ∧ s.phy.req.isSome = true) ∧
    ((idleWith [.phyInit]).inbox = .phyInit :: [] ∧ (idleWith [.phyInit]).busy = false) ∧
    (∃ s : State, s.inbox = .phyInit :: [] ∧ s.busy = true) :=
  ⟨⟨rfl, rfl⟩,
    ⟨{ runningIn .xReset with inbox := [.coreReset], phy := { PhyPort.ready with req := some 0 } }, rfl, rfl, rfl⟩,
    ⟨rfl, rfl⟩, ⟨{ runningIn .xReset with inbox := [.phyInit] }, rfl, rfl⟩⟩

/-- Every operand register, with a value that fits and one that does not. -/
theorem witness_OperandWritesReadBack :
    ∀ r ∈ [HostReg.argMaxdev, .argScmd, .argCap, .argBufen, .argRom, .argTxb], ∀ v ∈ [0, 2 ^ 64 + 1],
      (idleWith [.host (.write r v), .host (.read r)]).busy = false ∧
      (idleWith [.host (.write r v), .host (.read r)]).inbox = [.host (.write r v), .host (.read r)] :=
  fun _ _ _ _ => ⟨rfl, rfl⟩

/-- A read-only register written with the core idle, an operand register and a read-only one (where the clauses meet) while it is
busy. -/
theorem witness_ReadOnlyAndBusyRegisterWrites :
    (∀ r ∈ [HostReg.status, .resCount, .resErr, .resPres, .resRxb, .resCrcok],
      (idleWith [.host (.write r 1)]).inbox = .host (.write r 1) :: []) ∧
    (∀ r ∈ [HostReg.argScmd, .resCount], ∃ s : State, s.busy = true ∧ r ≠ .cmd ∧ s.inbox = .host (.write r 1) :: []) :=
  ⟨fun _ _ => rfl, fun r hr => ⟨{ runningIn .kRun with inbox := [.host (.write r 1)] }, rfl,
    (by decide : ∀ r ∈ [HostReg.argScmd, .resCount], r ≠ .cmd) r hr, rfl⟩⟩

theorem witness_StatusReadsBusyAndMode :
    (idleWith [.host (.read .status)]).inbox = .host (.read .status) :: [] := rfl

/-- A count of 0, the largest that fits, -2, and the first that does not fit. -/
theorem witness_CountReadsAsTwosComplement : ∀ n ∈ [(0 : Int), 2 ^ 31 - 1, -2, 2 ^ 31],
    ∃ s : State, s.busy = false ∧ s.cfg.wf = true ∧ s.inbox = .host (.read .resCount) :: [] ∧ s.res.count = n :=
  fun n _ => ⟨{ idleWith [.host (.read .resCount)] with res := { Results.zero with count := n } }, rfl, rfl, rfl, rfl⟩

/-- A scan with room for four entries that has stored entry 0, entry 3 next, and an outside that does `es`. -/
def racing (es : List Event) : State :=
  { storing 3 4 true with outRaces := [{ entry := 0, host := 1, scan := 2 }], inbox := es }

/-- A scan about to send a last bit of 1 on the candidate 5, which will be entry 3, and an outside that does `es`. -/
def lastBit (es : List Event) : State :=
  { racing es with phase := .sWrite, cur := { Cursor.zero with count := 3, cand := 5, idx := 63, dir := true } }

/-- Once the PHY completes the bit, the scan stores `0x8000000000000005` in entry 3, whatever the host reads meanwhile (R124,
R125). -/
theorem test_value_to_store :
    valueToStore 3 (stepsAhead (lastBit [.host (.readOut 3), .phyDone 0])) (lastBit [.host (.readOut 3), .phyDone 0]) =
      some 0x8000000000000005#64 := by decide +kernel

/-- Without the completion, after a core reset, and for an entry that is not the next, there is no value. -/
theorem test_no_value_to_store :
    valueToStore 3 (stepsAhead (lastBit [])) (lastBit []) = none ∧
    valueToStore 3 (stepsAhead (lastBit [.coreReset])) (lastBit [.coreReset]) = none ∧
    valueToStore 2 (stepsAhead (lastBit [.phyDone 0])) (lastBit [.phyDone 0]) = none := by decide +kernel

/-- The entry to be stored next, at the last index with room; an entry that the scan has stored, written and read; and the last one
that it owns and has not stored, written and read, also in another phase. -/
theorem witness_RacedEntryHoldsHostsOrScans :
    ((racing [.host (.writeOut 3 9)]).out.wf = true ∧ (racing [.host (.writeOut 3 9)]).phase = .sStore ∧
      (racing [.host (.writeOut 3 9)]).phy.req = none ∧ (racing [.host (.writeOut 3 9)]).lat.bufen = true ∧
      (racing [.host (.writeOut 3 9)]).cur.count = ((3 : Nat) : Int) ∧ 3 < (racing [.host (.writeOut 3 9)]).lat.cap ∧
      raceAt 3 (racing [.host (.writeOut 3 9)]).outRaces = none ∧
      (racing [.host (.writeOut 3 9)]).inbox = [.host (.writeOut 3 9)]) ∧
    (∀ a ∈ [HostAccess.writeOut 0 9, .readOut 0], (racing [.host a]).out.wf = true ∧ scanOwns 0 (racing [.host a]) = true ∧
      raceAt 0 (racing [.host a]).outRaces = some { entry := 0, host := 1, scan := 2 } ∧
      (racing [.host a]).inbox = .host a :: []) ∧
    (∀ a ∈ [HostAccess.writeOut 3 9, .readOut 3], ∀ p ∈ [Phase.sStore, .sReadA],
      ({ racing [.host a] with phase := p }).out.wf = true ∧ scanOwns 3 { racing [.host a] with phase := p } = true ∧
      raceAt 3 ({ racing [.host a] with phase := p }).outRaces = none ∧
      ({ racing [.host a] with phase := p }).inbox = .host a :: []) := by
  decide

/-- Every register read with the core idle, a result register while it is busy; an entry without an owner in `IDLE`, and the first past the capacity of a scan. -/
theorem witness_HostReadsRegistersAndAccessesOut :
    (∀ r : HostReg, (idleWith [.host (.read r)]).busy = false ∧ (idleWith [.host (.read r)]).inbox = .host (.read r) :: []) ∧
    (∃ s : State, s.busy = true ∧ HostReg.resCrcok ≠ .status ∧ s.inbox = .host (.read .resCrcok) :: []) ∧
    (∀ a ∈ [HostAccess.writeOut 4 9, .readOut 4],
      ((idleWith [.host a]).out.wf = true ∧ scanOwns 4 (idleWith [.host a]) = false ∧
        (idleWith [.host a]).inbox = .host a :: []) ∧
      ((racing [.host a]).out.wf = true ∧ scanOwns 4 (racing [.host a]) = false ∧ (racing [.host a]).inbox = .host a :: [])) :=
  ⟨fun _ => ⟨rfl, rfl⟩, ⟨{ runningIn .kRun with inbox := [.host (.read .resCrcok)] }, rfl, by decide, rfl⟩, by decide⟩

/-- Both values of the feedback bit. -/
theorem witness_CrcStepShiftsAndFeedsBack :
    (true ^^ (0 : Byte).getLsbD 0) = true ∧ (true ^^ (1 : Byte).getLsbD 0) = false := by decide

/-- K5, its first and its last bit. -/
theorem witness_SingleBitCorruptionIsDetected : (0 < 64 ∧ 63 < 64) ∧ checkCrc 0xA200000001B81C02#64 = true := by decide +kernel

end Sys2Proof.Tests
end

/-! PROOFS. The statements about the state of the core (spec/10_state.md): what every step keeps, what each actor can reach, the
host's registers, and the cursor of an earlier scan. -/

/-! ## Words decode to what they encode (R65, R68) -/

namespace Sys2Proof

/-- Decoding undoes encoding (R65, R68). -/
theorem decode_encode (i : Instr) : decode (encode i) = .ok i := by
  cases i with
  | phySendBit b => revert b; decide
  | phySendByte v => simp [encode, decode, decodePhy]
  | _ => rfl

/-- The request word of an instruction decodes to that instruction. -/
theorem decode_of_encode {i : Instr} {r : Request} (h : encode i = r) : decode r = .ok i := h ▸ decode_encode i

/-- A `DATA` byte whose upper seven bits are 0 is `sendBit`'s `0000000b` (R68, R82). -/
theorem bitData_low_bit (d : Byte) (h : d.extractLsb' 1 7 = 0) : bitData (d.extractLsb' 0 1) = d := by
  revert d
  decide

/-- A request word that decodes is the word of what it decodes to (R68). -/
theorem encode_of_decodePhy {w : PhyWord} {i : Instr} (h : decodePhy w = .ok i) : encode i = .phy w := by
  have hw : ∀ {p d}, primOf w = p → dataOf w = d → Request.phy (phyWord p d) = .phy w := by
    rintro p d rfl rfl
    rw [Machine.phyWord_primOf_dataOf]
  unfold decodePhy at h
  repeat' split at h
  all_goals cases h
  · next hp hd => exact hw hp hd
  · next hp hd => exact hw hp hd
  · next hp _ hd => exact hw hp hd
  · next hp hd => exact hw hp (bitData_low_bit _ hd).symm
  · next hp hd => exact hw hp hd
  · next hp => exact hw hp rfl
  · next hp hd => exact hw hp hd

end Sys2Proof

namespace Sys2Proof.Machine

variable {s t : State}

/-! ## The invariant of the machine (R31) -/

/-- What `Inv` says whatever the phase: the parameters, the widths of the operands and the canonical form of `OUT`. -/
structure StaticInv (s : State) : Prop where
  countWidth : 3 ≤ s.cfg.countW
  maxdevFits : s.args.maxdev < 2 ^ s.cfg.maxdevW ∧ s.lat.maxdev < 2 ^ s.cfg.maxdevW
  capFits : s.args.cap < 2 ^ s.cfg.capW ∧ s.lat.cap < 2 ^ s.cfg.capW
  outCanonical : s.out.wf = true

theorem Inv.static (h : Inv s) : StaticInv s := ⟨h.countWidth, h.maxdevFits, h.capFits, h.outCanonical⟩

/-! ### Where a core with a free port can be -/

/-- An idle core with a free port meets the invariant. -/
theorem StaticInv.idle (h : StaticInv s) (hf : PortFree s) (hp : s.phase = .idle) (hb : s.busy = false)
    (hm : s.mode = .byte) : Inv s := by
  obtain ⟨hr, ha⟩ := hf
  constructor <;> simp [hr, ha, hp, hb, hm, Phase.inPasses, h.countWidth, h.maxdevFits, h.capFits, h.outCanonical]

/-- A command in its first phase, nothing issued, meets the invariant; one that uses the PHY needs it in byte mode. -/
theorem StaticInv.started (h : StaticInv s) (hf : PortFree s) (hb : s.busy = true) (hm : s.mode = .byte)
    (hp : s.phase = .kRun ∨ (s.phase ∈ [.xReset, .xSend, .xRead, .sEnter] ∧ s.phy.mode = .byte)) : Inv s := by
  obtain ⟨hr, ha⟩ := hf
  have hphase : s.phase ≠ .idle ∧ s.phase.inPasses = false ∧ s.phase ≠ .sExit := by
    obtain hp | ⟨hp, -⟩ := hp
    · simp [hp, Phase.inPasses]
    · simp only [List.mem_cons, List.not_mem_nil, or_false] at hp
      obtain hp | hp | hp | hp := hp <;> simp [hp, Phase.inPasses]
  obtain ⟨hidle, hpass, hexit⟩ := hphase
  constructor <;>
    simp [hr, ha, hb, hm, hidle, hpass, hexit, h.countWidth, h.maxdevFits, h.capFits, h.outCanonical]
  intro hk
  exact (hp.resolve_left hk).2

/-- A scan within its passes, nothing issued, in bit mode with a count and no error, meets the invariant. -/
theorem StaticInv.inPass (h : StaticInv s) (hf : PortFree s) (hb : s.busy = true) (hp : s.phase.inPasses = true)
    (hm : s.mode = .bit) (hpm : s.phy.mode = .bit) (hc : 0 ≤ s.cur.count) (he : s.cur.err = none) : Inv s := by
  obtain ⟨hr, ha⟩ := hf
  have hphase : s.phase ≠ .idle ∧ s.phase ≠ .sExit := by
    constructor <;> intro hq <;> simp [hq, Phase.inPasses] at hp
  constructor <;>
    simp [hr, ha, hb, hp, hm, hpm, hc, he, hphase, h.countWidth, h.maxdevFits, h.capFits, h.outCanonical]

/-- A scan at its exit, nothing issued, in bit mode with the count it delivers, meets the invariant. -/
theorem StaticInv.exiting (h : StaticInv s) (hf : PortFree s) (hb : s.busy = true) (hp : s.phase = .sExit)
    (hm : s.mode = .bit) (hpm : s.phy.mode = .bit)
    (hc : (s.cur.err = some .collisionInconsistency ∧ s.cur.count = -2) ∨ (s.cur.err = none ∧ 0 ≤ s.cur.count)) :
    Inv s := by
  obtain ⟨hr, ha⟩ := hf
  constructor <;>
    simp [hr, ha, hb, hp, hm, hpm, hc, Phase.inPasses, h.countWidth, h.maxdevFits, h.capFits, h.outCanonical]

/-! ### What the invariant says in each kind of phase -/

/-- In a phase without a transaction the port is free. -/
theorem Inv.portFree (h : Inv s) (hp : phaseRequest s = none) : PortFree s := by
  refine ⟨?_, ?_⟩
  · cases hr : s.phy.req with
    | none => rfl
    | some w =>
      obtain ⟨-, i, hi, -⟩ := h.requestIsPhases w hr
      simp [hp] at hi
  · cases ha : s.phy.ack with
    | none => rfl
    | some v => simpa [hp] using h.ackIsPhases (by simp [ha])

theorem Inv.idle_portFree (h : Inv s) (hp : s.phase = .idle) : PortFree s := h.portFree (by simp [phaseRequest, hp])

theorem Inv.idle_of_not_busy (h : Inv s) (hb : s.busy = false) : s.phase = .idle := by
  by_contra hp
  simp [h.busyIff.mpr hp] at hb

/-- Outside a scan the core is in byte mode. -/
theorem Inv.byte_of_not_scan (h : Inv s) (hp : s.phase.isScan = false) : s.mode = .byte := by
  cases hm : s.mode with
  | byte => rfl
  | bit =>
    obtain hq | ⟨hq, -⟩ | ⟨hq, -⟩ := h.bitOnlyInScan hm
    · cases hph : s.phase <;> simp [hph, Phase.isScan, Phase.inPasses] at hp hq
    · simp [hq, Phase.isScan] at hp
    · simp [hq, Phase.isScan] at hp

/-- Within its passes a scan is busy, in bit mode on both sides, with a count and no error. -/
theorem Inv.of_inPasses (h : Inv s) (hp : s.phase.inPasses = true) :
    s.busy = true ∧ s.mode = .bit ∧ s.phy.mode = .bit ∧ 0 ≤ s.cur.count ∧ s.cur.err = none := by
  have hphase : s.phase ≠ .idle ∧ s.phase ≠ .kRun := by
    constructor <;> intro hq <;> simp [hq, Phase.inPasses] at hp
  have hm := h.passesBit hp
  exact ⟨h.busyIff.mpr hphase.1, hm, (h.modesAgree hphase.1 hphase.2).trans hm, h.passCount hp⟩

end Sys2Proof.Machine

namespace Sys2Proof.Machine

variable {s t : State}

/-! ### The part that no phase bears on -/

/-- A written operand register holds a value of its width (R11). -/
theorem writeOperand_fits {c : Config} {a : Operands} (r : HostReg) (v : Nat) (hm : a.maxdev < 2 ^ c.maxdevW)
    (hc : a.cap < 2 ^ c.capW) :
    (writeOperand c r v a).maxdev < 2 ^ c.maxdevW ∧ (writeOperand c r v a).cap < 2 ^ c.capW := by
  cases r with
  | argMaxdev => exact ⟨Nat.mod_lt _ (Nat.two_pow_pos _), hc⟩
  | argCap => exact ⟨hm, Nat.mod_lt _ (Nat.two_pow_pos _)⟩
  | _ => exact ⟨hm, hc⟩

/-- The core writes `OUT` by `MemWrite` only, and no operand. -/
theorem CoreMoves.static (h : CoreMoves s t) (hs : StaticInv s) : StaticInv t := by
  obtain ⟨hw, hm, hc, ho⟩ := hs
  cases h with
  | store =>
    refine ⟨hw, hm, hc, ?_⟩
    dsimp only
    split
    · exact ho
    · exact Memory.wf_write _ _ ho
  | _ => exact ⟨hw, hm, hc, ho⟩

/-- The host writes values of the registers' widths, and whole entries of `OUT`; a command latches what the registers hold. -/
theorem HostMoves.static {a : HostAccess} (h : HostMoves a s t) (hs : StaticInv s) : StaticInv t := by
  obtain ⟨hw, hm, hc, ho⟩ := hs
  cases h with
  | turnedAway | read => exact ⟨hw, hm, hc, ho⟩
  | accepted op first latch _ hl =>
    obtain ⟨-, rfl, -⟩ | ⟨-, rfl, -⟩ | ⟨-, rfl, -⟩ | ⟨-, rfl, -⟩ | ⟨-, rfl⟩ := hl
    case inr.inr.inr.inl => exact ⟨hw, ⟨hm.1, hm.1⟩, ⟨hc.1, hc.1⟩, ho⟩
    all_goals exact ⟨hw, hm, hc, ho⟩
  | register r v d x _ hx =>
    obtain rfl | rfl := hx
    · exact ⟨hw, hm, hc, ho⟩
    · obtain ⟨hm', hc'⟩ := writeOperand_fits r v hm.1 hc.1
      exact ⟨hw, ⟨hm', hm.2⟩, ⟨hc', hc.2⟩, ho⟩
  | entry => exact ⟨hw, hm, hc, Memory.wf_write _ _ ho⟩

/-- A core reset leaves values of the registers' widths, and `OUT` as it was (R170, R171). -/
theorem coreReset_static (hs : StaticInv s) : StaticInv (coreReset s) :=
  ⟨hs.countWidth, ⟨Nat.mod_lt _ (Nat.two_pow_pos _), Nat.mod_lt _ (Nat.two_pow_pos _)⟩,
    ⟨Nat.mod_lt _ (Nat.two_pow_pos _), Nat.mod_lt _ (Nat.two_pow_pos _)⟩, hs.outCanonical⟩

/-! ### Who acts -/

/-- What the outside has still to do, and what is on the PHY's answer lines, enter no part of the invariant. -/
theorem Inv.withInbox (h : Inv s) (x : List Event) : Inv { s with inbox := x } := { h with }

theorem Inv.withAnswer (h : Inv s) (x : List Event) (v : Byte) :
    Inv { s with inbox := x, phy := { s.phy with din := v } } := { h with }

/-- Issuing the phase's request keeps the invariant (R51). -/
theorem Inv.after_issue (h : Inv s) {i : Instr} {w : PhyWord} (ha : s.phy.ack = none) (hp : phaseRequest s = some i)
    (hw : encode i = .phy w) :
    Inv { s with phy := { s.phy with req := some w }, trace := .issue i :: s.trace } :=
  { h with
    requestIsPhases := by
      rintro w' ⟨⟩
      exact ⟨ha, i, hp, hw⟩
    enteredBit := fun _ hk => by simp [ha] at hk
    exitedByte := fun _ hk => by simp [ha] at hk }

/-- A move of the core keeps the invariant. -/
theorem CoreMoves.inv (h : CoreMoves s t) (hI : Inv s) : Inv t := by
  have hst := h.static hI.static
  cases h with
  | stay => exact hI
  | issue i w hr ha hp hw => exact hI.after_issue ha hp hw
  | xReset v hr ha hp | xSend v hr ha hp | xRead v hr ha hp =>
    exact hst.idle ⟨hr, rfl⟩ rfl rfl (hI.byte_of_not_scan (by rw [hp]; rfl))
  | kRun hr hp =>
    exact hst.idle (hI.portFree (by simp [phaseRequest, hp])) rfl rfl (hI.byte_of_not_scan (by rw [hp]; rfl))
  | sEnter v hr ha hp =>
    obtain ⟨hm, -⟩ := hI.enteredBit hp (by rw [ha]; rfl)
    exact hst.inPass ⟨hr, rfl⟩ (hI.busyIff.mpr (by simp [hp])) rfl hm
      ((hI.modesAgree (by simp [hp]) (by simp [hp])).trans hm) le_rfl rfl
  | anotherPass hr hp | sBegin hr hp | sendDirection _ hr hp | zeroBranch hr hp =>
    obtain ⟨hb, hm, hpm, hn, he⟩ := hI.of_inPasses (by rw [hp]; rfl)
    exact hst.inPass (hI.portFree (by simp [phaseRequest, hp])) hb rfl hm hpm hn he
  | present v hr ha hp | lastCommandBit v hr ha hp | sReadA v hr ha hp | sReadB v hr ha hp | nextIndex v hr ha hp
  | lastIndex v hr ha hp =>
    obtain ⟨hb, hm, hpm, hn, he⟩ := hI.of_inPasses (by rw [hp]; rfl)
    exact hst.inPass ⟨hr, rfl⟩ hb rfl hm hpm hn he
  | nextCommandBit v hr ha hp =>
    have hpass : s.phase.inPasses = true := by rw [hp]; rfl
    obtain ⟨hb, hm, hpm, hn, he⟩ := hI.of_inPasses hpass
    exact hst.inPass ⟨hr, rfl⟩ hb hpass hm hpm hn he
  | countOnly hr hp | store hr hp =>
    obtain ⟨hb, hm, hpm, hn, he⟩ := hI.of_inPasses (by rw [hp]; rfl)
    exact hst.inPass (hI.portFree (by simp [phaseRequest, hp])) hb rfl hm hpm (hn.trans (Int.le_add_one le_rfl)) he
  | lastPass hr hp =>
    obtain ⟨hb, hm, hpm, hn, he⟩ := hI.of_inPasses (by rw [hp]; rfl)
    exact hst.exiting (hI.portFree (by simp [phaseRequest, hp])) hb rfl hm hpm (.inr ⟨he, hn⟩)
  | inconsistency hr hp =>
    obtain ⟨hb, hm, hpm, -, -⟩ := hI.of_inPasses (by rw [hp]; rfl)
    exact hst.exiting (hI.portFree (by simp [phaseRequest, hp])) hb rfl hm hpm (.inl ⟨rfl, rfl⟩)
  | noDevice v hr ha hp =>
    obtain ⟨hb, hm, hpm, -, he⟩ := hI.of_inPasses (by rw [hp]; rfl)
    exact hst.exiting ⟨hr, rfl⟩ hb rfl hm hpm (.inr ⟨he, le_rfl⟩)
  | sExit v hr ha hp => exact hst.idle ⟨hr, rfl⟩ rfl rfl (hI.exitedByte hp (by rw [ha]; rfl)).1

/-- An access of the host keeps the invariant: it starts a command, or touches nothing that a phase depends on. -/
theorem HostMoves.inv {a : HostAccess} (h : HostMoves a s t) (hI : Inv s) : Inv t := by
  have hst := h.static hI.static
  cases h with
  | turnedAway => exact hI
  | accepted op first latch hp hl =>
    have hf := hI.idle_portFree hp
    have hm := hI.idleByte hp
    obtain ⟨rfl, rfl, hr⟩ | ⟨rfl, rfl, hr⟩ | ⟨rfl, rfl, hr⟩ | ⟨rfl, rfl, hr⟩ | ⟨rfl, rfl⟩ := hl
    case inr.inr.inr.inr => exact hst.started hf rfl hm (.inl rfl)
    all_goals exact hst.started hf rfl hm (.inr ⟨by simp, (phyReady_iff.mp hr).1⟩)
  | register | read | entry => exact { hst, hI with }

/-- The only phase that asks for bit mode is `S_ENTER` (R113). -/
theorem phaseRequest_setModeBit_iff : phaseRequest s = some .phySetModeBit ↔ s.phase = .sEnter := by
  cases hp : s.phase <;> simp [phaseRequest, hp]

/-- The only phase that asks for byte mode is `S_EXIT` (R126). -/
theorem phaseRequest_setModeByte_iff : phaseRequest s = some .phySetModeByte ↔ s.phase = .sExit := by
  cases hp : s.phase <;> simp [phaseRequest, hp]

/-- The completion of the phase's own transaction keeps the invariant. -/
theorem PhyMoves.inv {i : Instr} (h : PhyMoves i s t) (hI : Inv s) (hp : phaseRequest s = some i) :
    Inv t := by
  cases h with
  | plain v hm hbit hbyte =>
    have henter : s.phase ≠ .sEnter := fun hq => hbit (by simpa [phaseRequest, hq] using hp.symm)
    have hexit : s.phase ≠ .sExit := fun hq => hbyte (by simpa [phaseRequest, hq] using hp.symm)
    exact { hI with
      bitOnlyInScan := fun hb => by
        simpa [henter, hexit] using hI.bitOnlyInScan hb
      requestIsPhases := fun w hw => by simp at hw
      ackIsPhases := fun _ => Option.isSome_iff_exists.mpr ⟨i, hp⟩
      enteredBit := fun hq => absurd hq henter
      exitedByte := fun hq => absurd hq hexit }
  | toBit hm hi =>
    have hq : s.phase = .sEnter := phaseRequest_setModeBit_iff.mp (hi ▸ hp)
    have hb : s.busy = true := hI.busyIff.mpr (by simp [hq])
    have hst := hI.static
    constructor <;>
      simp [hq, hb, Phase.inPasses, phaseRequest, hst.countWidth, hst.maxdevFits, hst.capFits, hst.outCanonical]
  | toByte hm hi =>
    have hq : s.phase = .sExit := phaseRequest_setModeByte_iff.mp (hi ▸ hp)
    have hb : s.busy = true := hI.busyIff.mpr (by simp [hq])
    have hst := hI.static
    constructor <;>
      simp [hq, hb, Phase.inPasses, phaseRequest, hst.countWidth, hst.maxdevFits, hst.capFits, hst.outCanonical]
    exact hI.exitCount hq

/-- The outstanding request decodes to the request of the phase (R51). -/
theorem Inv.request_decodes (hI : Inv s) {w : PhyWord} {i : Instr} (hr : s.phy.req = some w)
    (hd : decode (.phy w) = .ok i) : phaseRequest s = some i := by
  obtain ⟨-, j, hj, hw⟩ := hI.requestIsPhases w hr
  have hji : j = i := by simpa [hd] using (decode_of_encode hw).symm
  exact hji ▸ hj

/-- A core reset leads to the invariant (R28, R170). -/
theorem Inv.after_coreReset (hI : Inv s) : Inv (coreReset s) :=
  (coreReset_static hI.static).idle ⟨rfl, rfl⟩ rfl rfl rfl

/-- A step keeps the invariant, whoever acts in it. -/
theorem StepMoves.inv (h : StepMoves s t) (hI : Inv s) : Inv t := by
  cases h with
  | core x t h => exact h.inv (hI.withInbox x)
  | pop x => exact hI.withInbox x
  | host a x t hi h => exact h.inv (hI.withInbox x)
  | phy v x w i t hi hr hd h =>
    exact h.inv (hI.withAnswer x v) (hI.request_decodes hr hd)
  | coreReset x hi => exact (hI.withInbox x).after_coreReset
  | phyInit x hi hb =>
    have hp := hI.idle_of_not_busy hb
    exact StaticInv.idle { hI.static with } ⟨rfl, rfl⟩ hp hb (hI.idleByte hp)

/-- Settles O35: by who acts in the step, with a lemma for the core's moves, the host's accesses, the PHY's completions and the
platform's actions. -/
theorem everyStepKeepsTheInvariant : Obligations.EveryStepKeepsTheInvariant :=
  fun _ _ hI h => (step_moves h).inv hI

end Sys2Proof.Machine

namespace Sys2Proof.Machine

variable {s t : State}

/-! ## One step, by what the outside does next -/

theorem step_of_wait {x : List Event} (hi : s.inbox = .wait :: x) : step s = coreMove { s with inbox := x } := by
  simp [step, advance, advanceWith, hi, popEvent]

theorem step_of_awaitIdle {x : List Event} (hi : s.inbox = .awaitIdle :: x) (hb : s.busy = true) :
    step s = coreMove s := by
  simp [step, advance, advanceWith, hi, hb]

theorem step_of_empty (hi : s.inbox = []) : step s = coreMove s := by
  simp [step, advance, advanceWith, hi]

theorem step_of_host {a : HostAccess} {x : List Event} (hi : s.inbox = .host a :: x) :
    step s = hostAccess a { s with inbox := x } := by
  simp [step, advance, advanceWith, hi, popEvent]

theorem step_of_phyHang {x : List Event} (hi : s.inbox = .phyHang :: x) (hr : s.phy.req.isSome = true) :
    step s = .fault .phyStuck := by
  obtain ⟨w, hw⟩ := Option.isSome_iff_exists.mp hr
  simp [step, advance, advanceWith, hi, hw]

/-- The PHY's completion of a request word that decodes is that request's meaning, on the PHY's answer (R80). -/
theorem step_of_phyDone {v : Byte} {x : List Event} {w : PhyWord} {i : Instr} (hi : s.inbox = .phyDone v :: x)
    (hr : s.phy.req = some w) (hd : decode (.phy w) = .ok i) :
    step s = exec i { s with inbox := x, phy := { s.phy with din := v } } := by
  simp [step, advance, advanceWith, hi, hr, runPhyWord, hd, popEvent, answerLines]

/-- A write of `CMD` with a value that decodes is the instruction's meaning (R65). -/
theorem writeCmd_of_decode {v : Nat} {i : Instr} (hd : decodeCmdWrite v = .ok i) (s : State) :
    writeCmd v s = exec i s := by
  simp [writeCmd, hd]

/-- A write of any register but `CMD` writes an operand register at most. -/
theorem hostAccess_write {r : HostReg} (hr : r ≠ .cmd) (v : Nat) (s : State) :
    hostAccess (.write r v) s = .next (writeRegister r v s) := by
  unfold hostAccess
  cases r with
  | cmd => exact absurd rfl hr
  | _ => rfl

theorem step_of_write {r : HostReg} {v : Nat} {x : List Event} (hi : s.inbox = .host (.write r v) :: x)
    (hr : r ≠ .cmd) : step s = .next (writeRegister r v { s with inbox := x }) :=
  (step_of_host hi).trans (hostAccess_write hr v _)

theorem step_of_read {r : HostReg} {x : List Event} (hi : s.inbox = .host (.read r) :: x) :
    step s = .next (readRegister r { s with inbox := x }) := step_of_host hi

theorem step_of_writeOut {k : Nat} {v : RomCode} {x : List Event} (hi : s.inbox = .host (.writeOut k v) :: x) :
    step s = .next (writeEntry k v { s with inbox := x }) := step_of_host hi

theorem step_of_readOut {k : Nat} {x : List Event} (hi : s.inbox = .host (.readOut k) :: x) :
    step s = .next (readEntry k { s with inbox := x }) := step_of_host hi

theorem step_of_cmdWrite {v : Nat} {i : Instr} {x : List Event} (hi : s.inbox = .host (.write .cmd v) :: x)
    (hd : decodeCmdWrite v = .ok i) : step s = exec i { s with inbox := x } :=
  (step_of_host hi).trans (writeCmd_of_decode hd _)

/-! ## A step runs the decoded instruction -/

/-- A `HOST` word of the table decodes as a write of `CMD` does. -/
theorem decodeTableWord_host {n w : Nat} {i : Instr} (hn : n ≤ 8) (h : decodeTableWord n w = some i) :
    decodeCmdWrite w = .ok i := by
  rw [decodeTableWord, if_pos hn] at h
  cases hd : decodeCmdWrite w with
  | ok j => simpa [hd, Except.toOption] using h
  | error e => simp [hd, Except.toOption] at h

/-- A `PHY` word of the table decodes as a request word does. -/
theorem decodeTableWord_phy {n w : Nat} {i : Instr} (hn : ¬n ≤ 8) (h : decodeTableWord n w = some i) :
    decode (.phy (BitVec.ofNat 11 w)) = .ok i := by
  rw [decodeTableWord, if_neg hn] at h
  split at h
  · cases hd : decode (.phy (BitVec.ofNat 11 w)) with
    | ok j => simpa [hd, Except.toOption] using h
    | error e => simp [hd, Except.toOption] at h
  · cases h

/-- A word that the step fetches at either port is what it runs. -/
theorem step_withFetchWord {n w : Nat} {i : Instr} (h : decodeTableWord n w = some i) (s : State) :
    step (s.withFetchWord n w) = exec i (if n ≤ 8 then s else
      { s with
        mode := (modeNeeded i).getD s.mode
        phy := { s.phy with req := some (BitVec.ofNat 11 w), din := 0, mode := (modeNeeded i).getD s.mode } }) := by
  by_cases hn : n ≤ 8
  · rw [if_pos hn, State.withFetchWord, if_pos hn, step_of_cmdWrite rfl (decodeTableWord_host hn h)]
    rfl
  · have hd := decodeTableWord_phy hn h
    have hm : modeForWord (BitVec.ofNat 11 w) s = (modeNeeded i).getD s.mode := by simp [modeForWord, hd]
    rw [if_neg hn, State.withFetchWord, if_neg hn, step_of_phyDone rfl rfl hd]
    simp only [placePhyWord, hm]

/-- Settles O5, clause by clause: the write of `CMD`, the PHY's completion, the word placed at either port. -/
theorem stepRunsTheDecodedInstruction : Obligations.StepRunsTheDecodedInstruction :=
  ⟨fun _ _ _ _ hi hd => step_of_cmdWrite hi hd, fun _ _ _ _ _ hi hr hd => step_of_phyDone hi hr hd,
    fun s _ _ _ h => step_withFetchWord h s⟩

/-! ## Acceptance of commands (R23) -/

/-- Settles O6: each start is accepted, and its latch is the one named. -/
theorem transportCommandsAreAccepted : Obligations.TransportCommandsAreAccepted :=
  fun _ hi hr => ⟨startCommand_accepts hi fun _ => hr, startCommand_accepts hi fun _ => hr,
    startCommand_accepts hi fun _ => hr⟩

/-- Settles O7: the start is accepted, and SCAN's latch takes the four operands. -/
theorem scanIsAccepted : Obligations.ScanIsAccepted := fun _ hi hr => startCommand_accepts hi fun _ => hr

/-- Settles O8: CHECKCRC uses no PHY, so its start needs `IDLE` only. -/
theorem checkcrcIsAccepted : Obligations.CheckcrcIsAccepted := fun _ hi => startCommand_accepts hi (by simp)

/-- A command that uses the PHY is refused in `IDLE` while the boot requirement is not met (R172; U14). -/
theorem startCommand_refuses {op : HostOp} {p : Phase} {latch : State → State} (hi : s.phase = .idle)
    (hr : s.phyReady = false) : startCommand true op p latch s = .refused .phyNotReady := by
  simp [startCommand, hi, hr]

/-- Each way in which the PHY can fail the boot requirement (R172). -/
theorem phyReady_eq_false (h : s.phy.mode = .bit ∨ s.phy.req.isSome = true ∨ s.phy.ack.isSome = true ∨
    s.phy.orphan.isSome = true) : s.phyReady = false := by
  by_contra hr
  obtain ⟨hm, hreq, hack, horphan⟩ := phyReady_iff.mp (by simpa using hr)
  simp [hm, hreq, hack, horphan] at h

/-- Settles O9: a busy core turns every start away; in `IDLE` the PHY is not ready. -/
theorem commandsAreTurnedAwayWhenBusyOrUnready : Obligations.CommandsAreTurnedAwayWhenBusyOrUnready := by
  refine ⟨fun s hp => ?_, fun s hp h => ?_⟩
  · exact ⟨startCommand_busy hp, startCommand_busy hp, startCommand_busy hp, startCommand_busy hp, startCommand_busy hp⟩
  · have hr := phyReady_eq_false h
    exact ⟨startCommand_refuses hp hr, startCommand_refuses hp hr, startCommand_refuses hp hr,
      startCommand_refuses hp hr⟩

/-! ## Reset (R28) -/

theorem inv_reset : Inv State.reset :=
  StaticInv.idle ⟨by decide, by decide, by decide, rfl⟩ ⟨rfl, rfl⟩ rfl rfl rfl

/-- The search's invariant speaks of a scan's phases only, and the core is in `IDLE`. -/
theorem searchInv_reset : SearchInv State.reset := by
  constructor <;> simp [State.reset, Phase.inPasses]

/-- Settles O34: the reset values by definition, the invariants as those of an idle core. -/
theorem resetIsIdleAndMeetsTheInvariants : Obligations.ResetIsIdleAndMeetsTheInvariants :=
  ⟨rfl, rfl, rfl, step_of_empty rfl, inv_reset, searchInv_reset⟩

/-! ## The host's registers (R11, R12, R13) -/

theorem readRegister_status (s : State) : readRegister .status s = { s with hostData := (statusWord s).toNat } := by
  simp [readRegister, registerValue]

/-- With `BUSY = 0` a read of any register but `RES_COUNT` returns its content. -/
theorem readRegister_idle {r : HostReg} (hb : s.busy = false) (hr : r ≠ .resCount) :
    readRegister r s = { s with hostData := registerValue s r } := by
  simp [readRegister, hb, hr]

/-- With `BUSY = 1` a read of any register but `STATUS` returns a free value of the register's width. -/
theorem readRegister_busy {r : HostReg} (hb : s.busy = true) (hr : r ≠ .status) :
    readRegister r s = { s with hostData := freeBits (r.width s.cfg) s, draws := s.draws + 1 } := by
  simp [readRegister, hb, hr]

theorem freeBits_lt (w : Nat) (s : State) : freeBits w s < 2 ^ w := Nat.mod_lt _ (Nat.two_pow_pos w)

theorem writeRegister_idle (hb : s.busy = false) (r : HostReg) (v : Nat) :
    writeRegister r v s = { s with args := writeOperand s.cfg r v s.args } := by
  simp [writeRegister, hb]

/-- A write of `CMD` by this way, of `STATUS` or of a result register writes no operand (R12, R13). -/
theorem writeOperand_readOnly {r : HostReg} (hr : r ∈ [HostReg.status, .resCount, .resErr, .resPres, .resRxb, .resCrcok])
    (c : Config) (v : Nat) (a : Operands) : writeOperand c r v a = a := by
  cases r with
  | status | resCount | resErr | resPres | resRxb | resCrcok => rfl
  | _ => simp at hr

/-- `CMD.OP` is no register that a plain write reaches. -/
theorem writeOperand_op (c : Config) (r : HostReg) (v : Nat) (a : Operands) : (writeOperand c r v a).op = a.op := by
  cases r <;> rfl

/-- A written operand register reads as the low bits of the value written. -/
theorem registerValue_writeOperand {r : HostReg}
    (hr : r ∈ [HostReg.argMaxdev, .argScmd, .argCap, .argBufen, .argRom, .argTxb]) (v : Nat) (s : State) :
    registerValue { s with args := writeOperand s.cfg r v s.args } r = v % 2 ^ r.width s.cfg := by
  cases r with
  | argMaxdev | argCap => rfl
  | argScmd | argRom | argTxb => exact BitVec.toNat_ofNat _ _
  | argBufen =>
    show (decide (v % 2 = 1)).toNat = v % 2
    obtain h | h := Nat.mod_two_eq_zero_or_one v <;> simp [h]
  | _ => simp at hr

/-- A write of one register leaves what every other one reads as. -/
theorem registerValue_writeOperand_other {r r' : HostReg} (h : r' ≠ r) (v : Nat) (s : State) :
    registerValue { s with args := writeOperand s.cfg r v s.args } r' = registerValue s r' := by
  cases r <;> cases r' <;> first | rfl | exact absurd rfl h

/-- A plain write of a register, taken by an idle core. -/
theorem step_of_operandWrite {r : HostReg} {v : Nat} {x : List Event} (hi : s.inbox = .host (.write r v) :: x)
    (hb : s.busy = false) (hr : r ≠ .cmd) :
    step s = .next { s with inbox := x, args := writeOperand s.cfg r v s.args } :=
  (step_of_write hi hr).trans (congrArg _ (writeRegister_idle (s := { s with inbox := x }) hb r v))

/-- A read of a register, answered by an idle core. -/
theorem step_of_idleRead {r : HostReg} {x : List Event} (hi : s.inbox = .host (.read r) :: x) (hb : s.busy = false)
    (hr : r ≠ .resCount) : step s = .next { s with inbox := x, hostData := registerValue s r } :=
  (step_of_read hi).trans (congrArg _ (readRegister_idle (s := { s with inbox := x }) hb hr))

/-- Settles O47: the write, then the read of what it left. -/
theorem operandWritesReadBack : Obligations.OperandWritesReadBack := by
  intro s r v hb hr hi
  have hcmd : r ≠ .cmd := by rintro rfl; simp at hr
  have hcount : r ≠ .resCount := by rintro rfl; simp at hr
  have hrun := (runSteps_of_step (n := 1) (step_of_operandWrite hi hb hcmd)).trans
    (runSteps_of_step (n := 0) (step_of_idleRead rfl hb hcount))
  refine ⟨_, hrun, ?_, ?_, rfl, ?_⟩
  · exact registerValue_writeOperand hr v s
  · exact writeOperand_op s.cfg r v s.args
  · intro r' hr'
    exact registerValue_writeOperand_other hr' v s

/-- A plain write of a register while the core is busy: its operand takes the new content or keeps the old (U4). -/
theorem writeRegister_busy (hb : s.busy = true) (r : HostReg) (v : Nat) :
    ∃ a, (a = s.args ∨ a = writeOperand s.cfg r v s.args) ∧
      writeRegister r v s = { s with args := a, draws := s.draws + 1 } := by
  refine ⟨if freeBit s.draws then writeOperand s.cfg r v s.args else s.args, ?_, by simp [writeRegister, hb]⟩
  cases freeBit s.draws
  · exact .inl rfl
  · exact .inr rfl

/-- Settles O48: a read-only register's write leaves the operands either way; a busy core's operand is old or new. -/
theorem readOnlyAndBusyRegisterWrites : Obligations.ReadOnlyAndBusyRegisterWrites := by
  refine ⟨fun s r v rest hr hi => ?_, fun s r v rest hb hr hi => ?_⟩
  · have hcmd : r ≠ .cmd := by rintro rfl; simp at hr
    have hkeep := writeOperand_readOnly hr s.cfg v s.args
    obtain hb | hb := Bool.eq_false_or_eq_true s.busy
    · obtain ⟨a, ha, hw⟩ := writeRegister_busy (s := { s with inbox := rest }) hb r v
      obtain rfl : a = s.args := ha.elim id fun h => h.trans hkeep
      exact ⟨s.draws + 1, (step_of_write hi hcmd).trans (congrArg _ hw)⟩
    · refine ⟨s.draws, (step_of_operandWrite hi hb hcmd).trans ?_⟩
      rw [hkeep]
  · obtain ⟨a, ha, hw⟩ := writeRegister_busy (s := { s with inbox := rest }) hb r v
    exact ⟨_, (step_of_write hi hr).trans (congrArg _ hw), ha, rfl⟩

/-- Bit 0 of the `STATUS` word is `BUSY`, bit 1 is `MODE`, the others are 0 (R13). -/
theorem statusWord_testBit (s : State) :
    (statusWord s).toNat.testBit 0 = s.busy ∧ ((statusWord s).toNat.testBit 1 = true ↔ s.mode = .bit) ∧
      ∀ j, 2 ≤ j → (statusWord s).toNat.testBit j = false := by
  have hlt : (statusWord s).toNat < 2 ^ 2 := by
    unfold statusWord
    cases s.busy <;> cases s.mode <;> decide
  refine ⟨?_, ?_, fun j hj => Nat.testBit_lt_two_pow (hlt.trans_le (Nat.pow_le_pow_right (by decide) hj))⟩
  all_goals
    unfold statusWord
    cases s.busy <;> cases s.mode <;> decide

/-- Settles O49: `STATUS` reads true, busy or not. -/
theorem statusReadsBusyAndMode : Obligations.StatusReadsBusyAndMode :=
  fun s _ hi => ⟨_, (step_of_read hi).trans (congrArg _ (readRegister_status _)), rfl, statusWord_testBit s⟩

/-- Each register of O52's list but `RES_COUNT` and `STATUS`, with the content that a read returns. -/
theorem registerValue_of_mem {r : HostReg} {v : Nat} {s : State}
    (h : (r, v) ∈ [(HostReg.cmd, s.args.op.toNat), (.argMaxdev, s.args.maxdev), (.argScmd, s.args.scmd.toNat),
      (.argCap, s.args.cap), (.argBufen, if s.args.bufen then 1 else 0), (.argRom, s.args.rom.toNat),
      (.argTxb, s.args.txb.toNat), (.resErr, s.res.err.toNat), (.resPres, if s.res.pres then 1 else 0),
      (.resRxb, s.res.rxb.toNat), (.resCrcok, if s.res.crcok then 1 else 0)]) :
    r ≠ .resCount ∧ registerValue s r = v := by
  have hbool : ∀ b : Bool, b.toNat = if b then 1 else 0 := by decide
  simp only [List.mem_cons, Prod.mk.injEq, List.not_mem_nil, or_false] at h
  rcases h with ⟨rfl, rfl⟩ | ⟨rfl, rfl⟩ | ⟨rfl, rfl⟩ | ⟨rfl, rfl⟩ | ⟨rfl, rfl⟩ | ⟨rfl, rfl⟩ | ⟨rfl, rfl⟩ | ⟨rfl, rfl⟩ |
    ⟨rfl, rfl⟩ | ⟨rfl, rfl⟩ | ⟨rfl, rfl⟩ <;>
  simp [registerValue, hbool]

/-- Settles O52, clause by clause: an idle core's registers, a busy core's, and the host's own buffer. -/
theorem hostReadsRegistersAndAccessesOut : Obligations.HostReadsRegistersAndAccessesOut := by
  refine ⟨fun s r v rest hb hv hi => ?_, fun s r rest hb hr hi => ?_, fun s k v rest hwf hown hi => ?_,
    fun s k rest hown hi => ?_⟩
  · obtain ⟨hr, rfl⟩ := registerValue_of_mem hv
    exact step_of_idleRead hi hb hr
  · have hread := readRegister_busy (s := { s with inbox := rest }) hb hr
    exact ⟨_, (step_of_read hi).trans (congrArg _ hread), rfl, freeBits_lt _ _⟩
  · have hwrite := writeEntry_unowned (s := { s with inbox := rest }) v hown
    exact ⟨_, (step_of_writeOut hi).trans (congrArg _ hwrite), rfl, Memory.wf_write k v hwf, Memory.read_write k v hwf,
      fun j hj => Memory.read_write_other hj v s.out⟩
  · exact (step_of_readOut hi).trans (congrArg _ (readEntry_unowned (s := { s with inbox := rest }) hown))

/-! ## What each actor leaves alone -/

/-- Where the results of `t` differ from those of `s`, the phase of `s` is that of the command they belong to (R12, R25). -/
def ResultsByPhase (s t : State) : Prop :=
  (t.res.pres ≠ s.res.pres → s.phase = .xReset) ∧ (t.res.rxb ≠ s.res.rxb → s.phase = .xRead) ∧
    (t.res.crcok ≠ s.res.crcok → s.phase = .kRun) ∧
    ((t.res.count ≠ s.res.count ∨ t.res.err ≠ s.res.err) → s.phase = .sExit)

theorem ResultsByPhase.of_eq (h : t.res = s.res) : ResultsByPhase s t := by
  simp [ResultsByPhase, h]

/-- A phase's move writes its own command's results. -/
theorem CoreMoves.resultsByPhase (h : CoreMoves s t) : ResultsByPhase s t := by
  cases h with
  | xReset v hr ha hp | xRead v hr ha hp | sExit v hr ha hp => simp [ResultsByPhase, hp]
  | kRun hr hp => simp [ResultsByPhase, hp, Machine.kRun]
  | _ => exact .of_eq rfl

theorem CoreMoves.mode_eq (h : CoreMoves s t) : t.mode = s.mode := by cases h <;> rfl

theorem CoreMoves.lat_eq (h : CoreMoves s t) : t.lat = s.lat := by cases h <;> rfl

/-- Only SCAN's phases write the cursor (R14 to R20). -/
theorem CoreMoves.cur_eq (h : CoreMoves s t) (hp : s.phase.isScan = false) : t.cur = s.cur := by
  cases h with
  | stay | issue | xReset | xSend | xRead | kRun | anotherPass | lastPass | sExit => rfl
  | sEnter v hr ha hq | sBegin hr hq | present v hr ha hq | noDevice v hr ha hq | nextCommandBit v hr ha hq
  | lastCommandBit v hr ha hq | sReadA v hr ha hq | sReadB v hr ha hq | sendDirection d hr hq | zeroBranch hr hq
  | inconsistency hr hq | nextIndex v hr ha hq | lastIndex v hr ha hq | countOnly hr hq | store hr hq =>
    simp [hq, Phase.isScan] at hp

/-- A host access reaches no result, no mode and no cursor, and a running command's operands not either (R12, R23, R54). -/
theorem HostMoves.frame {a : HostAccess} (h : HostMoves a s t) :
    t.res = s.res ∧ t.mode = s.mode ∧ t.cur = s.cur ∧ (s.phase ≠ .idle → t.lat = s.lat) := by
  cases h with
  | accepted op first latch hp hl =>
    obtain ⟨-, rfl, -⟩ | ⟨-, rfl, -⟩ | ⟨-, rfl, -⟩ | ⟨-, rfl, -⟩ | ⟨-, rfl⟩ := hl <;>
      exact ⟨rfl, rfl, rfl, fun hne => absurd hp hne⟩
  | turnedAway | register | read | entry => exact ⟨rfl, rfl, rfl, fun _ => rfl⟩

/-- A completing transaction reaches the port, the mode and the record only. -/
theorem PhyMoves.frame {i : Instr} (h : PhyMoves i s t) : t.res = s.res ∧ t.cur = s.cur ∧ t.lat = s.lat := by
  cases h <;> exact ⟨rfl, rfl, rfl⟩

/-- Settles O41, by who acts: the core's phases write results, nobody else does but a core reset. -/
theorem eachCommandWritesOnlyItsResults : Obligations.EachCommandWritesOnlyItsResults := by
  intro s t h hreset
  cases step_moves h with
  | core x t h => exact h.resultsByPhase
  | pop | phyInit => exact ResultsByPhase.of_eq rfl
  | host a x t hi h => exact ResultsByPhase.of_eq h.frame.1
  | phy v x w i t hi hr hd h => exact ResultsByPhase.of_eq h.frame.1
  | coreReset x hi => exact absurd (by rw [hi]; rfl) hreset

/-- Settles O42, by who acts: of the PHY's requests only the two mode switches touch `STATUS.MODE`. -/
theorem onlyTheModeSwitchWritesMode : Obligations.OnlyTheModeSwitchWritesMode := by
  intro s t h hne
  cases step_moves h with
  | core x t h => exact absurd h.mode_eq hne
  | pop | phyInit => exact absurd rfl hne
  | host a x t hi h =>
    obtain ⟨-, hm, -, -⟩ := h.frame
    exact absurd hm hne
  | coreReset x hi => exact .inr ⟨by rw [hi]; rfl, rfl⟩
  | phy v x w i t hi hr hd h =>
    have hdone : ∃ v, s.inbox.head? = some (.phyDone v) := ⟨v, by rw [hi]; rfl⟩
    have hw : encode i = .phy w := encode_of_decodePhy hd
    cases h with
    | plain => exact absurd rfl hne
    | toBit hm he =>
      subst he
      cases hw
      exact .inl ⟨hdone, rfl, .inl ⟨hr, rfl⟩⟩
    | toByte hm he =>
      subst he
      cases hw
      exact .inl ⟨hdone, rfl, .inr ⟨hr, rfl⟩⟩

/-- Settles O43, by who acts: acceptance in `IDLE` writes the latched operands, SCAN's phases the cursor. -/
theorem latchedOperandsAndIdleCursorAreKept : Obligations.LatchedOperandsAndIdleCursorAreKept := by
  intro s t h hreset
  cases step_moves h with
  | core x t h => exact ⟨fun _ => h.lat_eq, h.cur_eq⟩
  | pop | phyInit => exact ⟨fun _ => rfl, fun _ => rfl⟩
  | host a x t hi h =>
    obtain ⟨-, -, hcur, hlat⟩ := h.frame
    exact ⟨hlat, fun _ => hcur⟩
  | phy v x w i t hi hr hd h =>
    obtain ⟨-, hcur, hlat⟩ := h.frame
    exact ⟨fun _ => hlat, fun _ => hcur⟩
  | coreReset x hi => exact absurd (by rw [hi]; rfl) hreset

/-! ## An outstanding transaction (R22, R80) -/

/-- The core does not move while a transaction is outstanding. -/
theorem coreMove_outstanding (hr : s.phy.req.isSome = true) : coreMove s = .next s := by
  simp [coreMove, hr]

/-- While a transaction is outstanding the core's one move is to stay: every other needs the port free. -/
theorem CoreMoves.eq_of_outstanding (h : CoreMoves s t) (hr : s.phy.req.isSome = true) : t = s := by
  cases h with
  | stay => rfl
  | _ => simp_all

/-- However long the outside waits, an outstanding transaction stays outstanding and nothing else happens. -/
theorem runSteps_waits (es : List Event) : ∀ (n : Nat) {s : State}, s.phy.req.isSome = true →
    s.inbox = List.replicate n .wait ++ es → runSteps n s = .next { s with inbox := es }
  | 0, s, _, hi => by
    obtain rfl : s.inbox = es := hi
    rfl
  | n + 1, s, hr, hi => by
    have hwait := (step_of_wait hi).trans (coreMove_outstanding (s := { s with inbox := _ }) hr)
    exact (runSteps_of_step hwait).trans (runSteps_waits es n hr rfl)

/-- Outside `IDLE`, what the host does reaches the operand registers, `OUT` with its records, what it read and the counter of
free values. -/
theorem HostMoves.busy_frame {a : HostAccess} (h : HostMoves a s t) (hp : s.phase ≠ .idle) :
    t = { s with
      args := t.args, out := t.out, outRaces := t.outRaces, outPinned := t.outPinned, inbox := t.inbox
      hostData := t.hostData, draws := t.draws } := by
  cases h with
  | accepted op first latch hi => exact absurd hi hp
  | turnedAway | register | read | entry => rfl

/-- Settles O45: the waits by induction on their number, the other actions of the outside by who acts. -/
theorem uncompletedTransactionBlocksTheCore : Obligations.UncompletedTransactionBlocksTheCore := by
  intro s n hr
  refine ⟨fun hi => ?_, fun hi => ?_, fun hi => ?_, fun rest hi hb => ?_, fun t hp h hdone hhang hreset hinit => ?_⟩
  · exact runSteps_waits [] n hr (hi.trans (List.append_nil _).symm)
  · exact (runSteps_add (runSteps_waits [.phyHang] n hr hi)).trans (runSteps_of_fault (step_of_phyHang rfl hr))
  · exact (step_of_empty hi).trans (coreMove_outstanding hr)
  · exact (step_of_awaitIdle hi hb).trans (coreMove_outstanding hr)
  · cases step_moves h with
    | core x t h => rw [h.eq_of_outstanding hr]
    | pop => rfl
    | host a x t hi h =>
      rw [h.busy_frame hp]
    | phy v x w i t hi => exact absurd (by rw [hi]; rfl) (hdone v)
    | coreReset x hi => exact absurd (by rw [hi]; rfl) hreset
    | phyInit x hi => exact absurd (by rw [hi]; rfl) hinit

end Sys2Proof.Machine

/-! ## The cursor of an earlier scan (R30, R132)

In each phase some cursor registers are dead: a scan writes them before it next reads them. `State.liveOnly` clears them, and
every step answers alike from a state and from the cleared state. States are called alike when they are equal once cleared; in `S_ENTER` every cursor register is dead, so all states
that differ in the cursor only are alike there. -/

namespace Sys2Proof.Machine

variable {s t : State}

/-- The cursor with the registers cleared that are dead in the phase. -/
def Cursor.live : Phase → Cursor → Cursor
  | .sCheck, c | .sBegin, c | .sStore, c | .sExit, c =>
    { c with bp := none, idx := 0, cidx := 0, a := false, b := false, dir := false }
  | .sReset, c => { c with idx := 0, cidx := 0, a := false, b := false, dir := false }
  | .sCmd, c => { c with idx := 0, a := false, b := false, dir := false }
  | .sReadA, c => { c with cidx := 0, a := false, b := false, dir := false }
  | .sReadB, c => { c with cidx := 0, b := false, dir := false }
  | .sDecide, c => { c with cidx := 0, dir := false }
  | .sWrite, c => { c with cidx := 0, a := false, b := false }
  | .idle, _ | .xReset, _ | .xSend, _ | .xRead, _ | .kRun, _ | .sEnter, _ => Cursor.zero

@[simp] theorem Cursor.live_live (p : Phase) (c : Cursor) : (c.live p).live p = c.live p := by
  cases p <;> rfl

/-- The state with its dead cursor registers cleared. -/
def State.liveOnly (s : State) : State := { s with cur := s.cur.live s.phase }

@[simp] theorem liveOnly_cfg (s : State) : s.liveOnly.cfg = s.cfg := rfl
@[simp] theorem liveOnly_res (s : State) : s.liveOnly.res = s.res := rfl
@[simp] theorem liveOnly_busy (s : State) : s.liveOnly.busy = s.busy := rfl
@[simp] theorem liveOnly_mode (s : State) : s.liveOnly.mode = s.mode := rfl
@[simp] theorem liveOnly_phase (s : State) : s.liveOnly.phase = s.phase := rfl
@[simp] theorem liveOnly_outRaces (s : State) : s.liveOnly.outRaces = s.outRaces := rfl
@[simp] theorem liveOnly_phy (s : State) : s.liveOnly.phy = s.phy := rfl
@[simp] theorem liveOnly_inbox (s : State) : s.liveOnly.inbox = s.inbox := rfl
@[simp] theorem liveOnly_phyReady (s : State) : s.liveOnly.phyReady = s.phyReady := rfl
@[simp] theorem modeAllows_liveOnly (need : Option Mode) (s : State) : modeAllows need s.liveOnly = modeAllows need s := rfl
@[simp] theorem scanOwns_liveOnly (k : Nat) (s : State) : scanOwns k s.liveOnly = scanOwns k s := rfl

@[simp] theorem liveOnly_liveOnly (s : State) : s.liveOnly.liveOnly = s.liveOnly := by simp [State.liveOnly]

/-- The outcome with the next state's dead cursor registers cleared. -/
def nextLive : Host.Outcome State Fault Refusal → Host.Outcome State Fault Refusal
  | .next t => .next t.liveOnly
  | .fault f => .fault f
  | .refused r => .refused r

@[simp] theorem nextLive_next (t : State) : nextLive (.next t) = .next t.liveOnly := rfl
@[simp] theorem nextLive_fault (f : Fault) : nextLive (.fault f) = .fault f := rfl
@[simp] theorem nextLive_refused (r : Refusal) : nextLive (.refused r) = .refused r := rfl

/-- Outcomes that are alike are equal, or next states that are alike. -/
theorem nextLive_cases {o o' : Host.Outcome State Fault Refusal} (h : nextLive o' = nextLive o) :
    o' = o ∨ ∃ t t', o = .next t ∧ o' = .next t' ∧ t'.liveOnly = t.liveOnly := by
  cases o' with
  | next t' =>
    cases o with
    | next t => exact .inr ⟨t, t', rfl, rfl, by simpa using h⟩
    | fault | refused => simp at h
  | fault | refused => cases o <;> simp_all

/-- States that are alike differ in the cursor only. -/
theorem eq_withCursor_of_liveOnly {u : State} (h : u.liveOnly = s.liveOnly) : u = { s with cur := u.cur } :=
  congrArg (fun x : State => { x with cur := u.cur }) h

/-! ### The core's moves -/

/-- The request of a phase reads live registers only. -/
theorem phaseRequest_liveOnly (s : State) : phaseRequest s.liveOnly = phaseRequest s := by
  cases hp : s.phase <;> simp only [phaseRequest, State.liveOnly, hp, Cursor.live, searchCommandBit]

/-- `S_DECIDE` reads live registers only. -/
theorem sDecide_liveOnly (hp : s.phase = .sDecide) : (sDecide s.liveOnly).liveOnly = (sDecide s).liveOnly := by
  simp only [sDecide, State.liveOnly, hp, Cursor.live, candidateBit]
  split
  · unfold takeArm
    split <;> rfl
  · rfl
  · rfl

/-- `S_STORE` reads live registers only. -/
theorem sStore_liveOnly (hp : s.phase = .sStore) : nextLive (sStore s.liveOnly) = nextLive (sStore s) := by
  have hc : storesCandidate s.liveOnly = storesCandidate s := by
    simp only [storesCandidate, State.liveOnly, hp, Cursor.live]
  simp only [sStore, hc]
  split <;> simp only [nextLive, State.liveOnly, countPass, storeCandidate, hp, Cursor.live]

/-- `S_CHECK` reads live registers only. -/
theorem sCheck_liveOnly (hp : s.phase = .sCheck) : (sCheck s.liveOnly).liveOnly = (sCheck s).liveOnly := by
  have hc : anotherPass s.liveOnly = anotherPass s := by
    simp only [anotherPass, State.liveOnly, hp, Cursor.live]
  simp only [sCheck, hc]
  split <;> simp only [State.liveOnly, hp, Cursor.live]

/-- A phase without a transaction reads live registers only. -/
theorem phaseStep_liveOnly (s : State) : nextLive (phaseStep s.liveOnly) = nextLive (phaseStep s) := by
  unfold phaseStep
  rw [liveOnly_phase]
  cases hp : s.phase with
  | kRun => rfl
  | sCheck => simp only [nextLive_next, sCheck_liveOnly hp]
  | sBegin => simp only [nextLive_next, State.liveOnly, sBegin, hp, Cursor.live]
  | sDecide => simp only [nextLive_next, sDecide_liveOnly hp]
  | sStore => exact sStore_liveOnly hp
  | _ => simp only [nextLive_next, liveOnly_liveOnly]

/-- A phase whose transaction has completed reads live registers only. -/
theorem phaseDone_liveOnly (v : Byte) (s : State) :
    (phaseDone v (takeAck s.liveOnly)).liveOnly = (phaseDone v (takeAck s)).liveOnly := by
  cases hp : s.phase with
  | sReset =>
    simp only [phaseDone, takeAck, State.liveOnly, hp, sResetDone, noDeviceExit]
    split <;> simp only [Cursor.live]
  | sCmd =>
    simp only [phaseDone, takeAck, State.liveOnly, hp, sCmdDone, Cursor.live]
    split <;> rfl
  | sWrite =>
    simp only [phaseDone, takeAck, State.liveOnly, hp, sWriteDone, Cursor.live]
    split <;> rfl
  | _ =>
    simp only [phaseDone, takeAck, State.liveOnly, hp, xResetDone, xSendDone, xReadDone, sEnterDone, sReadADone, sReadBDone,
      sExitDone, complete, Cursor.live]

/-- The core moves alike from a state and from the cleared state. -/
theorem coreMove_liveOnly (s : State) : nextLive (coreMove s.liveOnly) = nextLive (coreMove s) := by
  unfold coreMove
  rw [phaseRequest_liveOnly, liveOnly_phy]
  split
  · simp
  · split
    · exact phaseStep_liveOnly s
    · next i hp =>
      split
      · obtain ⟨w, hw⟩ := phaseRequest_word hp
        rw [issue_of_encode hw, issue_of_encode hw]
        simp [State.liveOnly]
      · simp only [nextLive_next, phaseDone_liveOnly]

/-! ### The instructions -/

/-- A command is started alike, its first phase having no live register. -/
theorem startCommand_liveOnly {u : Bool} {op : HostOp} {p : Phase} {latch : State → State}
    (h : (accept op p (latch s.liveOnly)).liveOnly = (accept op p (latch s)).liveOnly) :
    nextLive (startCommand u op p latch s.liveOnly) = nextLive (startCommand u op p latch s) := by
  unfold startCommand
  rw [liveOnly_phase, liveOnly_phyReady]
  split
  · split
    · rfl
    · rw [nextLive_next, nextLive_next, h]
  · simp only [nextLive_next, liveOnly_liveOnly]

/-- A transaction completes alike, its effect being on the mode only. -/
theorem transact_liveOnly {i : Instr} {need : Option Mode} {effect : State → State} {v : Byte}
    (h : (effect s.liveOnly).liveOnly = (effect s).liveOnly) :
    nextLive (transact i need effect v s.liveOnly) = nextLive (transact i need effect v s) := by
  unfold transact
  rw [liveOnly_phy, liveOnly_mode, modeAllows_liveOnly]
  split
  · rfl
  · split
    · exact congrArg (fun x => Host.Outcome.next (finishTransaction i v x)) h
    · rfl

/-- Every instruction answers alike. -/
theorem exec_liveOnly (i : Instr) (s : State) : nextLive (exec i s.liveOnly) = nextLive (exec i s) := by
  cases i with
  | reset | sendbyte | readbyte | scan | checkcrc => exact startCommand_liveOnly rfl
  | phySetModeBit | phySetModeByte => exact transact_liveOnly (by simp [State.liveOnly])
  | phyResetAndSense | phySendBit | phyReadBit | phySendByte | phyReadByte => exact transact_liveOnly (liveOnly_liveOnly s)

/-! ### The outside's actions -/

theorem runPhyWord_liveOnly (w : PhyWord) (s : State) : nextLive (runPhyWord w s.liveOnly) = nextLive (runPhyWord w s) := by
  unfold runPhyWord
  split
  · exact exec_liveOnly _ s
  · rfl

theorem writeCmd_liveOnly (v : Nat) (s : State) : nextLive (writeCmd v s.liveOnly) = nextLive (writeCmd v s) := by
  unfold writeCmd
  split
  · exact exec_liveOnly _ s
  · rfl

theorem awaitRequest_liveOnly (s : State) : nextLive (awaitRequest s.liveOnly) = nextLive (awaitRequest s) := by
  unfold awaitRequest
  rw [liveOnly_phase]
  split
  · exact congrArg Host.Outcome.next (liveOnly_liveOnly (popEvent s))
  · exact coreMove_liveOnly s

theorem phyInit_liveOnly (s : State) : nextLive (phyInit s.liveOnly) = nextLive (phyInit s) := by
  unfold phyInit
  rw [liveOnly_busy]
  split
  · rfl
  · simp [State.liveOnly]

/-- A step answers alike, provided the host's accesses do. -/
theorem advanceWith_liveOnly {access : HostAccess → State → Host.Outcome State Fault Refusal}
    (h : ∀ a s, nextLive (access a s.liveOnly) = nextLive (access a s)) (s : State) :
    nextLive (advanceWith access s.liveOnly) = nextLive (advanceWith access s) := by
  unfold advanceWith
  rw [liveOnly_inbox, liveOnly_busy, liveOnly_phy]
  cases hi : s.inbox with
  | nil => exact coreMove_liveOnly s
  | cons e rest =>
    cases e with
    | wait => exact coreMove_liveOnly (popEvent s)
    | awaitIdle =>
      dsimp only
      split
      · exact coreMove_liveOnly s
      · exact congrArg Host.Outcome.next (liveOnly_liveOnly (popEvent s))
    | host a => exact h a (popEvent s)
    | phyDone v =>
      dsimp only
      split
      · exact runPhyWord_liveOnly _ (answerLines v (popEvent s))
      · exact awaitRequest_liveOnly s
    | phyHang =>
      dsimp only
      split
      · rfl
      · exact awaitRequest_liveOnly s
    | coreReset => rfl
    | phyInit => exact phyInit_liveOnly (popEvent s)

theorem accessAhead_liveOnly (a : HostAccess) (s : State) :
    nextLive (accessAhead a s.liveOnly) = nextLive (accessAhead a s) := by
  unfold accessAhead
  split
  · exact writeCmd_liveOnly _ s
  all_goals simp only [nextLive_next, liveOnly_liveOnly]

/-- What the running scan is going to store does not depend on dead registers. -/
theorem valueToStore_liveOnly (k : Nat) : ∀ (n : Nat) (s : State), valueToStore k n s.liveOnly = valueToStore k n s
  | 0, _ => rfl
  | n + 1, s => by
    unfold valueToStore
    obtain heq | ⟨t, t', ht, ht', hb⟩ := nextLive_cases (advanceWith_liveOnly accessAhead_liveOnly s)
    · rw [heq]
    · have hfields := eq_withCursor_of_liveOnly hb
      have hphase : t'.phase = t.phase := by rw [hfields]
      have hraces : t'.outRaces = t.outRaces := by rw [hfields]
      have hrest : valueToStore k n t' = valueToStore k n t := by
        rw [← valueToStore_liveOnly k n t', hb, valueToStore_liveOnly k n t]
      simp only [ht, ht', hphase, hraces, hrest]

/-- The host sees the same two sides of an entry, whatever the dead registers hold. -/
theorem entrySides_liveOnly (k : Nat) (s : State) : entrySides k s.liveOnly = entrySides k s := by
  unfold entrySides
  rw [valueToStore_liveOnly]
  rfl

/-- An update that neither reads nor writes the cursor or the phase answers alike. -/
theorem liveOnly_of_frame {t t' : State} (h : t' = { t with cur := s.liveOnly.cur }) (hp : t.phase = s.phase)
    (hc : t.cur = s.cur) : t'.liveOnly = t.liveOnly := by
  subst h
  simp [State.liveOnly, hp, hc]

theorem writeRegister_liveOnly (r : HostReg) (v : Nat) (s : State) :
    (writeRegister r v s.liveOnly).liveOnly = (writeRegister r v s).liveOnly := by
  unfold writeRegister
  rw [liveOnly_busy]
  split <;> exact liveOnly_of_frame (s := s) rfl rfl rfl

theorem readRegister_liveOnly (r : HostReg) (s : State) : (readRegister r s.liveOnly).liveOnly = (readRegister r s).liveOnly := by
  unfold readRegister
  rw [liveOnly_busy, liveOnly_cfg, liveOnly_res]
  split <;> exact liveOnly_of_frame (s := s) rfl rfl rfl

theorem writeEntry_liveOnly (k : Nat) (v : RomCode) (s : State) :
    (writeEntry k v s.liveOnly).liveOnly = (writeEntry k v s).liveOnly := by
  unfold writeEntry
  rw [scanOwns_liveOnly, liveOnly_outRaces]
  split
  · split <;> exact liveOnly_of_frame (s := s) rfl rfl rfl
  · exact liveOnly_of_frame (s := s) rfl rfl rfl

theorem readEntry_liveOnly (k : Nat) (s : State) : (readEntry k s.liveOnly).liveOnly = (readEntry k s).liveOnly := by
  unfold readEntry
  rw [scanOwns_liveOnly, entrySides_liveOnly]
  split <;> exact liveOnly_of_frame (s := s) rfl rfl rfl

/-- A host access answers alike. -/
theorem hostAccess_liveOnly (a : HostAccess) (s : State) :
    nextLive (hostAccess a s.liveOnly) = nextLive (hostAccess a s) := by
  cases a with
  | write r v =>
    by_cases hr : r = .cmd
    · subst hr
      exact writeCmd_liveOnly v s
    · rw [hostAccess_write hr, hostAccess_write hr]
      exact congrArg Host.Outcome.next (writeRegister_liveOnly r v s)
  | read r => exact congrArg Host.Outcome.next (readRegister_liveOnly r s)
  | writeOut k v => exact congrArg Host.Outcome.next (writeEntry_liveOnly k v s)
  | readOut k => exact congrArg Host.Outcome.next (readEntry_liveOnly k s)

/-! ### Steps and runs -/

theorem step_liveOnly (s : State) : nextLive (step s.liveOnly) = nextLive (step s) := advanceWith_liveOnly hostAccess_liveOnly s

/-- States that are alike run alike. -/
theorem runSteps_alike : ∀ (n : Nat) {s u : State}, u.liveOnly = s.liveOnly →
    nextLive (runSteps n u) = nextLive (runSteps n s)
  | 0, s, u, h => congrArg Host.Outcome.next h
  | n + 1, s, u, h => by
    have hstep : nextLive (step u) = nextLive (step s) := by rw [← step_liveOnly u, h, step_liveOnly s]
    rw [runSteps_succ, runSteps_succ]
    obtain heq | ⟨t, t', ht, ht', hb⟩ := nextLive_cases hstep
    · rw [heq]
    · simp only [ht, ht', runSteps_alike n hb]

/-- In `S_ENTER` no cursor register is live, so states that differ in the cursor only are alike. -/
theorem liveOnly_withCursor_of_sEnter (hp : s.phase = .sEnter) (c : Cursor) :
    ({ s with cur := c } : State).liveOnly = s.liveOnly := by
  simp only [State.liveOnly, hp, Cursor.live]

/-- Settles O33: the two cores are alike in `S_ENTER`, so they run alike, and alike states differ in the cursor only. -/
theorem earlierCursorIsDiscarded : Obligations.EarlierCursorIsDiscarded := by
  intro s s' n t hp hs' ht
  have halike : s'.liveOnly = s.liveOnly := hs' ▸ liveOnly_withCursor_of_sEnter hp s'.cur
  obtain heq | ⟨x, t', hx, ht', hb⟩ := nextLive_cases (runSteps_alike n halike)
  · exact ⟨t, heq.trans ht, rfl⟩
  · obtain rfl : x = t := by simpa [ht] using hx.symm
    exact ⟨t', ht', eq_withCursor_of_liveOnly hb⟩

end Sys2Proof.Machine

/-! PROOFS. The statements about memory and the record (spec/20_memory.md): who writes `OUT`, what a step adds to the record, and
a host access to an entry during the scan that owns it. -/

namespace Sys2Proof.Machine

variable {s t : State}

/-! ## Who writes `OUT` (R40, R42, R144) -/

/-- The store condition with its bounds (R125). -/
theorem storesCandidate_iff :
    storesCandidate s = true ↔ s.lat.bufen = true ∧ 0 ≤ s.cur.count ∧ s.cur.count < (s.lat.cap : Int) := by
  simp [storesCandidate, and_assoc]

/-- The core changes `OUT` by `S_STORE`'s `MemWrite` only, at entry `COUNT`, where there is a buffer with room. -/
theorem CoreMoves.store_of_read_ne {k : Nat} (h : CoreMoves s t) (hne : t.out.read k ≠ s.out.read k) :
    s.phase = .sStore ∧ s.lat.bufen = true ∧ s.cur.count < (s.lat.cap : Int) ∧ k = s.cur.count.toNat ∧
      t.out = s.out.write s.cur.count.toNat s.cur.cand := by
  cases h with
  | store hr hp hc =>
    obtain ⟨hbuf, -, hroom⟩ := storesCandidate_iff.mp hc
    by_cases hpin : s.cur.count.toNat ∈ s.outPinned
    · exact absurd (by simp [hpin]) hne
    · simp only [if_neg hpin] at hne
      exact ⟨hp, hbuf, hroom, by_contra fun hk => hne (Memory.read_write_other hk s.cur.cand s.out), if_neg hpin⟩
  | _ => exact absurd rfl hne

/-- A host access changes an entry of `OUT` only by writing that entry. -/
theorem HostMoves.writeOut_of_read_ne {a : HostAccess} {k : Nat} (h : HostMoves a s t)
    (hne : t.out.read k ≠ s.out.read k) : ∃ v, a = .writeOut k v := by
  cases h with
  | entry j v w p q d ha hw hq =>
    have hk : k = j := by_contra fun hk => hne (Memory.read_write_other hk w s.out)
    exact ⟨v, hk ▸ ha⟩
  | accepted op first latch hp hl =>
    obtain ⟨-, rfl, -⟩ | ⟨-, rfl, -⟩ | ⟨-, rfl, -⟩ | ⟨-, rfl, -⟩ | ⟨-, rfl⟩ := hl <;> exact absurd rfl hne
  | turnedAway | register | read => exact absurd rfl hne

theorem PhyMoves.out_eq {i : Instr} (h : PhyMoves i s t) : t.out = s.out := by cases h <;> rfl

/-- Settles O40, by who acts: of the core's moves only the store writes `OUT`, of the host's accesses only the write of the
entry, and nobody else does. -/
theorem onlyTheStoreAndTheHostWriteOut : Obligations.OnlyTheStoreAndTheHostWriteOut := by
  intro s t k h hne
  cases step_moves h with
  | core x t h => exact .inl (h.store_of_read_ne hne)
  | host a x t hi h =>
    obtain ⟨v, rfl⟩ := h.writeOut_of_read_ne hne
    exact .inr ⟨v, by rw [hi]; rfl⟩
  | phy v x w i t hi hr hd h => exact absurd (congrArg (Memory.read · k) h.out_eq) hne
  | pop | coreReset | phyInit => exact absurd rfl hne

/-! ## The record (R9, R50, R51) -/

/-- The record of `t` is that of `s`, or longer by one entry at its head, and the parameters are the same. -/
def AddsAtMostOne (s t : State) : Prop :=
  (t.trace = s.trace ∨ ∃ e, t.trace = e :: s.trace) ∧ t.cfg = s.cfg

/-- The core records a request it issues and a store it makes. -/
theorem CoreMoves.addsAtMostOne (h : CoreMoves s t) : AddsAtMostOne s t := by
  cases h with
  | issue | store => exact ⟨.inr ⟨_, rfl⟩, rfl⟩
  | _ => exact ⟨.inl rfl, rfl⟩

/-- A host access is not on record. -/
theorem HostMoves.addsAtMostOne {a : HostAccess} (h : HostMoves a s t) : AddsAtMostOne s t := by
  cases h with
  | accepted op first latch hp hl =>
    obtain ⟨-, rfl, -⟩ | ⟨-, rfl, -⟩ | ⟨-, rfl, -⟩ | ⟨-, rfl, -⟩ | ⟨-, rfl⟩ := hl <;> exact ⟨.inl rfl, rfl⟩
  | turnedAway | register | read | entry => exact ⟨.inl rfl, rfl⟩

/-- A completing transaction puts its completion on record. -/
theorem PhyMoves.addsAtMostOne {i : Instr} (h : PhyMoves i s t) : AddsAtMostOne s t := by
  cases h <;> exact ⟨.inr ⟨_, rfl⟩, rfl⟩

/-- Settles O44, by who acts: the core records its issue or its store, the PHY its completion, the others nothing. -/
theorem stepAddsAtMostOneObservable : Obligations.StepAddsAtMostOneObservable := by
  intro s t h
  cases step_moves h with
  | core x t h => exact h.addsAtMostOne
  | host a x t hi h => exact h.addsAtMostOne
  | phy v x w i t hi hr hd h => exact h.addsAtMostOne
  | pop | coreReset | phyInit => exact ⟨.inl rfl, rfl⟩

/-! ## A host access to an entry that a scan owns (R56, R41; U8) -/

/-- Only a scan owns entries (R56). -/
theorem isScan_of_scanOwns {k : Nat} (h : scanOwns k s = true) : s.phase.isScan = true := by
  simp only [scanOwns, Bool.and_eq_true] at h
  obtain ⟨⟨hscan, -⟩, -⟩ := h
  exact hscan

/-- A scan at `S_STORE` with a buffer owns the entry of its count, if there is room for it (R56). -/
theorem scanOwns_of_sStore {k : Nat} (hp : s.phase = .sStore) (hbuf : s.lat.bufen = true) (hk : k < s.lat.cap) :
    scanOwns k s = true := by
  simp [scanOwns, hp, Phase.isScan, hbuf, hk]

/-- With a buffer and room and nothing for the outside to do, `S_STORE` stores the candidate in entry `COUNT` and counts it (R125). -/
theorem step_of_sStore {k : Nat} (hi : s.inbox = []) (hr : s.phy.req = none) (hp : s.phase = .sStore)
    (hbuf : s.lat.bufen = true) (hc : s.cur.count = (k : Int)) (hk : k < s.lat.cap) :
    step s = .next { s with
      cur := { s.cur with count := s.cur.count + 1 }, phase := .sCheck
      out := if k ∈ s.outPinned then s.out else s.out.write k s.cur.cand
      outRaces := { entry := k, host := s.out.read k, scan := s.cur.cand } :: s.outRaces
      trace := .store k s.cur.cand :: s.trace } := by
  have hstores : storesCandidate s = true := storesCandidate_iff.mpr ⟨hbuf, by omega, by omega⟩
  have hcount : s.cur.count.toNat = k := by omega
  calc step s = coreMove s := step_of_empty hi
    _ = sStore s := (coreMove_phaseStep hr (by simp [phaseRequest, hp])).trans (by simp [phaseStep, hp])
    _ = _ := by simp [sStore, hstores, countPass, storeCandidate, hcount]

/-- The host's write of `v` and then the scan's store of `w`, lost where the entry is pinned: one of the two stays, and no other
entry changes. -/
theorem Memory.read_write_then_store {m o : Memory} {k : Nat} {v w : RomCode} {pins : List Nat} (hwf : m.wf = true)
    (ho : o = if k ∈ pins then m.write k v else (m.write k v).write k w) :
    (o.read k = v ∨ o.read k = w) ∧ ∀ j, j ≠ k → o.read j = m.read j := by
  subst ho
  split
  · exact ⟨.inl (Memory.read_write k v hwf), fun j hj => Memory.read_write_other hj v m⟩
  · refine ⟨.inr (Memory.read_write k w (Memory.wf_write k v hwf)), fun j hj => ?_⟩
    rw [Memory.read_write_other hj, Memory.read_write_other hj]

/-- A host read does not reach the running scan. -/
theorem scanAlike_read (s : State) (x d : Nat) : ScanAlike s { s with hostData := x, draws := d } :=
  ⟨_, _, _, _, _, _, rfl, fun _ => rfl⟩

/-- A side of an entry that its scan has yet to store is the entry's content, or the very value that the machine, in any state
alike, comes to store there in the same scan. -/
theorem entrySides_unstored_sound {k : Nat} {w : RomCode} (hscan : s.phase.isScan = true)
    (hr : raceAt k s.outRaces = none) (hw : w = (entrySides k s).1 ∨ w = (entrySides k s).2) (halike : ScanAlike s t) :
    w = s.out.read k ∨ ∃ n u r, runSteps n t = .next u ∧ raceAt k u.outRaces = some r ∧ r.scan = w ∧
      ∀ j ≤ n, ∃ x, runSteps j t = .next x ∧ x.phase.isScan = true := by
  rw [entrySides_unstored hr] at hw
  cases hv : valueToStore k (stepsAhead s) s with
  | none => exact .inl (by simpa [hv] using hw)
  | some ahead =>
    obtain rfl | rfl := hw
    · exact .inl rfl
    · exact .inr (by simpa [hv] using valueToStore_sound halike hscan hv)

/-- Settles O51, an access at a time: a write before the store, with the store at once after it, a write after the store, and a
read, whose value before the store is the one that running the scan ahead finds. -/
theorem racedEntryHoldsHostsOrScans : Obligations.RacedEntryHoldsHostsOrScans := by
  refine ⟨fun s k v rest hwf hown hr hi => ?_, fun s k v hwf hp hreq hbuf hc hk hr hi => ?_,
    fun s k v r rest hwf hown hr hi => ?_, fun s k rest hown hi => ?_⟩
  · obtain ⟨pins, hpins, hw⟩ := writeEntry_unstored (s := { s with inbox := rest }) v hown hr
    exact ⟨_, (step_of_writeOut hi).trans (congrArg _ hw), rfl, Memory.read_write k v hwf,
      fun j hj => ⟨Memory.read_write_other hj v s.out, hpins j hj⟩⟩
  · obtain ⟨pins, hpins, hw⟩ := writeEntry_unstored (s := { s with inbox := [] }) v (scanOwns_of_sStore hp hbuf hk) hr
    have hwrite := (step_of_writeOut hi).trans (congrArg _ hw)
    have hstore := step_of_sStore
      (s := { s with inbox := [], out := s.out.write k v, outPinned := pins, draws := s.draws + 1 }) rfl hreq hp hbuf hc hk
    rw [Memory.read_write k v hwf] at hstore
    obtain ⟨hentry, hothers⟩ := Memory.read_write_then_store (k := k) (v := v) (w := s.cur.cand) (pins := pins) hwf rfl
    exact ⟨_, (runSteps_of_step hwrite).trans (runSteps_of_step hstore), rfl, hentry,
      fun j hj => ⟨hothers j hj, hpins j hj⟩⟩
  · obtain ⟨w, hwv, hw⟩ := writeEntry_raced (s := { s with inbox := rest }) v hown hr
    refine ⟨_, (step_of_writeOut hi).trans (congrArg _ hw), rfl, ?_, raceAt_hostWrote v hr, fun j hj =>
      ⟨Memory.read_write_other hj w s.out, raceAt_hostWrote_other hj v s.outRaces⟩⟩
    rwa [Memory.read_write k w hwf]
  · obtain ⟨w, hw, hread⟩ := readEntry_owned (s := { s with inbox := rest }) hown
    refine ⟨_, (step_of_readOut hi).trans (congrArg _ hread), rfl, fun r hr => ?_, fun hr => ?_⟩
    · rw [entrySides_raced (s := { s with inbox := rest }) hr] at hw
      exact hw.imp (congrArg BitVec.toNat) (congrArg BitVec.toNat)
    · obtain rfl | ⟨n, u, r, hrun, hrace, rfl, hsteps⟩ :=
        entrySides_unstored_sound (s := { s with inbox := rest }) (isScan_of_scanOwns hown) hr hw
          (scanAlike_read _ w.toNat (s.draws + 1))
      · exact .inl rfl
      · exact .inr ⟨n, u, r, hrun, hrace, rfl, hsteps⟩

end Sys2Proof.Machine

/-! PROOFS. The statements about words and fields (spec/30_encoding.md): decoding and encoding, the reserved codes, the ROM code's
fields, stored branch points, and the reading of `RES_COUNT`. -/

/-! ## Instruction words (R65 to R68, R76) -/

namespace Sys2Proof

/-- An `OP` that decodes is the word of what it decodes to (R65). -/
theorem encode_of_decodeHost {op : HostOp} {i : Instr} (h : decodeHost op = .ok i) : encode i = .host op := by
  unfold decodeHost at h
  repeat' split at h
  all_goals cases h
  all_goals next hop => exact congrArg Request.host hop.symm

/-- Settles O2: `decode` undoes `encode` at every constructor. -/
theorem decodeOfEncodeIsTheInstruction : Obligations.DecodeOfEncodeIsTheInstruction := fun i _ => decode_encode i

/-- Settles O3, port by port. -/
theorem encodeOfDecodeIsTheWord : Obligations.EncodeOfDecodeIsTheWord := by
  intro r i h
  cases r with
  | host op => exact encode_of_decodeHost h
  | phy w => exact encode_of_decodePhy h

/-- Settles O1: each written-out word is decoded. -/
theorem writtenOutWordsDecode : Obligations.WrittenOutWordsDecode := by
  unfold Obligations.WrittenOutWordsDecode
  decide

/-- An `OP` is rejected exactly when it is 000, 110 or 111, and by its own name (R67). -/
theorem decodeHost_eq_error_iff {op : HostOp} {e : DecodeError} :
    decodeHost op = .error e ↔ (op = 0b000#3 ∨ op = 0b110#3 ∨ op = 0b111#3) ∧ e = .reservedOp op := by
  constructor
  · intro h
    unfold decodeHost at h
    repeat' split at h
    all_goals cases h
    exact ⟨by bv_omega, rfl⟩
  · rintro ⟨rfl | rfl | rfl, rfl⟩ <;> rfl

/-- A request word with `PRIM` 110 or 111 is none, whatever its `DATA` (R68). -/
theorem decodePhy_of_prim_reserved {w : PhyWord} (hp : primOf w = 0b110#3 ∨ primOf w = 0b111#3) :
    decodePhy w = .error (.primNeverIssued w) := by
  obtain hp | hp := hp <;> simp [decodePhy, hp]

/-- A value written to `CMD` that is a reserved code, or has more bits than `OP`, decodes to nothing (R65, R67). -/
theorem decodeCmdWrite_of_reserved {v : Nat} (hv : v = 0 ∨ 6 ≤ v) : ∃ e, decodeCmdWrite v = .error e := by
  unfold decodeCmdWrite
  split
  · have hop : v = 0 ∨ v = 6 ∨ v = 7 := by omega
    refine ⟨_, decodeHost_eq_error_iff.mpr ⟨?_, rfl⟩⟩
    obtain rfl | rfl | rfl := hop <;> decide
  · exact ⟨_, rfl⟩

end Sys2Proof

namespace Sys2Proof.Machine

variable {s : State}

/-- A write of `CMD` with a value that decodes to nothing is refused by name (R67; U2). -/
theorem step_of_undecodableCmdWrite {v : Nat} {e : DecodeError} {x : List Event}
    (hi : s.inbox = .host (.write .cmd v) :: x) (hd : decodeCmdWrite v = .error e) :
    step s = .refused (.undecodable e) := by
  rw [step_of_host hi]
  simp [hostAccess, writeCmd, hd]

/-- Settles O4, clause by clause: the reserved `OP`s, the reserved `PRIM`s, the host's write of a value that selects nothing. -/
theorem reservedCodesSelectNothing : Obligations.ReservedCodesSelectNothing := by
  refine ⟨fun op => ⟨?_, fun hop => ?_⟩, fun d => ⟨?_, ?_⟩, fun s v rest hi hv => ?_⟩
  · rintro ⟨e, he⟩
    exact (decodeHost_eq_error_iff.mp he).1
  · exact ⟨_, decodeHost_eq_error_iff.mpr ⟨hop, rfl⟩⟩
  · exact decodePhy_of_prim_reserved (.inl (primOf_phyWord _ d))
  · exact decodePhy_of_prim_reserved (.inr (primOf_phyWord _ d))
  · obtain ⟨e, he⟩ := decodeCmdWrite_of_reserved hv
    exact ⟨e, step_of_undecodableCmdWrite hi he⟩

/-! ## The reading of `RES_COUNT` (R75, R18) -/

/-- A count from 0 to the greatest is its own two's complement. -/
theorem countBits_of_nonneg {c : Config} {n : Int} (h0 : 0 ≤ n) (hmax : n ≤ c.countMax) : (countBits c n : Int) = n := by
  have hpow : 2 ^ (c.countW - 1) ≤ 2 ^ c.countW := Nat.pow_le_pow_right (by decide) (Nat.sub_le _ _)
  have hlt : n < ((2 ^ c.countW : Nat) : Int) := by
    unfold Config.countMax at hmax
    omega
  rw [countBits, Int.emod_eq_of_lt h0 hlt, Int.toNat_of_nonneg h0]

/-- The two's complement of -2 is all ones but bit 0, in a register of at least one bit. -/
theorem countBits_neg_two {c : Config} (hw : c.countW ≠ 0) : countBits c (-2) = 2 ^ c.countW - 2 := by
  have hpow : 2 ^ 1 ≤ 2 ^ c.countW := Nat.pow_le_pow_right (by decide) (Nat.one_le_iff_ne_zero.mpr hw)
  have hmod : (-2 : Int) % ((2 ^ c.countW : Nat) : Int) = ((2 ^ c.countW : Nat) : Int) - 2 := by
    rw [← Int.add_emod_right]
    exact (Int.emod_eq_of_lt (by omega) (by omega)).trans (by omega)
  rw [countBits, hmod]
  omega

theorem countBits_lt (c : Config) (n : Int) : countBits c n < 2 ^ c.countW := by
  have hpos : (0 : Int) < ((2 ^ c.countW : Nat) : Int) := by exact_mod_cast Nat.two_pow_pos c.countW
  have hlt := Int.emod_lt_of_pos n hpos
  unfold countBits
  omega

theorem countFits_iff {c : Config} {n : Int} : countFits c n = true ↔ -(c.countMax + 1) ≤ n ∧ n ≤ c.countMax := by
  simp [countFits, Config.countMax]

/-- With `BUSY = 0` a read of a count that the register holds returns its two's complement. -/
theorem readRegister_count_of_fits (hb : s.busy = false) (hf : countFits s.cfg s.res.count = true) :
    readRegister .resCount s = { s with hostData := countBits s.cfg s.res.count } := by
  simp [readRegister, registerValue, hb, hf]

/-- A read of a count that the register cannot hold returns a free value of its width (U11). -/
theorem readRegister_count_of_not_fits (hf : countFits s.cfg s.res.count = false) :
    readRegister .resCount s = { s with hostData := freeBits s.cfg.countW s, draws := s.draws + 1 } := by
  simp [readRegister, hf, HostReg.width]

/-- Settles O50, by whether `COUNT_W` bits hold the count: -2 and 0 up to the maximum are among those they hold. -/
theorem countReadsAsTwosComplement : Obligations.CountReadsAsTwosComplement := by
  intro s rest hb hwf hi
  have hw : 3 ≤ s.cfg.countW := of_decide_eq_true hwf
  have hmax := Config.countMax_ge hw
  cases hf : countFits s.cfg s.res.count with
  | true =>
    refine ⟨_, (step_of_read hi).trans (congrArg _ (readRegister_count_of_fits (s := { s with inbox := rest }) hb hf)),
      rfl, countBits_of_nonneg, fun hc => ?_, countBits_lt _ _⟩
    show countBits s.cfg s.res.count = _
    rw [hc]
    exact countBits_neg_two (by omega)
  | false =>
    have hnot : ¬(-(s.cfg.countMax + 1) ≤ s.res.count ∧ s.res.count ≤ s.cfg.countMax) := by
      rw [← countFits_iff, hf]
      decide
    refine ⟨_, (step_of_read hi).trans (congrArg _ (readRegister_count_of_not_fits (s := { s with inbox := rest }) hf)),
      rfl, fun h0 hle => absurd ⟨by omega, hle⟩ hnot, fun hc => absurd ⟨by omega, by omega⟩ hnot, freeBits_lt _ _⟩

/-! ## The fields of a ROM code (R61) -/

theorem family_getLsbD (r : RomCode) {i : Nat} (hi : i < 8) : (family r).getLsbD i = r.getLsbD i := by
  simp [family, hi]

theorem serial_getLsbD (r : RomCode) {i : Nat} (hi : i < 48) : (serial r).getLsbD i = r.getLsbD (8 + i) := by
  simp [serial, hi]

theorem crcField_getLsbD (r : RomCode) {i : Nat} (hi : i < 8) : (crcField r).getLsbD i = r.getLsbD (56 + i) := by
  simp [crcField, hi]

theorem payload_getLsbD (r : RomCode) {i : Nat} (hi : i < 56) : (payload r).getLsbD i = r.getLsbD i := by
  simp [payload, hi]

/-- The shifts and masks of `pack` lay the CRC above the serial above the family. -/
theorem pack_eq_append (f : Byte) (n : BitVec 48) (c : Byte) : pack f n c = c ++ (n ++ f) := by
  apply BitVec.eq_of_getLsbD_eq
  intro i hi
  unfold pack
  rw [BitVec.getLsbD_append, BitVec.getLsbD_append]
  obtain h | h | h : i < 8 ∨ (8 ≤ i ∧ i < 56) ∨ 56 ≤ i := by omega
  · simp [hi, h, show i < 56 by omega]
  · simp [hi, h, show ¬i < 8 by omega]
  · simp [hi, show ¬i < 8 by omega, show ¬i < 56 by omega, BitVec.getLsbD_of_ge f i (by omega),
      BitVec.getLsbD_of_ge n (i - 8) (by omega)]

theorem payload_eq_append (r : RomCode) : payload r = serial r ++ family r :=
  (BitVec.extractLsb'_append_extractLsb'_eq_extractLsb' (start₁ := 0) (len₁ := 8) (start₂ := 8) (len₂ := 48) rfl).symm

theorem pack_fields (r : RomCode) : pack (family r) (serial r) (crcField r) = r := by
  rw [pack_eq_append, ← payload_eq_append]
  exact BitVec.extractLsb'_append_extractLsb'

theorem family_pack (f : Byte) (n : BitVec 48) (c : Byte) : family (pack f n c) = f := by
  rw [pack_eq_append, family, BitVec.extractLsb'_append_eq_of_add_le (by decide),
    BitVec.extractLsb'_append_eq_of_add_le (by decide), BitVec.extractLsb'_eq_self]

theorem serial_pack (f : Byte) (n : BitVec 48) (c : Byte) : serial (pack f n c) = n := by
  rw [pack_eq_append, serial, BitVec.extractLsb'_append_eq_of_add_le (by decide)]
  exact BitVec.extractLsb'_append_eq_left

theorem crcField_pack (f : Byte) (n : BitVec 48) (c : Byte) : crcField (pack f n c) = c := by
  rw [pack_eq_append]
  exact BitVec.extractLsb'_append_eq_left

/-- Settles O59: `pack` and the accessors undo each other, and each accessor reads its own bits. -/
theorem romFieldsPackBack : Obligations.RomFieldsPackBack := fun r f n c =>
  ⟨pack_fields r, payload_eq_append r, family_pack f n c, serial_pack f n c, crcField_pack f n c,
    fun _ => family_getLsbD r, fun _ => serial_getLsbD r, fun _ => crcField_getLsbD r, fun _ => payload_getLsbD r⟩

/-! ## Stored branch points (R70, R14) -/

@[simp] theorem encodeBranch_none_toInt : (encodeBranch none).toInt = -1 := rfl

@[simp] theorem encodeBranch_some_toInt (i : Fin 64) : (encodeBranch (some i)).toInt = (i.val : Int) := by
  have hi : (encodeBranch (some i)).toNat = i.val := Nat.mod_eq_of_lt (by omega)
  rw [BitVec.toInt_eq_toNat_of_lt (by omega), hi]

/-- `i == BP` is equality of the signed numbers stored. -/
theorem atBranch_iff (i : Fin 64) (bp : Option (Fin 64)) :
    atBranch i bp = true ↔ (encodeBranch (some i)).toInt = (encodeBranch bp).toInt := by
  cases bp with
  | none =>
    have hi : (i.val : Int) ≠ -1 := by omega
    simp [atBranch, hi]
  | some j => simp [atBranch, Fin.ext_iff, eq_comm]

/-- `i > BP` is the order of the signed numbers stored. -/
theorem pastBranch_iff (i : Fin 64) (bp : Option (Fin 64)) :
    pastBranch i bp = true ↔ (encodeBranch bp).toInt < (encodeBranch (some i)).toInt := by
  cases bp with
  | none =>
    have hi : (-1 : Int) < i.val := by omega
    simp [pastBranch, hi]
  | some j => simp [pastBranch]

/-- Settles O60: the two stored values, then the two comparisons. -/
theorem branchPointsCompareAsSignedNumbers : Obligations.BranchPointsCompareAsSignedNumbers := fun i bp =>
  ⟨encodeBranch_none_toInt, encodeBranch_some_toInt i, atBranch_iff i bp, pastBranch_iff i bp⟩

end Sys2Proof.Machine

/-! PROOFS. The statements about the transport (spec/40_transport.md): the PHY's requests, the transport commands' phases, and each
of these commands from the write of `CMD` to completion. -/

namespace Sys2Proof.Machine

variable {s s0 : State}

/-! ## PHY requests (R80 to R87) -/

/-- A request that needs a mode completes when `STATUS.MODE` and the PHY's own mode are that mode (R87). -/
theorem transact_completes_in {i : Instr} {m : Mode} {v : Byte} (hm : s.mode = m) (hp : s.phy.mode = m) :
    transact i (some m) id v s = .next (finishTransaction i v s) :=
  transact_completes (hp.trans hm.symm) (modeAllows_some.mpr hm)

/-- No transaction completes while `STATUS.MODE` and the PHY's own mode differ (R176; U9). -/
theorem transact_of_modes_differ {i : Instr} {need : Option Mode} {effect : State → State} {v : Byte}
    (hm : s.phy.mode ≠ s.mode) : transact i need effect v s = .refused .phyModeDisagrees := if_pos hm

/-- A transaction that needs the other mode is refused (R87; U6). -/
theorem transact_of_wrong_mode {i : Instr} {m : Mode} {effect : State → State} {v : Byte} (hm : s.phy.mode = s.mode)
    (hne : s.mode ≠ m) : transact i (some m) effect v s = .refused .wrongTransportMode := by
  unfold transact
  rw [if_neg (not_not_intro hm), if_neg (mt modeAllows_some.mp hne)]

/-- Settles O10: in its mode each of the four transactions completes. -/
theorem bitAndByteRequestsComplete : Obligations.BitAndByteRequestsComplete :=
  ⟨fun _ _ hm hp => ⟨transact_completes_in hm hp, transact_completes_in hm hp⟩,
    fun _ _ hm hp => ⟨transact_completes_in hm hp, transact_completes_in hm hp⟩⟩

/-- Settles O11: a bus reset needs no mode. -/
theorem busResetCompletes : Obligations.BusResetCompletes := fun _ hm => transact_completes hm modeAllows_none

/-- Settles O12: a mode switch needs no mode, and its effect is on both copies. -/
theorem modeSwitchCompletes : Obligations.ModeSwitchCompletes :=
  fun _ hm => ⟨transact_completes hm modeAllows_none, transact_completes hm modeAllows_none⟩

/-- Settles O13: each request's transaction is refused, for the mode it needs or for the two copies that differ. -/
theorem requestsInTheWrongModeAreRefused : Obligations.RequestsInTheWrongModeAreRefused := by
  refine fun s b v => ⟨fun hm hbyte => ?_, fun hm hbit => ?_, fun hm i hi => ?_⟩
  · have hne : s.mode ≠ .bit := by simp [hbyte]
    exact ⟨transact_of_wrong_mode hm hne, transact_of_wrong_mode hm hne⟩
  · have hne : s.mode ≠ .byte := by simp [hbit]
    exact ⟨transact_of_wrong_mode hm hne, transact_of_wrong_mode hm hne⟩
  · simp only [List.mem_cons, List.not_mem_nil, or_false] at hi
    rcases hi with rfl | rfl | rfl | rfl | rfl | rfl | rfl <;> exact transact_of_modes_differ hm

/-! ## A phase with a transaction: the request it issues, the completion it takes (R22, R51) -/

/-- The phase's request does not depend on what the outside does next. -/
theorem phaseRequest_coreTurn (h : CoreTurn s s0) : phaseRequest s0 = phaseRequest s := by
  rw [coreTurn_fields h]
  rfl

/-- The core's turn with a free port puts the phase's request on it. -/
theorem step_issues {i : Instr} {w : PhyWord} (h : CoreTurn s s0) (hf : PortFree s) (hp : phaseRequest s = some i)
    (hw : encode i = .phy w) : step s = .next (issueWord i w s0) := by
  obtain ⟨hr, ha⟩ := hf
  have hs0 := coreTurn_fields h
  rw [step_of_coreTurn h, coreMove_issue (by rw [hs0]; exact hr) ((phaseRequest_coreTurn h).trans hp) (by rw [hs0]; exact ha),
    issue_of_encode hw]

/-- The core's turn with the phase's transaction completed takes its value. -/
theorem step_delivers {i : Instr} {v : Byte} (h : CoreTurn s s0) (hf : PortAnswered s v) (hp : phaseRequest s = some i) :
    step s = .next (phaseDone v (takeAck s0)) := by
  obtain ⟨hr, ha⟩ := hf
  have hs0 := coreTurn_fields h
  rw [step_of_coreTurn h, coreMove_done (by rw [hs0]; exact hr) ((phaseRequest_coreTurn h).trans hp) (by rw [hs0]; exact ha)]

theorem phaseRequest_xReset (hp : s.phase = .xReset) : phaseRequest s = some .phyResetAndSense := by
  simp [phaseRequest, hp]

theorem phaseRequest_xSend (hp : s.phase = .xSend) : phaseRequest s = some (.phySendByte s.lat.txb) := by
  simp [phaseRequest, hp]

theorem phaseRequest_xRead (hp : s.phase = .xRead) : phaseRequest s = some .phyReadByte := by
  simp [phaseRequest, hp]

theorem phaseDone_xReset (hp : s.phase = .xReset) (v : Byte) : phaseDone v s = xResetDone v s := by
  simp [phaseDone, hp]

theorem phaseDone_xSend (hp : s.phase = .xSend) (v : Byte) : phaseDone v s = xSendDone s := by
  simp [phaseDone, hp]

theorem phaseDone_xRead (hp : s.phase = .xRead) (v : Byte) : phaseDone v s = xReadDone v s := by
  simp [phaseDone, hp]

/-- Settles O14, phase by phase: the request it issues, and what it does with the completion. -/
theorem transportPhasesIssueAndComplete : Obligations.TransportPhasesIssueAndComplete := by
  intro s s0 v h
  have hphase : (takeAck s0).phase = s.phase := by rw [coreTurn_fields h]; rfl
  refine ⟨fun hp => ?_, fun hp => ?_, fun hp => ?_⟩
  · have hreq := phaseRequest_xReset hp
    exact ⟨fun hf => step_issues h hf hreq rfl,
      fun ha => (step_delivers h ha hreq).trans (congrArg _ (phaseDone_xReset (hphase.trans hp) v))⟩
  · have hreq := phaseRequest_xSend hp
    exact ⟨fun hf => step_issues h hf hreq rfl,
      fun ha => (step_delivers h ha hreq).trans (congrArg _ (phaseDone_xSend (hphase.trans hp) v))⟩
  · have hreq := phaseRequest_xRead hp
    exact ⟨fun hf => step_issues h hf hreq rfl,
      fun ha => (step_delivers h ha hreq).trans (congrArg _ (phaseDone_xRead (hphase.trans hp) v))⟩

/-! ## Whole commands (R89 to R91) -/

/-- The request `i` is outstanding, the outside's one action taken: its completion, with `v` on the answer lines. -/
def answeredRequest (i : Instr) (w : PhyWord) (v : Byte) (s : State) : State :=
  { issueWord i w s with inbox := [], phy := { s.phy with req := some w, din := v } }

/-- The request `i` was issued, completed with value `a` and taken, with `v` on the answer lines: what the phase goes on from. -/
def transactionDone (i : Instr) (v a : Byte) (s : State) : State :=
  { s with inbox := [], phy := { s.phy with din := v }, trace := .phy i a :: .issue i :: s.trace }

/-- A transaction leaves a free port free. -/
theorem takeAck_finishTransaction_answeredRequest (i : Instr) (w : PhyWord) (v a : Byte) (hf : PortFree s) :
    takeAck (finishTransaction i a (answeredRequest i w v s)) = transactionDone i v a s := by
  obtain ⟨hr, ha⟩ := hf
  simp [takeAck, finishTransaction, answeredRequest, transactionDone, hr, ha]

/-- A phase's transaction in three steps, where its completion is the outside's one action: issue, completion, delivery. -/
theorem runSteps_transaction {i : Instr} {w : PhyWord} {v a : Byte} (hi : s.inbox = [.phyDone v]) (hf : PortFree s)
    (hidle : s.phase ≠ .idle) (hp : phaseRequest s = some i) (hw : encode i = .phy w)
    (hx : exec i (answeredRequest i w v s) = .next (finishTransaction i a (answeredRequest i w v s))) :
    runSteps 3 s = .next (phaseDone a (transactionDone i v a s)) := by
  have hissue : step s = .next (issueWord i w s) :=
    step_issues (.inr (.inr (.inr (.inl ⟨v, [], hi, hf.1, hidle, rfl⟩)))) hf hp hw
  have hcomplete : step (issueWord i w s) = .next (finishTransaction i a (answeredRequest i w v s)) :=
    (step_of_phyDone (s := issueWord i w s) hi rfl (decode_of_encode hw)).trans hx
  have hdeliver := step_delivers (s := finishTransaction i a (answeredRequest i w v s)) (v := a) (.inl ⟨rfl, rfl⟩)
    ⟨rfl, rfl⟩ hp
  rw [takeAck_finishTransaction_answeredRequest i w v a hf] at hdeliver
  rw [runSteps_of_step hissue, runSteps_of_step hcomplete, runSteps_of_step hdeliver, runSteps_zero]

/-- The one-bit answer read back as a truth value is bit 0 of the answer lines. -/
@[simp] theorem bitOfAnswer_answerBit (s : State) : bitOfAnswer (answerBit s) = s.phy.din.getLsbD 0 := by
  unfold bitOfAnswer answerBit
  cases s.phy.din.getLsbD 0 <;> rfl

/-- Settles O15: the write of `CMD` is accepted, the phase's transaction runs, and its delivery leaves the core in `IDLE`, where
it was. -/
theorem transportCommandsRunToCompletion : Obligations.TransportCommandsRunToCompletion := by
  intro s v hp hm hr
  obtain ⟨hpm, hreq, hack, -⟩ := phyReady_iff.mp hr
  obtain ⟨hreset, hsend, hread⟩ := transportCommandsAreAccepted { s with inbox := [.phyDone v] } hp hr
  refine ⟨fun hi => ?_, fun hi => ?_, fun hi => ?_⟩
  · rw [runSteps_of_step ((step_of_cmdWrite hi rfl).trans hreset), hp]
    refine Eq.trans (runSteps_transaction rfl ⟨hreq, hack⟩ (by simp) (phaseRequest_xReset rfl) rfl
      (transact_completes (hpm.trans hm.symm) modeAllows_none)) ?_
    rw [phaseDone_xReset rfl, xResetDone, bitOfAnswer_answerBit]
    rfl
  · rw [runSteps_of_step ((step_of_cmdWrite hi rfl).trans hsend), hp]
    exact runSteps_transaction rfl ⟨hreq, hack⟩ (by simp) (phaseRequest_xSend rfl) rfl (transact_completes_in hm hpm)
  · rw [runSteps_of_step ((step_of_cmdWrite hi rfl).trans hread), hp]
    exact runSteps_transaction rfl ⟨hreq, hack⟩ (by simp) (phaseRequest_xRead rfl) rfl (transact_completes_in hm hpm)

end Sys2Proof.Machine

/-! PROOFS. The statements about the CRC (spec/41_crc.md): the step, the function and its linearity, what corruption it detects, and
CHECKCRC from the write of `CMD` to completion. -/

namespace Sys2Proof.Machine

/-! ## The step (R100) -/

theorem crcStep_of_feedback {c : Byte} {x : Bool} (h : (x ^^ c.getLsbD 0) = true) :
    crcStep c x = (c >>> 1) ^^^ crcMask := if_pos h

theorem crcStep_of_no_feedback {c : Byte} {x : Bool} (h : (x ^^ c.getLsbD 0) = false) : crcStep c x = c >>> 1 :=
  if_neg (ne_true_of_eq_false h)

/-- The shift of R100 is logical. -/
theorem ushiftRight_one_getLsbD_seven (c : Byte) : (c >>> 1).getLsbD 7 = false := by
  rw [BitVec.getLsbD_ushiftRight]
  exact BitVec.getLsbD_of_ge c 8 le_rfl

/-- Settles O53, by whether the input bit differs from bit 0. -/
theorem crcStepShiftsAndFeedsBack : Obligations.CrcStepShiftsAndFeedsBack :=
  fun c _ => ⟨crcStep_of_feedback, crcStep_of_no_feedback, ushiftRight_one_getLsbD_seven c⟩

/-- What the step exclusive-ors into the shifted register, by its feedback bit (R100). -/
def crcFeedback (b : Bool) : Byte := if b then crcMask else 0#8

theorem crcFeedback_xor (a b : Bool) : crcFeedback (a ^^ b) = crcFeedback a ^^^ crcFeedback b := by
  cases a <;> cases b <;> rfl

theorem crcStep_eq_shift_xor_feedback (c : Byte) (x : Bool) :
    crcStep c x = (c >>> 1) ^^^ crcFeedback (x ^^ c.getLsbD 0) := by
  cases h : x ^^ c.getLsbD 0 with
  | true => exact crcStep_of_feedback h
  | false => simpa [crcFeedback] using crcStep_of_no_feedback h

/-- The step is linear: the shift, bit 0 and the feedback each are. -/
theorem crcStep_xor (c d : Byte) (x y : Bool) : crcStep (c ^^^ d) (x ^^ y) = crcStep c x ^^^ crcStep d y := by
  have hbit : ((x ^^ y) ^^ (c ^^^ d).getLsbD 0) = ((x ^^ c.getLsbD 0) ^^ (y ^^ d.getLsbD 0)) := by
    rw [BitVec.getLsbD_xor, Bool.xor_assoc, Bool.xor_left_comm y, ← Bool.xor_assoc]
  simp only [crcStep_eq_shift_xor_feedback]
  rw [hbit, crcFeedback_xor, BitVec.ushiftRight_xor_distrib]
  ac_rfl

/-- The mask sets bit 7, which the shift has cleared: it shows whether the step fed back. -/
theorem crcStep_getLsbD_seven (c : Byte) (x : Bool) : (crcStep c x).getLsbD 7 = (x ^^ c.getLsbD 0) := by
  rw [crcStep_eq_shift_xor_feedback, BitVec.getLsbD_xor, ushiftRight_one_getLsbD_seven, Bool.false_xor]
  cases x ^^ c.getLsbD 0 <;> rfl

/-- No register but 0 is taken to 0 by a bit 0: it does not feed back, so bit 0 is 0, and the other bits are those shifted. -/
theorem crcStep_false_eq_zero_iff {c : Byte} : crcStep c false = 0#8 ↔ c = 0#8 := by
  constructor
  · intro h
    have hbit : c.getLsbD 0 = false := by simpa [h] using (crcStep_getLsbD_seven c false).symm
    have hshift : c >>> 1 = 0#8 := by rw [← crcStep_of_no_feedback (x := false) (by simpa using hbit), h]
    apply BitVec.eq_of_getLsbD_eq
    rintro (_ | i) -
    · exact hbit
    · simpa [Nat.add_comm] using congrArg (BitVec.getLsbD · i) hshift
  · rintro rfl
    rfl

/-- For a given input bit the step loses nothing of the register. -/
theorem crcStep_left_inj {c d : Byte} (x : Bool) : crcStep c x = crcStep d x ↔ c = d := by
  rw [← BitVec.xor_eq_zero_iff, ← crcStep_xor, Bool.xor_self, crcStep_false_eq_zero_iff, BitVec.xor_eq_zero_iff]

/-! ## The register after some bits (R101) -/

section

variable {w w' : Nat}

@[simp] theorem crcAfter_zero_right (v : BitVec w) : crcAfter v 0 = 0#8 := rfl

theorem crcAfter_succ (v : BitVec w) (n : Nat) : crcAfter v (n + 1) = crcStep (crcAfter v n) (v.getLsbD n) := rfl

theorem crcAfter_eq_foldl (v : BitVec w) (n : Nat) :
    crcAfter v n = (List.range n).foldl (fun c k => crcStep c (v.getLsbD k)) 0#8 := by
  induction n with
  | zero => rfl
  | succ n ih => simp [crcAfter_succ, List.range_succ, ih]

/-- The register depends on the bits consumed only. -/
theorem crcAfter_congr {v : BitVec w} {u : BitVec w'} {n : Nat} (h : ∀ i < n, v.getLsbD i = u.getLsbD i) :
    crcAfter v n = crcAfter u n := by
  induction n with
  | zero => rfl
  | succ n ih => rw [crcAfter_succ, crcAfter_succ, ih fun i hi => h i (by omega), h n n.lt_succ_self]

theorem crcAfter_xor (v u : BitVec w) (n : Nat) : crcAfter (v ^^^ u) n = crcAfter v n ^^^ crcAfter u n := by
  induction n with
  | zero => exact BitVec.xor_self.symm
  | succ n ih => simp only [crcAfter_succ, ih, BitVec.getLsbD_xor, crcStep_xor]

/-- The bits of 0 leave the register at 0. -/
theorem crcAfter_zero_left (n : Nat) : crcAfter 0#w n = 0#8 := by
  induction n with
  | zero => rfl
  | succ n ih => rw [crcAfter_succ, ih, BitVec.getLsbD_zero, crcStep_false_eq_zero_iff]

/-- The single bit `k` takes the register off 0 when it is consumed, and the bits 0 after it never bring it back. -/
theorem crcAfter_twoPow_eq_zero_iff {k : Nat} (hk : k < w) (n : Nat) : crcAfter (BitVec.twoPow w k) n = 0#8 ↔ n ≤ k := by
  induction n with
  | zero => simp
  | succ n ih =>
    rw [crcAfter_succ, BitVec.getLsbD_twoPow]
    by_cases hn : k = n
    · subst hn
      have hzero : crcAfter (BitVec.twoPow w k) k = 0#8 := ih.mpr le_rfl
      have hstep : crcStep 0#8 true ≠ 0#8 := by decide
      simp [hzero, hk, hstep]
    · simp only [hn, decide_false, Bool.and_false, crcStep_false_eq_zero_iff, ih]
      omega

end

/-! ## `crc8` and `checkCrc` (R101, R102) -/

/-- Settles O54: the register after any number of bits is the fold, from 0. -/
theorem crcConsumesThePayloadLowBitFirst : Obligations.CrcConsumesThePayloadLowBitFirst := fun p => crcAfter_eq_foldl p 56

/-- Settles O56: the step, the register after 56 bits, the register after 56 bits 0. -/
theorem crcIsLinear : Obligations.CrcIsLinear := ⟨crcStep_xor, fun p q => crcAfter_xor p q 56, crcAfter_zero_left 56⟩

theorem checkCrc_iff {rom : RomCode} : checkCrc rom = true ↔ crc8 (payload rom) = crcField rom := by simp [checkCrc]

/-- The 56 bits consumed from a code are its payload. -/
theorem crcAfter_eq_crc8_payload (rom : RomCode) : crcAfter rom 56 = crc8 (payload rom) :=
  crcAfter_congr fun _ hi => (payload_getLsbD rom hi).symm

theorem payload_pack (f : Byte) (n : BitVec 48) (c : Byte) : payload (pack f n c) = n ++ f := by
  rw [payload_eq_append, serial_pack, family_pack]

/-- Settles O55: the packed code's payload and `crc` field are what was packed. -/
theorem onlyTheComputedCrcPasses : Obligations.OnlyTheComputedCrcPasses := by
  intro f n c
  rw [checkCrc_iff, payload_pack, crcField_pack, eq_comm]

/-! ## The residue over all 64 bits (R105(c), (d)) -/

/-- A register that holds what is left of the `crc` field meets its own bit 0, so it is shifted without feedback; and no other
register is taken there. -/
theorem crcAfter_add_eq_shift_iff (rom : RomCode) {k : Nat} (hk : k ≤ 8) :
    crcAfter rom (56 + k) = crcField rom >>> k ↔ crcAfter rom 56 = crcField rom := by
  induction k with
  | zero => simp
  | succ k ih =>
    have hbit : rom.getLsbD (56 + k) = (crcField rom >>> k).getLsbD 0 := by
      rw [BitVec.getLsbD_ushiftRight, crcField_getLsbD rom (by omega), Nat.add_zero]
    have hshift : crcField rom >>> (k + 1) = crcStep (crcField rom >>> k) (rom.getLsbD (56 + k)) := by
      rw [crcStep_of_no_feedback (by rw [hbit, Bool.xor_self]), BitVec.shiftRight_add]
    rw [← Nat.add_assoc, crcAfter_succ, hshift, crcStep_left_inj, ih (by omega)]

/-- The last 8 bits, the `crc` field, take the register to 0 from the field's own value only. -/
theorem crcAfter_all_eq_zero_iff (rom : RomCode) : crcAfter rom 64 = 0#8 ↔ checkCrc rom = true := by
  have hempty : crcField rom >>> 8 = 0#8 := BitVec.ushiftRight_eq_zero le_rfl
  rw [checkCrc_iff, ← crcAfter_eq_crc8_payload, ← crcAfter_add_eq_shift_iff rom le_rfl, hempty]

/-- Settles O58: what the `crc` field, consumed last, leaves. -/
theorem crcResidueIsZeroExactlyForValidCodes : Obligations.CrcResidueIsZeroExactlyForValidCodes := crcAfter_all_eq_zero_iff

/-- Settles O57: the flipped code's residue is that of the single bit, which is not 0. -/
theorem singleBitCorruptionIsDetected : Obligations.SingleBitCorruptionIsDetected := by
  intro rom k hk hvalid
  rw [← crcAfter_all_eq_zero_iff] at hvalid
  rw [← Bool.not_eq_true, ← crcAfter_all_eq_zero_iff, crcAfter_xor, hvalid, BitVec.zero_xor,
    crcAfter_twoPow_eq_zero_iff hk]
  omega

/-! ## CHECKCRC (R102, R103) -/

variable {s s0 : State}

/-- The core's turn in `K_RUN` runs it. -/
theorem step_kRun (h : CoreTurn s s0) (hp : s.phase = .kRun) (hr : s.phy.req = none) : step s = .next (kRun s0) := by
  have hs0 := coreTurn_fields h
  have hp0 : s0.phase = .kRun := by rw [hs0]; exact hp
  rw [step_of_coreTurn h, coreMove_phaseStep (by rw [hs0]; exact hr) (by simp [phaseRequest, hp0])]
  simp [phaseStep, hp0]

/-- `K_RUN` compares `crc8` of the latched code's payload with its `crc` field. -/
theorem kRun_eq (s : State) : kRun s = { s with
    busy := false, phase := .idle, crc := { crc := crc8 (payload s.lat.rom), kidx := 55 }
    res := { s.res with crcok := checkCrc s.lat.rom } } := by
  rw [kRun, crcAfter_eq_crc8_payload]
  rfl

/-- Settles O16: the write of `CMD` is accepted, then `K_RUN` runs on the latched `ARG_ROM` and leaves the core in `IDLE`, where it
was. -/
theorem checkcrcRunsToCompletion : Obligations.CheckcrcRunsToCompletion := by
  intro s hp hreq hi
  have haccept := (step_of_cmdWrite hi rfl).trans (checkcrcIsAccepted { s with inbox := [] } hp)
  have hrun := step_kRun (s := accept 0b101#3 .kRun (latchRom { s with inbox := [] })) (.inl ⟨rfl, rfl⟩) rfl hreq
  rw [runSteps_of_step haccept, hp]
  exact (runSteps_of_step hrun).trans (congrArg _ (kRun_eq _))

end Sys2Proof.Machine

/-! PROOFS. The statements about the search (spec/42_search.md): the search's invariants, the phases of SCAN, what R128
counts, and whole scans. -/

/-! ## The search's invariants (R111, R129, R131) -/

namespace Sys2Proof.Machine

variable {s t : State}

/-- The loop condition with its bound (R114). -/
theorem anotherPass_iff :
    anotherPass s = true ↔ s.cur.fin = false ∧ (s.lat.maxdev = 0 ∨ s.cur.count < (s.lat.maxdev : Int)) := by
  simp [anotherPass]

/-- The entries that a scan has stored after `COUNT` passes, the newest first (R131). -/
def storedEntries (s : State) : List Nat :=
  (List.range (if s.lat.bufen then min s.cur.count.toNat s.lat.cap else 0)).reverse

/-! ### Where a scan can be -/

/-- Outside a scan the search's invariants say nothing. -/
theorem SearchInv.outside (hp : s.phase.isScan = false) : SearchInv s := by
  cases hq : s.phase with
  | idle | xReset | xSend | xRead | kRun => constructor <;> simp [hq, Phase.inPasses]
  | _ => simp [hq, Phase.isScan] at hp

/-- At its exit a scan is within its bound. -/
theorem SearchInv.exiting (hp : s.phase = .sExit) (hb : s.lat.maxdev ≠ 0 → s.cur.count ≤ (s.lat.maxdev : Int)) :
    SearchInv s := by
  constructor <;> simp [hp, Phase.inPasses]
  exact hb

/-- Between two passes: `NBP` is known from the second on, the count is within its bound, the first entries are stored. -/
theorem SearchInv.checking (hp : s.phase = .sCheck) (hn : s.cur.fin = false → s.cur.count = 0 ∨ s.cur.nbp.isSome = true)
    (hb : s.lat.maxdev ≠ 0 → s.cur.count ≤ (s.lat.maxdev : Int)) (hc : 0 ≤ s.cur.count)
    (hs : s.outRaces.map Race.entry = storedEntries s) : SearchInv s := by
  constructor <;> simp [hp, Phase.inPasses]
  · exact hn
  · exact hb
  · exact ⟨hc, hs⟩

/-- The phases of a pass, once `BP` is set. -/
def passPhases : List Phase := [.sReset, .sCmd, .sReadA, .sReadB, .sDecide, .sWrite, .sStore]

/-- Within a pass: a cleared `FIN` has recorded `NBP`, only the first pass has no `BP`, the bound leaves room for one more. -/
theorem SearchInv.passing (hp : s.phase ∈ passPhases) (hn : s.cur.fin = false → s.cur.nbp.isSome = true)
    (hbp : s.cur.bp = none → s.cur.count = 0) (hb : s.lat.maxdev ≠ 0 → s.cur.count < (s.lat.maxdev : Int))
    (hc : 0 ≤ s.cur.count) (hs : s.outRaces.map Race.entry = storedEntries s) : SearchInv s where
  branchAfterFirst := by rintro (hq | hq) <;> simp [hq, passPhases] at hp
  beginUnfinished hq := by simp [hq, passPhases] at hp
  clearedRecords _ := hn
  rootOnlyFirst _ := hbp
  bounded _ hm := (hb hm).le
  boundedInPass _ _ := hb
  storedPrefix _ := ⟨hc, hs⟩
  entered hq := by simp [hq, passPhases] at hp

/-- What the invariants say within a pass. -/
theorem SearchInv.of_passPhases (h : SearchInv s) (hp : s.phase ∈ passPhases) :
    (s.cur.fin = false → s.cur.nbp.isSome = true) ∧ (s.cur.bp = none → s.cur.count = 0) ∧
      (s.lat.maxdev ≠ 0 → s.cur.count < (s.lat.maxdev : Int)) ∧ 0 ≤ s.cur.count ∧
      s.outRaces.map Race.entry = storedEntries s := by
  have hin : s.phase.inPasses = true ∧ s.phase ≠ .sCheck := by
    simp only [passPhases, List.mem_cons, List.not_mem_nil, or_false] at hp
    obtain hp | hp | hp | hp | hp | hp | hp := hp <;> simp [hp, Phase.inPasses]
  obtain ⟨hc, hs⟩ := h.storedPrefix hin.1
  exact ⟨h.clearedRecords hp, h.rootOnlyFirst hp, h.boundedInPass hin.1 hin.2, hc, hs⟩

/-- The search's invariants rest on the phase, the cursor, the latched operands and the indices of the races. -/
theorem SearchInv.congr (h : SearchInv s) (hp : t.phase = s.phase) (hc : t.cur = s.cur) (hl : t.lat = s.lat)
    (hr : t.outRaces.map Race.entry = s.outRaces.map Race.entry) : SearchInv t := by
  constructor
  · simpa only [hp, hc] using h.branchAfterFirst
  · simpa only [hp, hc] using h.beginUnfinished
  · simpa only [hp, hc] using h.clearedRecords
  · simpa only [hp, hc] using h.rootOnlyFirst
  · simpa only [hp, hc, hl] using h.bounded
  · simpa only [hp, hc, hl] using h.boundedInPass
  · simpa only [hp, hc, hl, hr] using h.storedPrefix
  · intro hq
    rw [hp] at hq
    simpa [h.entered hq] using hr

/-! ### Who acts -/

/-- A store adds the entry `COUNT`, which the next count includes. -/
theorem storedEntries_of_stores (hc : storesCandidate s = true) :
    (List.range (if s.lat.bufen then min (s.cur.count + 1).toNat s.lat.cap else 0)).reverse =
      s.cur.count.toNat :: storedEntries s := by
  obtain ⟨hb, h0, hroom⟩ := storesCandidate_iff.mp hc
  have hn : min (s.cur.count + 1).toNat s.lat.cap = min s.cur.count.toNat s.lat.cap + 1 := by omega
  have hk : min s.cur.count.toNat s.lat.cap = s.cur.count.toNat := by omega
  rw [storedEntries, if_pos hb, if_pos hb, hn, List.range_succ, List.reverse_append, hk]
  rfl

/-- Without a store the count goes past what the buffer takes. -/
theorem storedEntries_of_not_stores (h0 : 0 ≤ s.cur.count) (hc : storesCandidate s = false) :
    (List.range (if s.lat.bufen then min (s.cur.count + 1).toNat s.lat.cap else 0)).reverse = storedEntries s := by
  rw [storedEntries]
  cases hb : s.lat.bufen with
  | false => rfl
  | true =>
    have hroom : ¬s.cur.count < (s.lat.cap : Int) := fun h => by simp [storesCandidate, hb, h0, h] at hc
    have hn : min (s.cur.count + 1).toNat s.lat.cap = min s.cur.count.toNat s.lat.cap := by omega
    rw [hn]

/-- A move of the core keeps the search's invariants. -/
theorem CoreMoves.searchInv (h : CoreMoves s t) (hS : SearchInv s) : SearchInv t := by
  cases h with
  | stay | issue => exact hS.congr rfl rfl rfl rfl
  | xReset | xSend | xRead | kRun | sExit => exact .outside rfl
  | sEnter v hr ha hp =>
    exact .checking rfl (fun _ => .inl rfl) (fun _ => Int.natCast_nonneg _) le_rfl (by simp [storedEntries, hS.entered hp])
  | anotherPass hr hp hc =>
    obtain ⟨hfin, hb⟩ := anotherPass_iff.mp hc
    have hin : s.phase.inPasses = true := by rw [hp]; rfl
    exact {
      branchAfterFirst := fun _ => hS.branchAfterFirst (.inl hp)
      beginUnfinished := fun _ => hfin
      clearedRecords := fun hq => by simp at hq
      rootOnlyFirst := fun hq => by simp at hq
      bounded := fun _ => hS.bounded (.inl hin)
      boundedInPass := fun _ _ hm => hb.resolve_left hm
      storedPrefix := fun _ => hS.storedPrefix hin
      entered := fun hq => by simp at hq }
  | lastPass hr hp => exact .exiting rfl (hS.bounded (.inl (by rw [hp]; rfl)))
  | sBegin hr hp =>
    have hin : s.phase.inPasses = true := by rw [hp]; rfl
    obtain ⟨hc, hs⟩ := hS.storedPrefix hin
    have hroot : s.cur.nbp = none → s.cur.count = 0 := fun hn =>
      (hS.branchAfterFirst (.inr hp) (hS.beginUnfinished hp)).resolve_right (by simp [hn])
    exact .passing (by simp [passPhases]) (by simp) hroot (hS.boundedInPass hin (by simp [hp])) hc hs
  | present v hr ha hp | lastCommandBit v hr ha hp | sReadA v hr ha hp | sReadB v hr ha hp | sendDirection d hr hp
  | nextIndex v hr ha hp | lastIndex v hr ha hp =>
    obtain ⟨hn, hbp, hb, hc, hs⟩ := hS.of_passPhases (by simp [hp, passPhases])
    exact .passing (by simp [passPhases]) hn hbp hb hc hs
  | nextCommandBit v hr ha hp =>
    obtain ⟨hn, hbp, hb, hc, hs⟩ := hS.of_passPhases (by simp [hp, passPhases])
    exact .passing (by simp [hp, passPhases]) hn hbp hb hc hs
  | zeroBranch hr hp =>
    obtain ⟨-, hbp, hb, hc, hs⟩ := hS.of_passPhases (by simp [hp, passPhases])
    exact .passing (by simp [passPhases]) (fun _ => rfl) hbp hb hc hs
  | noDevice => exact .exiting rfl fun _ => Int.natCast_nonneg _
  | inconsistency => exact .exiting rfl fun _ => (show (-2 : Int) ≤ 0 by decide).trans (Int.natCast_nonneg _)
  | countOnly hr hp hst =>
    obtain ⟨hn, -, hb, hc, hs⟩ := hS.of_passPhases (by simp [hp, passPhases])
    exact .checking rfl (fun hf => .inr (hn hf)) hb (hc.trans (Int.le_add_one le_rfl))
      (hs.trans (storedEntries_of_not_stores hc hst).symm)
  | store hr hp hst =>
    obtain ⟨hn, -, hb, hc, hs⟩ := hS.of_passPhases (by simp [hp, passPhases])
    refine .checking rfl (fun hf => .inr (hn hf)) hb (hc.trans (Int.le_add_one le_rfl)) ?_
    rw [List.map_cons, hs]
    exact (storedEntries_of_stores hst).symm

/-- An access of the host keeps the search's invariants: SCAN starts with no store on record, and a write of an entry changes no
race's index. -/
theorem HostMoves.searchInv {a : HostAccess} (h : HostMoves a s t) (hS : SearchInv s) : SearchInv t := by
  cases h with
  | turnedAway | register | read => exact hS.congr rfl rfl rfl rfl
  | accepted op first latch hp hl =>
    obtain ⟨rfl, rfl, -⟩ | ⟨rfl, rfl, -⟩ | ⟨rfl, rfl, -⟩ | ⟨rfl, rfl, -⟩ | ⟨rfl, rfl⟩ := hl
    case inr.inr.inr.inl => constructor <;> simp [Phase.inPasses]
    all_goals exact .outside rfl
  | entry k v w p q d ha hw hq =>
    refine hS.congr rfl rfl rfl ?_
    obtain rfl | rfl := hq
    · rfl
    · exact hostWrote_map_entry k v s.outRaces

/-- A completing transaction reaches nothing that the search's invariants speak of. -/
theorem PhyMoves.searchInv {i : Instr} (h : PhyMoves i s t) (hS : SearchInv s) : SearchInv t := by
  cases h <;> exact hS.congr rfl rfl rfl rfl

/-- Settles O36: by who acts in the step; a move of the core by the phase it leads to. -/
theorem everyStepKeepsTheSearchInvariant : Obligations.EveryStepKeepsTheSearchInvariant := by
  intro s t hS h
  cases step_moves h with
  | core x t h => exact h.searchInv (hS.congr rfl rfl rfl rfl)
  | pop | phyInit => exact hS.congr rfl rfl rfl rfl
  | host a x t hi h => exact h.searchInv (hS.congr rfl rfl rfl rfl)
  | phy v x w i t hi hr hd h => exact h.searchInv (hS.congr rfl rfl rfl rfl)
  | coreReset => exact .outside rfl

end Sys2Proof.Machine

/-! ## SCAN, phase by phase (R113 to R127) -/

namespace Sys2Proof.Machine

variable {s s0 : State}

/-! ### What each phase asks of the PHY, and what it does with the completion -/

theorem phaseRequest_sEnter (hp : s.phase = .sEnter) : phaseRequest s = some .phySetModeBit := by
  simp [phaseRequest, hp]

theorem phaseRequest_sReset (hp : s.phase = .sReset) : phaseRequest s = some .phyResetAndSense := by
  simp [phaseRequest, hp]

theorem phaseRequest_sCmd (hp : s.phase = .sCmd) :
    phaseRequest s = some (.phySendBit (bitOperand (searchCommandBit s))) := by
  simp [phaseRequest, hp]

theorem phaseRequest_sRead (hp : s.phase = .sReadA ∨ s.phase = .sReadB) : phaseRequest s = some .phyReadBit := by
  obtain hp | hp := hp <;> simp [phaseRequest, hp]

theorem phaseRequest_sWrite (hp : s.phase = .sWrite) : phaseRequest s = some (.phySendBit (bitOperand s.cur.dir)) := by
  simp [phaseRequest, hp]

theorem phaseRequest_sExit (hp : s.phase = .sExit) : phaseRequest s = some .phySetModeByte := by
  simp [phaseRequest, hp]

/-- The phases of a scan that make no request (R22). -/
theorem phaseRequest_internal (hp : s.phase ∈ [.sCheck, .sBegin, .sDecide, .sStore]) : phaseRequest s = none := by
  simp only [List.mem_cons, List.not_mem_nil, or_false] at hp
  obtain hp | hp | hp | hp := hp <;> simp [phaseRequest, hp]

/-- The request word of `sendBit` on the port (R68, R82). -/
theorem encode_sendBit (b : Bool) : encode (.phySendBit (bitOperand b)) = .phy (0b0100000000#10 ++ BitVec.ofBool b) :=
  congrArg _ (sendBit_word b)

theorem phaseDone_sEnter (hp : s.phase = .sEnter) (v : Byte) : phaseDone v s = sEnterDone s := by simp [phaseDone, hp]

theorem phaseDone_sReset (hp : s.phase = .sReset) (v : Byte) : phaseDone v s = sResetDone v s := by simp [phaseDone, hp]

theorem phaseDone_sCmd (hp : s.phase = .sCmd) (v : Byte) : phaseDone v s = sCmdDone s := by simp [phaseDone, hp]

theorem phaseDone_sReadA (hp : s.phase = .sReadA) (v : Byte) : phaseDone v s = sReadADone v s := by simp [phaseDone, hp]

theorem phaseDone_sReadB (hp : s.phase = .sReadB) (v : Byte) : phaseDone v s = sReadBDone v s := by simp [phaseDone, hp]

theorem phaseDone_sWrite (hp : s.phase = .sWrite) (v : Byte) : phaseDone v s = sWriteDone s := by simp [phaseDone, hp]

theorem phaseDone_sExit (hp : s.phase = .sExit) (v : Byte) : phaseDone v s = sExitDone s := by simp [phaseDone, hp]

theorem phaseStep_sCheck (hp : s.phase = .sCheck) : phaseStep s = .next (sCheck s) := by simp [phaseStep, hp]

theorem phaseStep_sBegin (hp : s.phase = .sBegin) : phaseStep s = .next (sBegin s) := by simp [phaseStep, hp]

theorem phaseStep_sDecide (hp : s.phase = .sDecide) : phaseStep s = .next (sDecide s) := by simp [phaseStep, hp]

theorem phaseStep_sStore (hp : s.phase = .sStore) : phaseStep s = sStore s := by simp [phaseStep, hp]

/-- The core's turn in a phase of a scan without a transaction runs that phase. -/
theorem step_internal (h : CoreTurn s s0) (hp : s.phase ∈ [.sCheck, .sBegin, .sDecide, .sStore])
    (hr : s.phy.req = none) : step s = phaseStep s0 := by
  rw [step_of_coreTurn h, coreMove_phaseStep (by rw [coreTurn_fields h]; exact hr)
    ((phaseRequest_coreTurn h).trans (phaseRequest_internal hp))]

theorem phase_coreTurn (h : CoreTurn s s0) : s0.phase = s.phase := by rw [coreTurn_fields h]

/-- The core's turn with the phase's transaction completed, given what the phase does with it. -/
theorem step_delivers_done {i : Instr} {v : Byte} {p : Phase} {f : State → State} (h : CoreTurn s s0)
    (ha : PortAnswered s v) (hi : phaseRequest s = some i) (hp : s.phase = p)
    (hf : ∀ {u : State}, u.phase = p → phaseDone v u = f u) : step s = .next (f (takeAck s0)) :=
  (step_delivers h ha hi).trans (congrArg _ (hf ((phase_coreTurn h).trans hp)))

/-! ### Entry, loop condition, start of a pass -/

/-- Settles O17: the phase's request, and `S_ENTER` on its completion. -/
theorem scanEntryInitialisesTheCursor : Obligations.ScanEntryInitialisesTheCursor := by
  intro s s0 v h hp
  have hreq := phaseRequest_sEnter hp
  exact ⟨fun hf => step_issues h hf hreq rfl, fun ha => step_delivers_done h ha hreq hp (phaseDone_sEnter · v)⟩

/-- Settles O18: `S_CHECK` takes the branch of the loop condition, which the inbox does not enter. -/
theorem loopConditionChoosesPassOrExit : Obligations.LoopConditionChoosesPassOrExit := by
  intro s s0 h hp hr
  have hstep : step s = .next { s0 with phase := if anotherPass s then .sBegin else .sExit } := by
    rw [step_internal h (by simp [hp]) hr, phaseStep_sCheck ((phase_coreTurn h).trans hp), coreTurn_fields h]
    rfl
  rw [← anotherPass_iff, hstep]
  exact ⟨fun hc => by rw [if_pos hc], fun hc => by rw [if_neg hc]⟩

/-- Settles O19: `S_BEGIN` is these assignments. -/
theorem passBeginsAtTheRecordedBranch : Obligations.PassBeginsAtTheRecordedBranch :=
  fun _ _ h hp hr => (step_internal h (by simp [hp]) hr).trans (phaseStep_sBegin ((phase_coreTurn h).trans hp))

/-! ### The bus reset and the search command -/

/-- Settles O20: the phase's request, and `S_RESET` on either answer. -/
theorem failedBusResetEndsTheScan : Obligations.FailedBusResetEndsTheScan := by
  intro s s0 v h hp
  have hreq := phaseRequest_sReset hp
  have hdone : PortAnswered s v → step s = .next (sResetDone v (takeAck s0)) := fun ha =>
    step_delivers_done h ha hreq hp (phaseDone_sReset · v)
  refine ⟨fun hf => step_issues h hf hreq rfl, fun ha hv => ?_, fun ha hv => ?_⟩
  · exact (hdone ha).trans (congrArg _ (if_neg (ne_true_of_eq_false hv)))
  · exact (hdone ha).trans (congrArg _ (if_pos hv))

/-- Settles O21: the request carries bit `CIDX`; its completion counts to 7, then hands over to `S_READ_A`. -/
theorem searchCommandGoesOutLowBitFirst : Obligations.SearchCommandGoesOutLowBitFirst := by
  intro s s0 v h hp
  have hreq := phaseRequest_sCmd hp
  have hcidx : (takeAck s0).cur.cidx = s.cur.cidx := by rw [coreTurn_fields h]; rfl
  have hdone : PortAnswered s v → step s = .next (sCmdDone (takeAck s0)) := fun ha =>
    step_delivers_done h ha hreq hp (phaseDone_sCmd · v)
  refine ⟨fun hf => step_issues h hf hreq (encode_sendBit _), fun ha hc => ?_, fun ha hc => ?_⟩
  · exact (hdone ha).trans (congrArg _ (if_pos (hcidx.trans hc)))
  · refine ⟨_, (hdone ha).trans (congrArg _ (if_neg (hcidx ▸ hc))), ?_, rfl⟩
    change ((takeAck s0).cur.cidx + 1).val = _
    rw [hcidx]
    omega

/-! ### An index: two reads, the decision, the bit sent -/

/-- Settles O22: each phase's request, and where it keeps the bit. -/
theorem responseBitsAreReadInOrder : Obligations.ResponseBitsAreReadInOrder := by
  refine fun s s0 v h => ⟨fun hp => ?_, fun hp => ?_⟩
  · have hreq := phaseRequest_sRead (.inl hp)
    exact ⟨fun hf => step_issues h hf hreq rfl, fun ha => step_delivers_done h ha hreq hp (phaseDone_sReadA · v)⟩
  · have hreq := phaseRequest_sRead (.inr hp)
    exact ⟨fun hf => step_issues h hf hreq rfl, fun ha => step_delivers_done h ha hreq hp (phaseDone_sReadB · v)⟩

/-- The core's turn in `S_DECIDE` decides. -/
theorem step_sDecide (h : CoreTurn s s0) (hp : s.phase = .sDecide) (hr : s.phy.req = none) :
    step s = .next (sDecide s0) :=
  (step_internal h (by simp [hp]) hr).trans (phaseStep_sDecide ((phase_coreTurn h).trans hp))

theorem cur_coreTurn (h : CoreTurn s s0) : s0.cur = s.cur := by rw [coreTurn_fields h]

theorem sDecide_of_collision (ha : s.cur.a = false) (hb : s.cur.b = false) :
    sDecide s = takeArm (branchArm s.cur.idx s.cur.bp (candidateBit s)) s := by
  simp [sDecide, pairMeaning, ha, hb]

theorem sDecide_of_inconsistency (ha : s.cur.a = true) (hb : s.cur.b = true) :
    sDecide s = raiseCollisionInconsistency s := by
  simp [sDecide, pairMeaning, ha, hb]

theorem sDecide_of_agreement (h : s.cur.a ≠ s.cur.b) :
    sDecide s = { s with cur := { s.cur with dir := s.cur.a }, phase := .sWrite } := by
  cases ha : s.cur.a <;> cases hb : s.cur.b <;> simp_all [sDecide, pairMeaning]

variable {i : Fin 64} {bp : Option (Fin 64)} {c : Bool}

/-- Past `BP` is past every index it can be (R14). -/
theorem pastBranch_eq_true_iff : pastBranch i bp = true ↔ ∀ j, bp = some j → j < i := by
  cases bp <;> simp [pastBranch]

theorem branchArm_resume (h : bp = some i) : branchArm i bp c = .resume := by simp [branchArm, atBranch, h]

theorem branchArm_zeroBranch (hne : bp ≠ some i) (h : (∀ j, bp = some j → j < i) ∨ c = false) :
    branchArm i bp c = .zeroBranch := by
  rw [← pastBranch_eq_true_iff] at h
  rw [branchArm, if_neg (by simpa [atBranch] using hne), if_pos (by simpa using h)]

theorem branchArm_replay (h : ∃ j, bp = some j ∧ i < j) (hc : c = true) : branchArm i bp c = .replay := by
  obtain ⟨j, rfl, hij⟩ := h
  simp [branchArm, atBranch, pastBranch, hc, hij.ne', hij.le]

/-- Settles O23, arm by arm. -/
theorem collisionTakesTheThreeWayDecision : Obligations.CollisionTakesTheThreeWayDecision := by
  intro s s0 h hp hr ha hb
  have hcur := cur_coreTurn h
  have hstep : step s = .next (takeArm (branchArm s.cur.idx s.cur.bp (s.cur.cand.getLsbD s.cur.idx.val)) s0) := by
    rw [step_sDecide h hp hr, sDecide_of_collision (hcur ▸ ha) (hcur ▸ hb), candidateBit, hcur]
  rw [hstep]
  refine ⟨fun hat => ?_, fun hne hpast => ?_, fun hbefore hc => ?_⟩
  · rw [branchArm_resume hat, takeArm]
  · rw [branchArm_zeroBranch hne hpast, takeArm]
  · rw [branchArm_replay hbefore hc, takeArm]

/-- Settles O24: the pair (1,1) raises the error. -/
theorem inconsistencyRaisesTheError : Obligations.InconsistencyRaisesTheError := by
  intro s s0 h hp hr ha hb
  have hcur := cur_coreTurn h
  rw [step_sDecide h hp hr, sDecide_of_inconsistency (hcur ▸ ha) (hcur ▸ hb)]
  rfl

/-- Settles O25: the agreement's arm reads `A` and `B` only. -/
theorem agreementFollowsTheTrueBit : Obligations.AgreementFollowsTheTrueBit :=
  fun _ _ h hp hr hab =>
    (step_sDecide h hp hr).trans (congrArg _ (sDecide_of_agreement (by rw [cur_coreTurn h]; exact hab)))

/-- Settles O26: the request carries `d`; its completion sets bit `IDX` to `d`, before index 63 and at it. -/
theorem chosenBitIsSentAndRecorded : Obligations.ChosenBitIsSentAndRecorded := by
  intro s s0 v h hp
  have hreq := phaseRequest_sWrite hp
  have hcur : (takeAck s0).cur = s.cur := (takeAck_cur s0).trans (cur_coreTurn h)
  have hcand : ∀ j : Fin 64, (setBit s0.cur.cand s0.cur.idx.val s0.cur.dir).getLsbD j.val =
      if j = s.cur.idx then s.cur.dir else s.cur.cand.getLsbD j.val := by
    intro j
    rw [cur_coreTurn h, setBit_getLsbD s.cur.cand s.cur.idx.isLt j.isLt]
    simp only [Fin.ext_iff]
  refine ⟨fun hf => step_issues h hf hreq (encode_sendBit _), fun ha => ?_⟩
  have hdone : step s = .next (sWriteDone (takeAck s0)) := step_delivers_done h ha hreq hp (phaseDone_sWrite · v)
  by_cases hi : s.cur.idx = 63
  · exact ⟨_, hdone.trans (congrArg _ (if_pos (hcur ▸ hi))), hcand, fun _ => rfl, fun hn => absurd hi hn⟩
  · refine ⟨_, hdone.trans (congrArg _ (if_neg (hcur ▸ hi))), hcand, fun hn => absurd hn hi, fun _ => ⟨?_, rfl⟩⟩
    change ((takeAck s0).cur.idx + 1).val = _
    rw [hcur]
    omega

/-! ### The store and the exit -/

/-- The core's turn in `S_STORE` stores where the condition holds, and counts (R125). -/
theorem step_sStore (h : CoreTurn s s0) (hp : s.phase = .sStore) (hr : s.phy.req = none) :
    step s = .next (countPass (if storesCandidate s then storeCandidate s0 else s0)) := by
  rw [step_internal h (by simp [hp]) hr, phaseStep_sStore ((phase_coreTurn h).trans hp), coreTurn_fields h]
  rfl

/-- The store gives the entry `COUNT` the candidate, but where the host's value is pinned. -/
theorem read_storeCandidate_same (hwf : s.out.wf = true) : (storeCandidate s).out.read s.cur.count.toNat =
    if s.cur.count.toNat ∈ s.outPinned then s.out.read s.cur.count.toNat else s.cur.cand := by
  simp only [storeCandidate]
  split
  · rfl
  · exact Memory.read_write _ _ hwf

theorem read_storeCandidate_other {k : Nat} (hk : k ≠ s.cur.count.toNat) :
    (storeCandidate s).out.read k = s.out.read k := by
  simp only [storeCandidate]
  split
  · rfl
  · exact Memory.read_write_other hk _ _

/-- Settles O27, with room and without. -/
theorem candidateIsStoredAndCounted : Obligations.CandidateIsStoredAndCounted := by
  intro s s0 h hp hr hwf hc
  refine ⟨fun ⟨hbuf, hroom⟩ => ?_, fun hno => ?_⟩
  · refine ⟨countPass (storeCandidate s0), ?_, rfl, ?_⟩
    · rw [step_sStore h hp hr, if_pos (storesCandidate_iff.mpr ⟨hbuf, hc, hroom⟩)]
    · rw [coreTurn_fields h]
      exact ⟨read_storeCandidate_same (s := { s with inbox := s0.inbox }) hwf,
        fun k hk => read_storeCandidate_other (s := { s with inbox := s0.inbox }) hk⟩
  · have hst : ¬storesCandidate s = true := fun hs => by
      obtain ⟨hbuf, -, hroom⟩ := storesCandidate_iff.mp hs
      obtain hno | hno := hno
      · simp [hno] at hbuf
      · omega
    rw [step_sStore h hp hr, if_neg hst, countPass]

theorem errorCode_eq (e : Option ErrorKind) : errorCode e = if e = some .collisionInconsistency then 1 else 0 := by
  cases e with
  | none => rfl
  | some k => cases k; rfl

/-- Settles O28: the phase's request, and the results on its completion. -/
theorem scanExitDeliversTheResults : Obligations.ScanExitDeliversTheResults := by
  intro s s0 v h hp
  have hreq := phaseRequest_sExit hp
  refine ⟨fun hf => step_issues h hf hreq rfl, fun ha => ?_⟩
  rw [step_delivers_done h ha hreq hp (phaseDone_sExit · v), sExitDone, errorCode_eq]
  rfl

end Sys2Proof.Machine

/-! ## What a scan leaves behind (R126, R130) -/

namespace Sys2Proof.Machine

variable {s t : State}

/-- A host access to a busy core moves no phase. -/
theorem HostMoves.phase_eq {a : HostAccess} (h : HostMoves a s t) (hp : s.phase ≠ .idle) : t.phase = s.phase := by
  rw [h.busy_frame hp]

theorem PhyMoves.phase_eq {i : Instr} (h : PhyMoves i s t) : t.phase = s.phase := by cases h <;> rfl

theorem Phase.ne_idle_of_isScan {p : Phase} (h : p.isScan = true) : p ≠ .idle := by rintro rfl; simp [Phase.isScan] at h

/-- The one move of the core from a scan to `IDLE` takes the completion of `S_EXIT`'s mode switch. -/
theorem CoreMoves.exits (h : CoreMoves s t) (hs : s.phase.isScan = true) (ht : t.phase = .idle) :
    s.phase = .sExit ∧ s.phy.ack.isSome = true ∧ t.mode = s.mode ∧ t.phy.mode = s.phy.mode ∧ t.busy = false ∧
      t.trace = s.trace := by
  cases h with
  | sExit v hr ha hp => exact ⟨hp, by simp [ha], rfl, rfl, rfl, rfl⟩
  | stay | issue | nextCommandBit => exact absurd ht (Phase.ne_idle_of_isScan hs)
  | xReset v hr ha hp | xSend v hr ha hp | xRead v hr ha hp | kRun hr hp => simp [hp, Phase.isScan] at hs
  | _ => cases ht

/-- Settles O38: only the core leads a scan to `IDLE`, from `S_EXIT`, where the invariant knows the newest entry. -/
theorem completedScanRestoresByteMode : Obligations.CompletedScanRestoresByteMode := by
  intro s t hI hs h ht hreset
  have hp := Phase.ne_idle_of_isScan hs
  cases step_moves h with
  | core x t h =>
    obtain ⟨hq, hack, hm, hpm, hb, htr⟩ := h.exits hs ht
    obtain ⟨hbyte, hhead⟩ := hI.exitedByte hq hack
    have hagree : s.phy.mode = s.mode := hI.modesAgree hp (hq ▸ by decide)
    exact ⟨hm.trans hbyte, hpm.trans (hagree.trans hbyte), hb, htr ▸ hhead⟩
  | pop | phyInit => exact absurd ht hp
  | host a x t hi h => exact absurd ((h.phase_eq hp).symm.trans ht) hp
  | phy v x w i t hi hr hd h => exact absurd (h.phase_eq.symm.trans ht) hp
  | coreReset x hi => exact absurd (by rw [hi]; rfl) hreset

/-! ## Counting PHY transactions (R128) -/

/-- The transactions of a scan's passes by the cursor: 201 for each completed pass, and those of the pass in progress. -/
def scanTransactions (s : State) : Int := 201 * s.cur.count + passTransactions s

/-- The transactions on record as issued and those that the cursor tells of grow alike. -/
def CountsAlike (s t : State) : Prop :=
  (phyCount t.trace : Int) + scanTransactions s = (phyCount s.trace : Int) + scanTransactions t

@[simp] theorem phyCount_issue (i : Instr) (l : List TraceEvent) : phyCount (.issue i :: l) = phyCount l + 1 := rfl
@[simp] theorem phyCount_phy (i : Instr) (v : Byte) (l : List TraceEvent) : phyCount (.phy i v :: l) = phyCount l := rfl

/-- Nothing of the phase's own is issued while the port is free. -/
theorem justIssued_of_portFree (h : PortFree s) : justIssued s = 0 := by simp [justIssued, h.1, h.2]

/-- A completed transaction was issued. -/
theorem justIssued_of_ack {v : Byte} (h : s.phy.ack = some v) : justIssued s = 1 := by simp [justIssued, h]

/-- The count rests on the phase, the cursor and whether the phase's transaction is issued. -/
theorem CountsAlike.of_eq (hc : t.cur = s.cur) (hp : t.phase = s.phase) (hj : justIssued t = justIssued s)
    (ht : phyCount t.trace = phyCount s.trace) : CountsAlike s t := by
  simp only [CountsAlike, scanTransactions, passTransactions, hc, hp, hj, ht]

/-- Within the passes a request is issued in a phase that counts it. -/
theorem passTransactions_of_issue {i : Instr} {w : PhyWord} (hf : PortFree s) (hi : phaseRequest s = some i)
    (hp : s.phase.inPasses = true) (tr : List TraceEvent) :
    passTransactions { s with phy := { s.phy with req := some w }, trace := tr } = passTransactions s + 1 := by
  have hj := justIssued_of_portFree hf
  cases hq : s.phase <;> simp [hq, phaseRequest, Phase.inPasses] at hi hp <;> simp [passTransactions, hq, hj] <;> rfl

/-- A phase without a transaction issues nothing. -/
theorem CountsAlike.of_internal (hf : PortFree s) (hphy : t.phy = s.phy) (htr : phyCount t.trace = phyCount s.trace)
    (h : justIssued s = 0 → justIssued t = 0 → scanTransactions s = scanTransactions t) : CountsAlike s t := by
  obtain ⟨hr, ha⟩ := hf
  rw [CountsAlike, htr,
    h (justIssued_of_portFree ⟨hr, ha⟩) (justIssued_of_portFree ⟨hphy.symm ▸ hr, hphy.symm ▸ ha⟩)]

/-- A taken completion is counted by the cursor from then on. -/
theorem CountsAlike.of_taken {v : Byte} (ha : s.phy.ack = some v) (hf : PortFree t)
    (htr : phyCount t.trace = phyCount s.trace)
    (h : justIssued s = 1 → justIssued t = 0 → scanTransactions s = scanTransactions t) : CountsAlike s t := by
  rw [CountsAlike, htr, h (justIssued_of_ack ha) (justIssued_of_portFree hf)]

/-- A move of the core within the passes issues what it counts. -/
theorem CoreMoves.countsAlike (h : CoreMoves s t) (hI : Inv s) (hs : s.phase.inPasses = true)
    (ht : t.phase.inPasses = true) : CountsAlike s t := by
  cases h with
  | stay => exact .of_eq rfl rfl rfl rfl
  | issue i w hr ha hp =>
    simp only [CountsAlike, scanTransactions, passTransactions_of_issue ⟨hr, ha⟩ hp hs, phyCount_issue]
    omega
  | xReset v hr ha hp | xSend v hr ha hp | xRead v hr ha hp | kRun _ hp | sExit v hr ha hp | sEnter v hr ha hp =>
    simp [hp, Phase.inPasses] at hs
  | lastPass | noDevice | inconsistency => simp [Phase.inPasses] at ht
  | anotherPass hr hp | sBegin hr hp =>
    refine .of_internal (hI.portFree (phaseRequest_internal (by simp [hp]))) rfl rfl fun _ hj' => ?_
    simp only [scanTransactions, passTransactions, hp, hj']
  | sendDirection d hr hp | zeroBranch hr hp | countOnly hr hp | store hr hp =>
    refine .of_internal (hI.portFree (phaseRequest_internal (by simp [hp]))) rfl rfl fun _ hj' => ?_
    simp only [scanTransactions, passTransactions, hp, hj']
    omega
  | present v hr ha hp | sReadA v hr ha hp | sReadB v hr ha hp | lastCommandBit v hr ha hp hc
  | lastIndex v hr ha hp hc =>
    refine .of_taken ha ⟨hr, rfl⟩ rfl fun hj hj' => ?_
    simp only [scanTransactions, passTransactions, hp, hj, hj']
    omega
  | nextCommandBit v hr ha hp hc =>
    have hnext : (s.cur.cidx + 1).val = s.cur.cidx.val + 1 := by omega
    refine .of_taken ha ⟨hr, rfl⟩ rfl fun hj hj' => ?_
    rw [hp] at hj'
    simp only [scanTransactions, passTransactions, hp, hj, hj', hnext]
    omega
  | nextIndex v hr ha hp hc =>
    have hnext : (s.cur.idx + 1).val = s.cur.idx.val + 1 := by omega
    refine .of_taken ha ⟨hr, rfl⟩ rfl fun hj hj' => ?_
    simp only [scanTransactions, passTransactions, hp, hj, hj', hnext]
    omega

/-- Settles O39: the core issues what it counts, the PHY's completion leaves the transaction issued, and nobody else acts on
either. -/
theorem passTransactionsAreCounted : Obligations.PassTransactionsAreCounted := by
  intro s t hI h hs ht
  have hbusy := (hI.of_inPasses hs).1
  have hidle : s.phase ≠ .idle := hI.busyIff.mp hbusy
  suffices CountsAlike s t from this
  cases step_moves h with
  | core x t h => exact h.countsAlike (hI.withInbox x) hs ht
  | pop => exact .of_eq rfl rfl rfl rfl
  | host a x t hi h =>
    rw [h.busy_frame hidle]
    exact .of_eq rfl rfl rfl rfl
  | phy v x w i t hi hr hd h =>
    have hj : justIssued s = 1 := by simp [justIssued, hr]
    cases h <;> exact .of_eq rfl rfl hj.symm rfl
  | coreReset => simp [coreReset, Phase.inPasses] at ht
  | phyInit x hi hb => simp [hb] at hbusy

end Sys2Proof.Machine

/-! ## A scan as a conversation with the PHY (R22, R80)

The core by itself moves on until it has a request; the PHY's answer to it is all that the outside adds. `ScanRun n s l t` says
that the core goes from `s` to `t` in `n` steps on the requests and answers of `l`. Whoever gives the answers, the outside's list
of actions or the reference bus, the machine then runs so. -/

namespace Sys2Proof.Machine

variable {s t u : State}

/-! ### One transaction -/

/-- The value that the transaction `i` returns with `v` on the answer lines (R93). -/
def returned (i : Instr) (v : Byte) : Byte :=
  match i with
  | .phyResetAndSense | .phyReadBit => if v.getLsbD 0 then 1 else 0
  | .phyReadByte => v
  | .phySetModeBit | .phySetModeByte | .phySendBit _ | .phySendByte _ => 0
  | .reset | .sendbyte | .readbyte | .scan | .checkcrc => 0

@[simp] theorem returned_phySetModeBit (v : Byte) : returned .phySetModeBit v = 0 := rfl
@[simp] theorem returned_phySetModeByte (v : Byte) : returned .phySetModeByte v = 0 := rfl

/-- The mode that the transaction `i` leaves (R86). -/
def modeAfter (i : Instr) (m : Mode) : Mode :=
  match i with
  | .phySetModeBit => .bit
  | .phySetModeByte => .byte
  | .phyResetAndSense | .phySendBit _ | .phyReadBit | .phySendByte _ | .phyReadByte => m
  | .reset | .sendbyte | .readbyte | .scan | .checkcrc => m

/-- The PHY may take the request `i`: the two copies of the mode agree, and it is the mode that `i` needs (R29, R87). -/
def Takes (s : State) (i : Instr) : Prop := s.phy.mode = s.mode ∧ modeAllows (modeNeeded i) s = true

/-- A request that the PHY may take completes. -/
theorem exec_of_takes {i : Instr} {w : PhyWord} (hw : encode i = .phy w) (h : Takes s i) :
    exec i s = .next { s with
      mode := modeAfter i s.mode
      phy := { s.phy with req := none, ack := some (returned i s.phy.din), mode := modeAfter i s.phy.mode }
      trace := .phy i (returned i s.phy.din) :: s.trace } := by
  obtain ⟨hm, ha⟩ := h
  cases i with
  | reset | sendbyte | readbyte | scan | checkcrc => cases hw
  | _ => exact transact_completes hm ha

/-- The request `i` was issued, answered with `v` on the lines, and its completion taken. -/
def exchanged (i : Instr) (v : Byte) (s : State) : State :=
  { s with
    mode := modeAfter i s.mode
    phy := { s.phy with din := v, mode := modeAfter i s.phy.mode }
    trace := .phy i (returned i v) :: .issue i :: s.trace }

/-- A run of the core by itself and the PHY: its number of steps, the requests with the answers they got, and where it leads. -/
inductive ScanRun : Nat → State → List (Instr × Byte) → State → Prop where
  | refl (s : State) : ScanRun 0 s [] s
  | internal {n : Nat} {s u t : State} {l : List (Instr × Byte)} (hf : PortFree s) (hp : phaseRequest s = none)
      (hidle : s.phase ≠ .idle) (hs : phaseStep s = .next u) (h : ScanRun n u l t) : ScanRun (n + 1) s l t
  | exchange {n : Nat} {s t : State} {i : Instr} {v : Byte} {l : List (Instr × Byte)} (hf : PortFree s)
      (hp : phaseRequest s = some i) (ht : Takes s i) (h : ScanRun n (phaseDone (returned i v) (exchanged i v s)) l t) :
      ScanRun (n + 3) s ((i, v) :: l) t

theorem ScanRun.trans {n m : Nat} {l r : List (Instr × Byte)} (h : ScanRun n s l u) (h' : ScanRun m u r t) :
    ScanRun (n + m) s (l ++ r) t := by
  induction h with
  | refl => rwa [Nat.zero_add]
  | internal hf hp hidle hs _ ih => exact Nat.succ_add _ _ ▸ .internal hf hp hidle hs (ih h')
  | exchange hf hp ht _ ih => exact Nat.add_right_comm _ 3 m ▸ .exchange hf hp ht (ih h')

/-! ### The outside's actions do not enter the core's moves -/

theorem sDecide_withInbox (s : State) (x : List Event) : sDecide { s with inbox := x } = { sDecide s with inbox := x } := by
  simp only [sDecide, takeArm, candidateBit]
  split
  · split <;> rfl
  · rfl
  · rfl

theorem sStore_withInbox (h : sStore s = .next t) (x : List Event) :
    sStore { s with inbox := x } = .next { t with inbox := x } := by
  have hst : storesCandidate { s with inbox := x } = storesCandidate s := rfl
  cases h
  rw [sStore, hst]
  cases storesCandidate s <;> rfl

theorem phaseStep_withInbox (h : phaseStep s = .next t) (x : List Event) :
    phaseStep { s with inbox := x } = .next { t with inbox := x } := by
  obtain ⟨_, _, _, _, _, _, phase, _⟩ := s
  cases phase with
  | sDecide =>
    cases h
    exact congrArg _ (sDecide_withInbox _ x)
  | sStore => exact sStore_withInbox h x
  | _ =>
    cases h
    rfl

theorem phaseDone_withInbox (v : Byte) (s : State) (x : List Event) :
    phaseDone v { s with inbox := x } = { phaseDone v s with inbox := x } := by
  obtain ⟨_, _, _, _, _, _, phase, _⟩ := s
  cases phase with
  | sReset | sCmd | sWrite =>
    simp only [phaseDone, sResetDone, sCmdDone, sWriteDone]
    split <;> rfl
  | _ => rfl

/-! ### The outside's list of actions gives the answers -/

/-- The outside has nothing to do but to give these answers. -/
def answering (vs : List Byte) (s : State) : State := { s with inbox := vs.map .phyDone }

/-- With the port free the core moves, whatever answers are to come. -/
theorem coreTurn_answering (vs : List Byte) (hr : s.phy.req = none) (hp : s.phase ≠ .idle) :
    CoreTurn (answering vs s) (answering vs s) := by
  cases vs with
  | nil => exact .inl ⟨rfl, rfl⟩
  | cons v vs => exact .inr (.inr (.inr (.inl ⟨v, vs.map .phyDone, rfl, hr, hp, rfl⟩)))

theorem ne_idle_of_phaseRequest {i : Instr} (hp : phaseRequest s = some i) : s.phase ≠ .idle := fun hq => by
  simp [phaseRequest, hq] at hp

/-- A phase without a transaction, one step. -/
theorem step_answering_internal (vs : List Byte) (hf : PortFree s) (hp : phaseRequest s = none) (hidle : s.phase ≠ .idle)
    (hs : phaseStep s = .next t) : step (answering vs s) = .next (answering vs t) := by
  rw [step_of_coreTurn (coreTurn_answering vs hf.1 hidle)]
  exact (coreMove_phaseStep (s := answering vs s) hf.1 hp).trans (phaseStep_withInbox hs _)

section Transaction

variable {i : Instr} {w : PhyWord} {v : Byte} (vs : List Byte) (hf : PortFree s) (hp : phaseRequest s = some i)
  (hw : encode i = .phy w)

/-- The state between a request's completion and its taking. -/
def completed (i : Instr) (v : Byte) (s : State) : State :=
  { exchanged i v s with phy := { (exchanged i v s).phy with req := none, ack := some (returned i v) } }

include hf hp hw in
/-- A transaction's first step: the request goes out. -/
theorem step_answering_issue : step (answering vs s) = .next (answering vs (issueWord i w s)) :=
  step_issues (coreTurn_answering vs hf.1 (ne_idle_of_phaseRequest hp)) hf hp hw

include hw in
/-- A transaction's second step: the PHY completes the request, which takes the first answer. -/
theorem step_answering_complete (ht : Takes s i) :
    step (answering (v :: vs) (issueWord i w s)) = .next (answering vs (completed i v s)) :=
  (step_of_phyDone rfl rfl (decode_of_encode hw)).trans (exec_of_takes hw ht)

include hf hp in
/-- A transaction's third step: the phase takes the completion. -/
theorem step_answering_deliver :
    step (answering vs (completed i v s)) = .next (answering vs (phaseDone (returned i v) (exchanged i v s))) := by
  obtain ⟨hr, ha⟩ := hf
  have hturn := coreTurn_answering (s := completed i v s) vs rfl (ne_idle_of_phaseRequest hp)
  have htake : takeAck (answering vs (completed i v s)) = answering vs (exchanged i v s) := by
    simp [takeAck, answering, completed, exchanged, hr, ha]
  rw [step_delivers hturn ⟨rfl, rfl⟩ hp, htake]
  exact congrArg _ (phaseDone_withInbox _ _ _)

end Transaction

/-- The machine runs as the core does on the answers that the outside has to give. -/
theorem ScanRun.runSteps {n : Nat} {l : List (Instr × Byte)} (h : ScanRun n s l t) :
    runSteps n (answering (l.map Prod.snd) s) = .next (answering [] t) := by
  induction h with
  | refl => rfl
  | internal hf hp hidle hs _ ih => exact (runSteps_of_step (step_answering_internal _ hf hp hidle hs)).trans ih
  | exchange hf hp ht _ ih =>
    obtain ⟨w, hw⟩ := phaseRequest_word hp
    rw [runSteps_of_step (step_answering_issue _ hf hp hw), List.map_cons,
      runSteps_of_step (step_answering_complete _ hw ht), runSteps_of_step (step_answering_deliver _ hf hp)]
    exact ih

/-- A move of the core that is no issue issues nothing. -/
theorem CoreMoves.phyCount_internal (h : CoreMoves s t) (hp : phaseRequest s = none) :
    Machine.phyCount t.trace = Machine.phyCount s.trace := by
  cases h with
  | issue i w hr ha hi => simp [hp] at hi
  | _ => rfl

theorem phaseDone_trace (v : Byte) (s : State) : (phaseDone v s).trace = s.trace := by
  obtain ⟨_, _, _, _, _, _, phase, _⟩ := s
  cases phase with
  | sReset | sCmd | sWrite =>
    simp only [phaseDone, sResetDone, sCmdDone, sWriteDone]
    split <;> rfl
  | _ => rfl

/-- A run issues the transactions it exchanges and no others. -/
theorem ScanRun.phyCount {n : Nat} {l : List (Instr × Byte)} (h : ScanRun n s l t) :
    Machine.phyCount t.trace = Machine.phyCount s.trace + l.length := by
  induction h with
  | refl => rfl
  | internal hf hp hidle hs _ ih => rw [ih, (phaseStep_moves hf.1 hp hs).phyCount_internal hp]
  | exchange hf hp ht _ ih =>
    rw [ih, phaseDone_trace, List.length_cons]
    simp only [exchanged, phyCount_phy, phyCount_issue]
    omega

/-! ### The reference bus gives the answers (95_test_vectors.md section 3.1) -/

/-- The bus, from `b`, gives these answers to these requests, and is then `b'`. -/
def RefBus.Plays : RefBus → List (Instr × Byte) → RefBus → Prop
  | b, [], b' => b' = b
  | b, (i, v) :: l, b' => v = (b.answer i).1 ∧ (b.answer i).2.Plays l b'

theorem RefBus.Plays.append {l r : List (Instr × Byte)} {b b' b'' : RefBus} (h : b.Plays l b') (h' : b'.Plays r b'') :
    b.Plays (l ++ r) b'' := by
  induction l generalizing b with
  | nil =>
    obtain rfl : b' = b := h
    exact h'
  | cons x l ih => exact ⟨h.1, ih h.2⟩

theorem coStep_core {b : RefBus} (hr : s.phy.req = none) (h : step (answering [] s) = .next t) :
    coStep (answering [] s, b) = some (t, b) := by
  have h' : step { answering [] s with inbox := [] } = .next t := h
  have hr' : (answering [] s).phy.req = none := hr
  simp only [coStep, hr', h']

theorem coStep_bus {b : RefBus} {w : PhyWord} {i : Instr} (hr : s.phy.req = some w) (hd : decode (.phy w) = .ok i)
    (h : step (answering [(b.answer i).1] s) = .next t) : coStep (answering [] s, b) = some (t, (b.answer i).2) := by
  have h' : step { answering [] s with inbox := [.phyDone (b.answer i).1] } = .next t := h
  have hr' : (answering [] s).phy.req = some w := hr
  simp only [coStep, hr', hd, h']

theorem coRun_of_coStep {c c' : State × RefBus} {n : Nat} (h : coStep c = some c') : coRun (n + 1) c = coRun n c' := by
  simp [coRun, h]

/-- The core and the reference bus run together as the core does on the bus's answers. -/
theorem ScanRun.coRun {n : Nat} {l : List (Instr × Byte)} {b b' : RefBus} (h : ScanRun n s l t) (hb : b.Plays l b') :
    coRun n (answering [] s, b) = some (answering [] t, b') := by
  induction h generalizing b with
  | refl =>
    obtain rfl : b' = b := hb
    rfl
  | internal hf hp hidle hs _ ih =>
    exact (coRun_of_coStep (coStep_core hf.1 (step_answering_internal [] hf hp hidle hs))).trans (ih hb)
  | exchange hf hp ht _ ih =>
    obtain ⟨w, hw⟩ := phaseRequest_word hp
    obtain ⟨rfl, hb⟩ := hb
    rw [coRun_of_coStep (coStep_core hf.1 (step_answering_issue [] hf hp hw)),
      coRun_of_coStep (coStep_bus rfl (decode_of_encode hw) (step_answering_complete [] hw ht)),
      coRun_of_coStep (coStep_core rfl (step_answering_deliver [] hf hp))]
    exact ih hb

end Sys2Proof.Machine

/-! ### The pieces of a scan as runs (R113 to R127) -/

namespace Sys2Proof.Machine

variable {s : State}

/-- A run of one transaction, given what the phase does with its completion. -/
theorem ScanRun.one {i : Instr} {v : Byte} {t : State} (hf : PortFree s) (hp : phaseRequest s = some i) (ht : Takes s i)
    (hd : phaseDone (returned i v) (exchanged i v s) = t) : ScanRun 3 s [(i, v)] t :=
  .exchange hf hp ht (hd ▸ .refl _)

/-- A run of one phase of a scan without a transaction. -/
theorem ScanRun.move {t : State} (hf : PortFree s) (hp : s.phase ∈ [.sCheck, .sBegin, .sDecide, .sStore])
    (hs : phaseStep s = .next t) : ScanRun 1 s [] t :=
  .internal hf (phaseRequest_internal hp) (fun hq => by simp [hq] at hp) hs (.refl _)

/-- A one-bit answer read back as a truth value. -/
theorem bitOfAnswer_returned {i : Instr} (hi : i = .phyResetAndSense ∨ i = .phyReadBit) (v : Byte) :
    bitOfAnswer (returned i v) = v.getLsbD 0 := by
  obtain rfl | rfl := hi <;> simp only [bitOfAnswer, returned] <;> cases v.getLsbD 0 <;> rfl

/-- `S_ENTER` (R113). -/
theorem scanRun_enter (hp : s.phase = .sEnter) (hf : PortFree s) (hm : s.phy.mode = s.mode) (v : Byte) :
    ScanRun 3 s [(.phySetModeBit, v)] (sEnterDone (exchanged .phySetModeBit v s)) :=
  .one hf (phaseRequest_sEnter hp) ⟨hm, rfl⟩ (phaseDone_sEnter (s := exchanged .phySetModeBit v s) hp _)

/-- `S_CHECK` where the loop condition holds, then `S_BEGIN` (R114, R115). -/
theorem scanRun_begin (hp : s.phase = .sCheck) (hf : PortFree s) (hc : anotherPass s = true) :
    ScanRun 2 s [] { s with cur := { s.cur with bp := s.cur.nbp, fin := true }, phase := .sReset } :=
  .trans (.move (t := { s with phase := .sBegin }) hf (by simp [hp]) (by rw [phaseStep_sCheck hp, sCheck, if_pos hc]))
    (.move hf (by simp) (phaseStep_sBegin rfl))

/-- `S_CHECK` where the loop condition fails (R114). -/
theorem scanRun_lastCheck (hp : s.phase = .sCheck) (hf : PortFree s) (hc : anotherPass s = false) :
    ScanRun 1 s [] { s with phase := .sExit } :=
  .move hf (by simp [hp]) (by rw [phaseStep_sCheck hp, sCheck, if_neg (by simp [hc])])

/-- `S_RESET` with no device on the bus (R116). -/
theorem scanRun_noDevice (hp : s.phase = .sReset) (hf : PortFree s) (hm : s.phy.mode = s.mode) {v : Byte}
    (hv : v.getLsbD 0 = false) :
    ScanRun 3 s [(.phyResetAndSense, v)] (noDeviceExit (exchanged .phyResetAndSense v s)) :=
  .one hf (phaseRequest_sReset hp) ⟨hm, rfl⟩
    ((phaseDone_sReset (s := exchanged .phyResetAndSense v s) hp _).trans
      (if_neg (by rw [bitOfAnswer_returned (.inl rfl), hv]; decide)))

/-- `S_STORE` (R125). -/
theorem scanRun_store (hp : s.phase = .sStore) (hf : PortFree s) :
    ScanRun 1 s [] (countPass (if storesCandidate s then storeCandidate s else s)) :=
  .move hf (by simp [hp]) (phaseStep_sStore hp)

/-- `S_EXIT` (R126, R127). -/
theorem scanRun_exit (hp : s.phase = .sExit) (hf : PortFree s) (hm : s.phy.mode = s.mode) (v : Byte) :
    ScanRun 3 s [(.phySetModeByte, v)] (sExitDone (exchanged .phySetModeByte v s)) :=
  .one hf (phaseRequest_sExit hp) ⟨hm, rfl⟩ (phaseDone_sExit (s := exchanged .phySetModeByte v s) hp _)

/-- A scan at the start of its first pass, from `s` in `S_ENTER` with `v` the answer to the mode switch. -/
def firstPass (v : Byte) (s : State) : State :=
  { exchanged .phySetModeBit v s with
    cur := { s.cur with bp := none, nbp := none, cand := 0, fin := true, count := 0, err := none }, phase := .sReset }

/-- `S_ENTER`, then the first `S_CHECK`, whose condition holds whatever the bound, and `S_BEGIN` (R113 to R115). -/
theorem scanRun_firstPass (hp : s.phase = .sEnter) (hf : PortFree s) (hm : s.phy.mode = s.mode) (v : Byte) :
    ScanRun 5 s [(.phySetModeBit, v)] (firstPass v s) := by
  have hbound : s.lat.maxdev = 0 ∨ (0 : Int) < (s.lat.maxdev : Int) := by omega
  exact (scanRun_enter hp hf hm v).trans (scanRun_begin rfl hf (anotherPass_iff.mpr ⟨rfl, hbound⟩))

/-- A scan that the host starts in `IDLE` (R110). -/
def startedScan (s : State) : State := accept 0b100#3 .sEnter (latchScan s)

/-- The host's write of `CMD` starts a scan, which the PHY's answers then take on. -/
theorem runSteps_scan {n : Nat} {l : List (Instr × Byte)} {t : State} (h : ScanRun n (startedScan s) l t)
    (hp : s.phase = .idle) (hr : s.phyReady = true)
    (hi : s.inbox = .host (.write .cmd 4) :: (l.map Prod.snd).map .phyDone) :
    runSteps (n + 1) s = .next (answering [] t) :=
  (runSteps_of_step ((step_of_cmdWrite hi rfl).trans (scanIsAccepted (answering (l.map Prod.snd) s) hp hr))).trans h.runSteps

/-- Settles O29: acceptance, then the run to the first bus reset, which finds no device, and `S_EXIT`. -/
theorem emptyBusScanReturnsZero : Obligations.EmptyBusScanReturnsZero := by
  intro s x v y hp hm hr hv hi
  obtain ⟨hpm, hreq, hack, -⟩ := phyReady_iff.mp hr
  have hf : PortFree s := ⟨hreq, hack⟩
  have hfirst := scanRun_firstPass (s := startedScan s) rfl hf (hpm.trans hm.symm) x
  have hreset := scanRun_noDevice (s := firstPass x (startedScan s)) rfl hf rfl hv
  have hexit := scanRun_exit (s := noDeviceExit (exchanged .phyResetAndSense v (firstPass x (startedScan s)))) rfl hf rfl y
  refine ⟨_, runSteps_scan ((hfirst.trans hreset).trans hexit) hp hr hi, rfl, rfl, rfl, rfl, rfl, rfl, rfl, ?_⟩
  have hret : returned .phyResetAndSense v = 0 := by simp only [returned, hv]; rfl
  simp [answering, sExitDone, exchanged, hret, firstPass, startedScan]

end Sys2Proof.Machine

/-! ### A pass, by its phase and its cursor

Between a pass's first bus reset and its store the core writes the cursor, the port and the record only, and what it does
depends on the phase and the cursor. -/

namespace Sys2Proof.Machine

variable {s : State}

/-- `s` at phase `p` of a pass, with this cursor, port and record. -/
def State.inPass (s : State) (p : Phase) (c : Cursor) (y : PhyPort) (tr : List TraceEvent) : State :=
  { s with phase := p, cur := c, phy := y, trace := tr }

/-- The port is free and the PHY is in bit mode. -/
def PhyPort.freeInBitMode (y : PhyPort) : Prop := y.req = none ∧ y.ack = none ∧ y.mode = .bit

/-- The core goes from one phase and cursor to another on the requests and answers of `l`, whatever is on record. -/
def Passes (s : State) (p : Phase) (c : Cursor) (l : List (Instr × Byte)) (p' : Phase) (c' : Cursor) : Prop :=
  ∀ y tr, y.freeInBitMode → ∃ n y' tr', y'.freeInBitMode ∧ ScanRun n (s.inPass p c y tr) l (s.inPass p' c' y' tr')

theorem Passes.refl (p : Phase) (c : Cursor) : Passes s p c [] p c := fun y tr hy => ⟨0, y, tr, hy, .refl _⟩

theorem Passes.trans {p p' p'' : Phase} {c c' c'' : Cursor} {l r : List (Instr × Byte)} (h : Passes s p c l p' c')
    (h' : Passes s p' c' r p'' c'') : Passes s p c (l ++ r) p'' c'' := by
  intro y tr hy
  obtain ⟨n, y', tr', hy', hn⟩ := h y tr hy
  obtain ⟨m, y'', tr'', hy'', hm⟩ := h' y' tr' hy'
  exact ⟨n + m, y'', tr'', hy'', hn.trans hm⟩

/-- A phase's transaction that is no mode switch, given what the phase does with its completion. -/
theorem Passes.one {p p' : Phase} {c c' : Cursor} {i : Instr} {v : Byte} (hm : s.mode = .bit)
    (hp : ∀ y tr, phaseRequest (s.inPass p c y tr) = some i) (hmode : ∀ m, modeAfter i m = m)
    (hneed : modeNeeded i ∈ [none, some .bit])
    (hd : ∀ y tr, phaseDone (returned i v) (s.inPass p c y tr) = s.inPass p' c' y tr) : Passes s p c [(i, v)] p' c' := by
  intro y tr hy
  obtain ⟨hr, ha, hpm⟩ := hy
  refine ⟨3, { y with din := v }, .phy i (returned i v) :: .issue i :: tr, ⟨hr, ha, hpm⟩,
    .one ⟨hr, ha⟩ (hp y tr) ⟨hpm.trans hm.symm, ?_⟩ ?_⟩
  · simp only [List.mem_cons, List.not_mem_nil, or_false] at hneed
    obtain h | h := hneed <;> rw [h]
    · rfl
    · exact modeAllows_some.mpr hm
  · rw [← hd]
    simp only [exchanged, State.inPass, hmode]

variable {c : Cursor}

/-- `S_RESET` with a device on the bus (R116). -/
theorem passes_present (hm : s.mode = .bit) {v : Byte} (hv : v.getLsbD 0 = true) :
    Passes s .sReset c [(.phyResetAndSense, v)] .sCmd { c with cidx := 0 } :=
  .one hm (fun _ _ => rfl) (fun _ => rfl) (by simp [modeNeeded]) fun _ _ => if_pos (by rw [bitOfAnswer_returned (.inl rfl), hv])

/-- The bits that the core sends, each answered with 0, which it does not look at. -/
def sentBits (bits : List Bool) : List (Instr × Byte) := bits.map fun d => (.phySendBit (bitOperand d), 0)

/-- A command bit before the last (R117). -/
theorem passes_nextCommandBit (hm : s.mode = .bit) (hc : c.cidx ≠ 7) :
    Passes s .sCmd c (sentBits [s.lat.scmd.getLsbD c.cidx.val]) .sCmd { c with cidx := c.cidx + 1 } :=
  .one hm (fun _ _ => rfl) (fun _ => rfl) (by simp [modeNeeded]) fun _ _ => if_neg hc

/-- The last command bit (R117). -/
theorem passes_lastCommandBit (hm : s.mode = .bit) (hc : c.cidx = 7) :
    Passes s .sCmd c (sentBits [s.lat.scmd.getLsbD c.cidx.val]) .sReadA { c with idx := 0 } :=
  .one hm (fun _ _ => rfl) (fun _ => rfl) (by simp [modeNeeded]) fun _ _ => if_pos hc

/-- The search command from any of its bits on (R117). -/
theorem passes_command (hm : s.mode = .bit) : ∀ (k : Nat) {c : Cursor}, c.cidx.val + k = 7 →
    ∃ bits : List Bool, bits.length = k + 1 ∧ Passes s .sCmd c (sentBits bits) .sReadA { c with cidx := 7, idx := 0 }
  | 0, c, hk => by
    have hc : c.cidx = 7 := Fin.ext hk
    have h := passes_lastCommandBit hm hc
    rw [← hc]
    exact ⟨_, rfl, h⟩
  | k + 1, c, hk => by
    have hc : c.cidx ≠ 7 := fun hq => by simp [hq] at hk
    have hnext : (c.cidx + 1).val + k = 7 := by omega
    obtain ⟨bits, hlen, h⟩ := passes_command hm k (c := { c with cidx := c.cidx + 1 }) hnext
    exact ⟨_ :: bits, by rw [List.length_cons, hlen], (passes_nextCommandBit hm hc).trans h⟩

/-- A bit as the PHY's answer lines carry it. -/
def bitAnswer (b : Bool) : Byte := if b then 1 else 0

@[simp] theorem bitAnswer_getLsbD_zero (b : Bool) : (bitAnswer b).getLsbD 0 = b := by cases b <;> rfl

theorem passes_readA (hm : s.mode = .bit) (a : Bool) :
    Passes s .sReadA c [(.phyReadBit, bitAnswer a)] .sReadB { c with a := a } :=
  .one hm (fun _ _ => rfl) (fun _ => rfl) (by simp [modeNeeded]) fun _ _ => by
    rw [phaseDone_sReadA rfl, sReadADone, bitOfAnswer_returned (.inr rfl), bitAnswer_getLsbD_zero]
    rfl

theorem passes_readB (hm : s.mode = .bit) (b : Bool) :
    Passes s .sReadB c [(.phyReadBit, bitAnswer b)] .sDecide { c with b := b } :=
  .one hm (fun _ _ => rfl) (fun _ => rfl) (by simp [modeNeeded]) fun _ _ => by
    rw [phaseDone_sReadB rfl, sReadBDone, bitOfAnswer_returned (.inr rfl), bitAnswer_getLsbD_zero]
    rfl

/-- The direction at a collision (R121): the bit that index `i` takes, where `old` is `CAND[i]`. -/
def collisionBit (i : Fin 64) (bp : Option (Fin 64)) (old : Bool) : Bool := decide (branchArm i bp old ≠ .zeroBranch)

/-- The direction that `S_DECIDE` chooses where there is one (R121, R123). -/
def Cursor.direction (c : Cursor) : Bool :=
  if c.a = c.b then collisionBit c.idx c.bp (c.cand.getLsbD c.idx.val) else c.a

/-- `S_DECIDE` takes R121's 0-branch. -/
def Cursor.forks (c : Cursor) : Bool := decide (c.a = c.b) && !c.direction

/-- The cursor once `S_DECIDE` has chosen the direction (R121, R123). -/
def Cursor.decided (c : Cursor) : Cursor :=
  { c with dir := c.direction, fin := c.fin && !c.forks, nbp := if c.forks then some c.idx else c.nbp }

/-- `S_DECIDE` where there is a direction to choose. -/
theorem sDecide_eq_decided (h : ¬(s.cur.a = true ∧ s.cur.b = true)) :
    sDecide s = { s with cur := s.cur.decided, phase := .sWrite } := by
  by_cases hab : s.cur.a = s.cur.b
  · have ha : s.cur.a = false := by simpa [← hab] using h
    have harm : s.cur.direction = collisionBit s.cur.idx s.cur.bp (s.cur.cand.getLsbD s.cur.idx.val) := if_pos hab
    rw [sDecide_of_collision ha (hab ▸ ha), candidateBit, Cursor.decided, Cursor.forks, harm, decide_eq_true hab, collisionBit]
    cases branchArm s.cur.idx s.cur.bp (s.cur.cand.getLsbD s.cur.idx.val) <;> simp [takeArm]
  · rw [sDecide_of_agreement hab, Cursor.decided, Cursor.forks, Cursor.direction, if_neg hab, decide_eq_false hab]
    simp

theorem passes_decide (h : ¬(c.a = true ∧ c.b = true)) : Passes s .sDecide c [] .sWrite c.decided := by
  intro y tr hy
  obtain ⟨hr, ha, hpm⟩ := hy
  refine ⟨1, y, tr, ⟨hr, ha, hpm⟩, .move ⟨hr, ha⟩ (by simp [State.inPass]) ?_⟩
  rw [phaseStep_sDecide rfl, sDecide_eq_decided h]
  rfl

/-- The cursor once `S_WRITE` has recorded the direction (R124). -/
def Cursor.recorded (c : Cursor) : Cursor :=
  { c with cand := setBit c.cand c.idx.val c.dir, idx := if c.idx = 63 then c.idx else c.idx + 1 }

/-- The phase after `S_WRITE` at index `i` (R124). -/
def phaseAfterIndex (i : Fin 64) : Phase := if i = 63 then .sStore else .sReadA

theorem passes_write (hm : s.mode = .bit) :
    Passes s .sWrite c (sentBits [c.dir]) (phaseAfterIndex c.idx) c.recorded :=
  .one hm (fun _ _ => rfl) (fun _ => rfl) (by simp [modeNeeded]) fun y tr => by
    rw [phaseDone_sWrite rfl, sWriteDone, phaseAfterIndex, Cursor.recorded]
    by_cases hi : c.idx = 63
    · simp [State.inPass, hi]
    · simp [State.inPass, hi]

/-- The cursor with the response bits `a` and `b`. -/
def Cursor.responded (c : Cursor) (a b : Bool) : Cursor := { c with a := a, b := b }

/-- An index: two reads, the decision, the bit sent (R118 to R124). -/
theorem passes_index (hm : s.mode = .bit) {a b : Bool} (hab : ¬(a = true ∧ b = true)) :
    Passes s .sReadA c
      ((.phyReadBit, bitAnswer a) :: (.phyReadBit, bitAnswer b) :: sentBits [(c.responded a b).direction])
      (phaseAfterIndex c.idx) (c.responded a b).decided.recorded :=
  (((passes_readA hm a).trans (passes_readB hm b)).trans (passes_decide hab)).trans (passes_write hm)

end Sys2Proof.Machine

/-! ### The search on a set of codes (R134, R136)

What a bus with the codes `dev` answers, and what a pass on these answers finds, said of codes alone. -/

namespace Sys2Proof.Machine

variable {dev : List RomCode} {x y d : RomCode} {i k : Nat}

/-- Two codes agree in the bits below `k`. -/
abbrev SamePrefix (k : Nat) (x y : RomCode) : Prop := ∀ j < k, x.getLsbD j = y.getLsbD j

theorem SamePrefix.symm (h : SamePrefix k x y) : SamePrefix k y x := fun j hj => (h j hj).symm

theorem SamePrefix.trans {z : RomCode} (h : SamePrefix k x y) (h' : SamePrefix k y z) : SamePrefix k x z :=
  fun j hj => (h j hj).trans (h' j hj)

theorem SamePrefix.mono (h : SamePrefix k x y) (hi : i ≤ k) : SamePrefix i x y := fun j hj => h j (hj.trans_le hi)

theorem samePrefix_succ : SamePrefix (k + 1) x y ↔ SamePrefix k x y ∧ x.getLsbD k = y.getLsbD k := by
  refine ⟨fun h => ⟨h.mono k.le_succ, h k k.lt_succ_self⟩, fun ⟨h, hk⟩ j hj => ?_⟩
  obtain hj | rfl := Nat.lt_succ_iff_lt_or_eq.mp hj
  · exact h j hj
  · exact hk

theorem eq_of_samePrefix (h : SamePrefix 64 x y) : x = y := BitVec.eq_of_getLsbD_eq h

/-! #### The order of the search: bit 0 first, 0 before 1 -/

/-- A code's place in the order that reads bit 0 first with 0 before 1 (R134). -/
def searchKey (x : RomCode) : Nat := x.reverse.toNat

/-- Where two codes part, `x` takes 0 and `y` takes 1. -/
def PartsBelow (k : Nat) (x y : RomCode) : Prop := k < 64 ∧ SamePrefix k x y ∧ x.getLsbD k = false ∧ y.getLsbD k = true

theorem testBit_searchKey (x : RomCode) (i : Nat) : (searchKey x).testBit i = (decide (i < 64) && x.getLsbD (63 - i)) := by
  rw [searchKey, BitVec.testBit_toNat, BitVec.getLsbD_reverse, BitVec.getMsbD_eq_getLsbD]

/-- The code that takes 0 where the two part comes first. -/
theorem PartsBelow.searchKey_lt (h : PartsBelow k x y) : searchKey x < searchKey y := by
  obtain ⟨hk, hpre, hx, hy⟩ := h
  have hbit : 63 - (63 - k) = k := by omega
  refine Nat.lt_of_testBit (63 - k) ?_ ?_ fun j hj => ?_
  · rw [testBit_searchKey, hbit, hx, Bool.and_false]
  · rw [testBit_searchKey, hbit, hy, Bool.and_true, decide_eq_true]
    omega
  · rw [testBit_searchKey, testBit_searchKey]
    by_cases hj64 : j < 64
    · rw [hpre (63 - j) (by omega)]
    · simp [hj64]

/-- Two codes are equal or part somewhere. -/
theorem eq_or_parts (x y : RomCode) : x = y ∨ ∃ k, PartsBelow k x y ∨ PartsBelow k y x := by
  by_cases h : SamePrefix 64 x y
  · exact .inl (eq_of_samePrefix h)
  · have hex : ∃ k, k < 64 ∧ x.getLsbD k ≠ y.getLsbD k := by simpa [SamePrefix] using h
    obtain ⟨hk, hne⟩ := Nat.find_spec hex
    have hpre : SamePrefix (Nat.find hex) x y := fun j hj => by
      simpa [hj.trans hk] using Nat.find_min hex hj
    refine .inr ⟨Nat.find hex, ?_⟩
    cases hx : x.getLsbD (Nat.find hex) <;> cases hy : y.getLsbD (Nat.find hex)
    · exact absurd (hx.trans hy.symm) hne
    · exact .inl ⟨hk, hpre, hx, hy⟩
    · exact .inr ⟨hk, hpre.symm, hy, hx⟩
    · exact absurd (hx.trans hy.symm) hne

/-- The code that comes first takes 0 where the two part. -/
theorem parts_of_searchKey_lt (h : searchKey x < searchKey y) : ∃ k, PartsBelow k x y := by
  obtain rfl | ⟨k, hk | hk⟩ := eq_or_parts x y
  · exact absurd h (lt_irrefl _)
  · exact ⟨k, hk⟩
  · exact absurd h hk.searchKey_lt.asymm

/-! #### The devices that take part, and their answers -/

/-- The devices that still take part after the bits of `x` below `k` were sent. -/
def taking (dev : List RomCode) (x : RomCode) (k : Nat) : List RomCode := dev.filter fun d => decide (SamePrefix k x d)

theorem mem_taking : d ∈ taking dev x k ↔ d ∈ dev ∧ SamePrefix k x d := by simp [taking]

theorem taking_zero : taking dev x 0 = dev :=
  List.filter_eq_self.mpr fun _ _ => decide_eq_true fun j hj => absurd hj j.not_lt_zero

theorem taking_congr (h : SamePrefix k x y) : taking dev x k = taking dev y k :=
  List.filter_congr fun _ _ => decide_eq_decide.mpr ⟨h.symm.trans, h.trans⟩

/-- Sending bit `k` of `x` leaves the devices that have that bit. -/
theorem taking_succ : taking dev x (k + 1) = (taking dev x k).filter fun r => r.getLsbD k == x.getLsbD k := by
  rw [taking, taking, List.filter_filter]
  refine List.filter_congr fun d _ => ?_
  rw [Bool.eq_iff_iff]
  simp only [samePrefix_succ, Bool.and_eq_true, beq_iff_eq, decide_eq_true_eq]
  exact ⟨fun ⟨h, hk⟩ => ⟨hk.symm, h⟩, fun ⟨hk, h⟩ => ⟨h, hk.symm⟩⟩

/-- The wired AND of bit `k` of the devices that take part. -/
def trueBit (dev : List RomCode) (x : RomCode) (k : Nat) : Bool := (taking dev x k).all (·.getLsbD k)

/-- The wired AND of the complements of bit `k` of the devices that take part. -/
def complementBit (dev : List RomCode) (x : RomCode) (k : Nat) : Bool := (taking dev x k).all (!·.getLsbD k)

/-- A device that takes part has bit `k` equal to `b`. -/
def HasBit (dev : List RomCode) (x : RomCode) (k : Nat) (b : Bool) : Prop := ∃ d ∈ dev, SamePrefix k x d ∧ d.getLsbD k = b

theorem trueBit_eq_false_iff : trueBit dev x k = false ↔ HasBit dev x k false := by
  simp [trueBit, HasBit, mem_taking, and_assoc]

theorem complementBit_eq_false_iff : complementBit dev x k = false ↔ HasBit dev x k true := by
  simp [complementBit, HasBit, mem_taking, and_assoc]

theorem HasBit.congr {b : Bool} (h : HasBit dev x k b) (hxy : SamePrefix k x y) : HasBit dev y k b := by
  obtain ⟨d, hd, hpre, hb⟩ := h
  exact ⟨d, hd, hxy.symm.trans hpre, hb⟩

/-- A device takes part until one of the two answers tells its bit. -/
theorem not_both_answers (h : ∃ d ∈ dev, SamePrefix k x d) : ¬(trueBit dev x k = true ∧ complementBit dev x k = true) := by
  obtain ⟨d, hd, hpre⟩ := h
  rintro ⟨ht, hc⟩
  cases hb : d.getLsbD k with
  | false => exact absurd (trueBit_eq_false_iff.mpr ⟨d, hd, hpre, hb⟩) (by simp [ht])
  | true => exact absurd (complementBit_eq_false_iff.mpr ⟨d, hd, hpre, hb⟩) (by simp [hc])

/-! #### Forks: where a pass took 0 and a device would have answered to 1 -/

/-- At index `k` of `x` the devices part and `x` takes 0. -/
def Fork (dev : List RomCode) (x : RomCode) (k : Nat) : Prop := x.getLsbD k = false ∧ HasBit dev x k true

theorem fork_congr (h : SamePrefix (k + 1) x y) : Fork dev x k ↔ Fork dev y k := by
  obtain ⟨hpre, hk⟩ := samePrefix_succ.mp h
  unfold Fork
  rw [hk]
  exact and_congr_right fun _ => ⟨fun hb => hb.congr hpre, fun hb => hb.congr hpre.symm⟩

/-- What `FIN` and `NBP` tell of the forks below `k`: there is none, or which is the last. -/
inductive ForkRecord (dev : List RomCode) (x : RomCode) (k : Nat) : Bool → Option (Fin 64) → Prop where
  | clear (nbp : Option (Fin 64)) (h : ∀ i < k, ¬Fork dev x i) : ForkRecord dev x k true nbp
  | last (p : Fin 64) (hp : p.val < k) (hf : Fork dev x p.val) (h : ∀ i, p.val < i → i < k → ¬Fork dev x i) :
      ForkRecord dev x k false (some p)

theorem ForkRecord.congr {f : Bool} {n : Option (Fin 64)} (h : ForkRecord dev x k f n) (hxy : SamePrefix k x y) :
    ForkRecord dev y k f n := by
  have hfork : ∀ {i}, i < k → (Fork dev x i ↔ Fork dev y i) := fun hi => fork_congr (hxy.mono hi)
  cases h with
  | clear _ h => exact .clear n fun i hi => (hfork hi).not.mp (h i hi)
  | last p hp hf h => exact .last p hp ((hfork hp).mp hf) fun i hpi hi => (hfork hi).not.mp (h i hpi hi)

/-- An index that is no fork leaves `FIN` and `NBP`. -/
theorem ForkRecord.succ_of_not {f : Bool} {n : Option (Fin 64)} (h : ForkRecord dev x k f n) (hk : ¬Fork dev x k) :
    ForkRecord dev x (k + 1) f n := by
  have hle : ∀ {i}, i < k + 1 → i < k ∨ i = k := Nat.lt_succ_iff_lt_or_eq.mp
  cases h with
  | clear _ h => exact .clear n fun i hi => (hle hi).elim (h i) fun he => he ▸ hk
  | last p hp hf h =>
    exact .last p (hp.trans k.lt_succ_self) hf fun i hpi hi => (hle hi).elim (h i hpi) fun he => he ▸ hk

/-- A fork is the last one so far. -/
theorem ForkRecord.succ_of_fork {p : Fin 64} (hp : Fork dev x p.val) : ForkRecord dev x (p.val + 1) false (some p) :=
  .last p (Nat.lt_succ_self _) hp fun i hpi hi => absurd hi (by omega)

/-- A cleared `FIN` tells of a fork, which `NBP` is. -/
theorem ForkRecord.exists_last {n : Option (Fin 64)} (h : ForkRecord dev x k false n) :
    ∃ p, n = some p ∧ Fork dev x p.val := by
  cases h with
  | last p _ hf => exact ⟨p, rfl, hf⟩

/-! #### What a pass finds -/

/-- `x` is a device, and where the devices part it takes the bit that R121 gives with `BP` and the earlier candidate `old`. -/
structure FoundFrom (dev : List RomCode) (bp : Option (Fin 64)) (old x : RomCode) : Prop where
  mem : x ∈ dev
  chosen : ∀ i : Fin 64, HasBit dev x i.val true → HasBit dev x i.val false →
    x.getLsbD i.val = collisionBit i bp (old.getLsbD i.val)

variable {bp : Option (Fin 64)} {old : RomCode}

theorem collisionBit_at {i : Fin 64} (b : Bool) : collisionBit i (some i) b = true := by
  rw [collisionBit, branchArm_resume rfl]; rfl

theorem collisionBit_past {i : Fin 64} (h : ∀ j, bp = some j → j < i) (b : Bool) : collisionBit i bp b = false := by
  have hne : bp ≠ some i := fun hq => lt_irrefl i (h i hq)
  rw [collisionBit, branchArm_zeroBranch hne (.inl h)]; rfl

theorem collisionBit_before {i j : Fin 64} (h : i < j) (b : Bool) : collisionBit i (some j) b = b := by
  cases b with
  | false =>
    have hne : some j ≠ some i := fun hq => h.ne' (Option.some.inj hq)
    rw [collisionBit, branchArm_zeroBranch hne (.inr rfl)]; rfl
  | true => rw [collisionBit, branchArm_replay ⟨j, rfl, h⟩ rfl]; rfl

/-- Past `BP` the code found takes 1 only where no device has 0: no device parts from it there by taking 0. -/
theorem FoundFrom.not_parts_past (h : FoundFrom dev bp old x) (hd : d ∈ dev) (hk : ∀ j, bp = some j → j.val < k) :
    ¬PartsBelow k d x := by
  rintro ⟨hlt, hpre, hd0, hx1⟩
  have hbit := h.chosen ⟨k, hlt⟩ ⟨x, h.mem, fun _ _ => rfl, hx1⟩ ⟨d, hd, hpre.symm, hd0⟩
  rw [collisionBit_past fun j hj => hk j hj, hx1] at hbit
  cases hbit

/-- The first pass finds the first code. -/
theorem FoundFrom.least (h : FoundFrom dev none old x) (hd : d ∈ dev) : searchKey x ≤ searchKey d := by
  by_contra hlt
  obtain ⟨k, hk⟩ := parts_of_searchKey_lt (not_le.mp hlt)
  exact h.not_parts_past hd (by simp) hk

/-- Below `BP` a pass finds the bits of the code before. -/
theorem FoundFrom.samePrefix {p : Fin 64} (h : FoundFrom dev (some p) old x) (hold : old ∈ dev) :
    ∀ k ≤ p.val, SamePrefix k old x
  | 0, _ => fun j hj => absurd hj (Nat.not_lt_zero j)
  | k + 1, hk => by
    have hpre := h.samePrefix hold k (by omega)
    refine samePrefix_succ.mpr ⟨hpre, ?_⟩
    by_contra hne
    have hmine : HasBit dev x k (x.getLsbD k) := ⟨x, h.mem, fun _ _ => rfl, rfl⟩
    have hearlier : HasBit dev x k (old.getLsbD k) := ⟨old, hold, hpre.symm, rfl⟩
    have hboth : HasBit dev x k true ∧ HasBit dev x k false := by
      cases hx : x.getLsbD k <;> cases ho : old.getLsbD k <;> simp_all
    have hbit := h.chosen ⟨k, by omega⟩ hboth.1 hboth.2
    rw [collisionBit_before (Fin.mk_lt_of_lt_val hk)] at hbit
    exact hne hbit.symm

/-- At `BP`, the last fork of the code before, a pass finds 1. -/
theorem FoundFrom.parts {p : Fin 64} (h : FoundFrom dev (some p) old x) (hold : old ∈ dev) (hf : Fork dev old p.val) :
    PartsBelow p.val old x := by
  obtain ⟨h0, h1⟩ := hf
  have hpre := h.samePrefix hold p.val le_rfl
  have hbit := h.chosen p (h1.congr hpre) ⟨old, hold, hpre.symm, h0⟩
  exact ⟨p.isLt, hpre, h0, hbit.trans (collisionBit_at _)⟩

/-- A device after `x` in the order parts from it at a fork. -/
theorem PartsBelow.fork (h : PartsBelow k x d) (hd : d ∈ dev) : Fork dev x k := by
  obtain ⟨-, hpre, h0, h1⟩ := h
  exact ⟨h0, d, hd, hpre, h1⟩

/-- A later pass finds the next code: none of the devices lies between. -/
theorem FoundFrom.next {p : Fin 64} (h : FoundFrom dev (some p) old x) (hold : old ∈ dev)
    (hf : ForkRecord dev old 64 false (some p)) (hd : d ∈ dev) (hlt : searchKey old < searchKey d) :
    searchKey x ≤ searchKey d := by
  cases hf with
  | last _ _ hfork hlast =>
    obtain ⟨-, hpre, h0, h1⟩ := h.parts hold hfork
    obtain ⟨k, hk⟩ := parts_of_searchKey_lt hlt
    have hle : k ≤ p.val := by
      by_contra hpk
      exact hlast k (by omega) hk.1 (hk.fork hd)
    obtain ⟨hk64, hkpre, hk0, hk1⟩ := hk
    obtain hkp | rfl := hle.lt_or_eq
    · exact (PartsBelow.searchKey_lt (k := k) ⟨hk64, (hpre.mono hle).symm.trans hkpre, (hpre k hkp).symm.trans hk0, hk1⟩).le
    · by_contra hdx
      obtain ⟨m, hm⟩ := parts_of_searchKey_lt (not_le.mp hdx)
      refine h.not_parts_past hd (k := m) ?_ hm
      rintro _ ⟨⟩
      obtain ⟨-, hmpre, hm0, hm1⟩ := hm
      by_contra hmp
      obtain hmp | hmp := (not_lt.mp hmp).lt_or_eq
      · rw [← hkpre m hmp, hpre m hmp, hm1] at hm0
        cases hm0
      · rw [hmp, hk1] at hm0
        cases hm0

/-- Without a fork no device comes after. -/
theorem ForkRecord.none_after {n : Option (Fin 64)} (h : ForkRecord dev x 64 true n) (hd : d ∈ dev) :
    searchKey d ≤ searchKey x := by
  cases h with
  | clear _ h =>
    by_contra hlt
    obtain ⟨k, hk⟩ := parts_of_searchKey_lt (not_le.mp hlt)
    exact h k hk.1 (hk.fork hd)

/-- With a fork there is a device that comes after. -/
theorem Fork.exists_after (h : Fork dev x k) (hk : k < 64) : ∃ d ∈ dev, searchKey x < searchKey d := by
  obtain ⟨h0, d, hd, hpre, h1⟩ := h
  exact ⟨d, hd, PartsBelow.searchKey_lt ⟨hk, hpre, h0, h1⟩⟩

end Sys2Proof.Machine

/-! ### A pass on the answers of the devices -/

namespace Sys2Proof.Machine

variable {dev : List RomCode} {c c0 : Cursor} {k : Nat} {s : State}

/-- The cursor with the devices' answers at its index. -/
def Cursor.answered (dev : List RomCode) (c : Cursor) : Cursor :=
  c.responded (trueBit dev c.cand c.idx.val) (complementBit dev c.cand c.idx.val)

/-- Where the devices part, the direction is R121's. -/
theorem direction_of_parting (ht : HasBit dev c.cand c.idx.val true) (hf : HasBit dev c.cand c.idx.val false) :
    (c.answered dev).direction = collisionBit c.idx c.bp (c.cand.getLsbD c.idx.val) :=
  if_pos ((trueBit_eq_false_iff.mpr hf).trans (complementBit_eq_false_iff.mpr ht).symm)

/-- The direction is the bit of a device that takes part. -/
theorem hasBit_direction (h : ∃ d ∈ dev, SamePrefix c.idx.val c.cand d) :
    HasBit dev c.cand c.idx.val (c.answered dev).direction := by
  obtain ⟨d, hd, hpre⟩ := h
  have hmine : HasBit dev c.cand c.idx.val (d.getLsbD c.idx.val) := ⟨d, hd, hpre, rfl⟩
  by_cases hab : trueBit dev c.cand c.idx.val = complementBit dev c.cand c.idx.val
  · have hboth : HasBit dev c.cand c.idx.val true ∧ HasBit dev c.cand c.idx.val false := by
      rw [← complementBit_eq_false_iff, ← trueBit_eq_false_iff, ← hab, and_self, ← Bool.not_eq_true]
      exact fun ht => not_both_answers ⟨d, hd, hpre⟩ ⟨ht, hab ▸ ht⟩
    cases (c.answered dev).direction
    · exact hboth.2
    · exact hboth.1
  · have hdir : (c.answered dev).direction = trueBit dev c.cand c.idx.val := if_neg hab
    rw [hdir]
    cases ht : trueBit dev c.cand c.idx.val with
    | false => exact trueBit_eq_false_iff.mp ht
    | true => exact complementBit_eq_false_iff.mp (by simpa [ht] using hab)

/-- The 0-branch is taken where the direction is 0 and a device would have answered to 1. -/
theorem forks_answered_iff (h : ∃ d ∈ dev, SamePrefix c.idx.val c.cand d) :
    (c.answered dev).forks = true ↔ (c.answered dev).direction = false ∧ HasBit dev c.cand c.idx.val true := by
  have hboth := not_both_answers h
  by_cases hab : trueBit dev c.cand c.idx.val = complementBit dev c.cand c.idx.val
  · have hforks : (c.answered dev).forks = !(c.answered dev).direction := by
      simp [Cursor.forks, Cursor.answered, Cursor.responded, hab]
    rw [hforks, ← complementBit_eq_false_iff, ← hab, Bool.not_eq_true', ← Bool.not_eq_true (trueBit _ _ _)]
    exact (and_iff_left fun ht => hboth ⟨ht, hab ▸ ht⟩).symm
  · have hforks : (c.answered dev).forks = false := by simp [Cursor.forks, Cursor.answered, Cursor.responded, hab]
    have hdir : (c.answered dev).direction = trueBit dev c.cand c.idx.val := if_neg hab
    rw [hforks, hdir, ← complementBit_eq_false_iff]
    exact iff_of_false Bool.false_ne_true fun ⟨ht, hc⟩ => hab (ht.trans hc.symm)

/-- The cursor after the next index. -/
def Cursor.stepped (dev : List RomCode) (c : Cursor) : Cursor := (c.answered dev).decided.recorded

theorem Cursor.stepped_getLsbD (j : Nat) : (c.stepped dev).cand.getLsbD j =
    if j = c.idx.val then (c.answered dev).direction else c.cand.getLsbD j := by
  by_cases hj : j < 64
  · exact setBit_getLsbD c.cand c.idx.isLt hj (c.answered dev).direction
  · rw [BitVec.getLsbD_of_ge _ _ (by omega), BitVec.getLsbD_of_ge _ _ (by omega), if_neg (by omega)]

/-- The next index leaves the bits below it, and takes the direction. -/
theorem Cursor.samePrefix_stepped : SamePrefix c.idx.val c.cand (c.stepped dev).cand := fun j hj => by
  rw [stepped_getLsbD, if_neg hj.ne]

theorem Cursor.stepped_getLsbD_idx : (c.stepped dev).cand.getLsbD c.idx.val = (c.answered dev).direction := by
  rw [stepped_getLsbD, if_pos rfl]

/-- What the cursor holds in a pass once the bits below `k` are sent; `c0` is the cursor the pass began with. -/
structure Searched (dev : List RomCode) (c0 : Cursor) (k : Nat) (c : Cursor) : Prop where
  idx : c.idx.val = min k 63
  follows : ∃ d ∈ dev, SamePrefix k c.cand d
  pending : ∀ j, k ≤ j → c.cand.getLsbD j = c0.cand.getLsbD j
  chosen : ∀ i : Fin 64, i.val < k → HasBit dev c.cand i.val true → HasBit dev c.cand i.val false →
    c.cand.getLsbD i.val = collisionBit i c0.bp (c0.cand.getLsbD i.val)
  forks : ForkRecord dev c.cand k c.fin c.nbp
  kept : c.bp = c0.bp ∧ c.count = c0.count ∧ c.err = c0.err

theorem Searched.start (hdev : dev ≠ []) (hi : c0.idx = 0) (hfin : c0.fin = true) : Searched dev c0 0 c0 where
  idx := by rw [hi]; rfl
  follows := by
    obtain ⟨d, hd⟩ := List.exists_mem_of_ne_nil dev hdev
    exact ⟨d, hd, fun j hj => absurd hj j.not_lt_zero⟩
  pending _ _ := rfl
  chosen i hi := absurd hi i.val.not_lt_zero
  forks := hfin ▸ .clear _ fun i hi => absurd hi i.not_lt_zero
  kept := ⟨rfl, rfl, rfl⟩

theorem Searched.idx_of_lt (h : Searched dev c0 k c) (hk : k < 64) : c.idx.val = k := by rw [h.idx]; omega

/-- `FIN` and `NBP` keep the record of the forks. -/
theorem ForkRecord.stepped (h : ForkRecord dev c.cand c.idx.val c.fin c.nbp)
    (hfollows : ∃ d ∈ dev, SamePrefix c.idx.val c.cand d) :
    ForkRecord dev (c.stepped dev).cand (c.idx.val + 1) (c.stepped dev).fin (c.stepped dev).nbp := by
  have hpre := Cursor.samePrefix_stepped (dev := dev) (c := c)
  have hfork : Fork dev (c.stepped dev).cand c.idx.val ↔ (c.answered dev).forks = true := by
    rw [forks_answered_iff hfollows, Fork, Cursor.stepped_getLsbD_idx]
    exact and_congr_right fun _ => ⟨fun hb => hb.congr hpre.symm, fun hb => hb.congr hpre⟩
  have hfin : (c.stepped dev).fin = (c.fin && !(c.answered dev).forks) := rfl
  have hnbp : (c.stepped dev).nbp = if (c.answered dev).forks then some c.idx else c.nbp := rfl
  cases hf : (c.answered dev).forks with
  | true =>
    rw [hfin, hnbp, hf, if_pos rfl, Bool.not_true, Bool.and_false]
    exact .succ_of_fork (hfork.mpr hf)
  | false =>
    rw [hfin, hnbp, hf, if_neg Bool.false_ne_true, Bool.not_false, Bool.and_true]
    exact (h.congr hpre).succ_of_not (hfork.not.mpr (by simp [hf]))

theorem Searched.step (h : Searched dev c0 k c) (hk : k < 64) : Searched dev c0 (k + 1) (c.stepped dev) := by
  obtain rfl := h.idx_of_lt hk
  have hpre := Cursor.samePrefix_stepped (dev := dev) (c := c)
  obtain ⟨hbp, hcount, herr⟩ := h.kept
  exact {
    idx := by
      change (if c.idx = 63 then c.idx else c.idx + 1).val = _
      split <;> omega
    follows := by
      obtain ⟨d, hd, hdpre, hbit⟩ := hasBit_direction h.follows
      exact ⟨d, hd, samePrefix_succ.mpr ⟨hpre.symm.trans hdpre, Cursor.stepped_getLsbD_idx.trans hbit.symm⟩⟩
    pending := fun j hj => by rw [Cursor.stepped_getLsbD, if_neg (by omega), h.pending j (by omega)]
    chosen := fun i hi ht hf => by
      obtain hi | hi := Nat.lt_succ_iff_lt_or_eq.mp hi
      · have hsame := (hpre.mono hi.le).symm
        rw [← hpre i.val hi, h.chosen i hi (ht.congr hsame) (hf.congr hsame)]
      · obtain rfl := Fin.ext hi
        rw [Cursor.stepped_getLsbD_idx, direction_of_parting (ht.congr hpre.symm) (hf.congr hpre.symm), hbp,
          h.pending _ le_rfl]
    forks := h.forks.stepped h.follows
    kept := ⟨hbp, hcount, herr⟩ }

/-- After index 63 the candidate is a device, found as R121 says. -/
theorem Searched.found (h : Searched dev c0 64 c) : FoundFrom dev c0.bp c0.cand c.cand := by
  obtain ⟨d, hd, hpre⟩ := h.follows
  exact ⟨eq_of_samePrefix hpre ▸ hd, fun i => h.chosen i i.isLt⟩

/-! #### What is exchanged -/

/-- The requests and answers at index `k` of a pass that finds `x`. -/
def indexExchange (dev : List RomCode) (x : RomCode) (k : Nat) : List (Instr × Byte) :=
  (.phyReadBit, bitAnswer (trueBit dev x k)) :: (.phyReadBit, bitAnswer (complementBit dev x k)) :: sentBits [x.getLsbD k]

theorem indexExchange_congr {x y : RomCode} (h : SamePrefix (k + 1) x y) :
    indexExchange dev x k = indexExchange dev y k := by
  obtain ⟨hpre, hk⟩ := samePrefix_succ.mp h
  rw [indexExchange, trueBit, complementBit, taking_congr hpre, hk]
  rfl

/-- The requests and answers at the indices below `k`. -/
def indexExchanges (dev : List RomCode) (x : RomCode) (k : Nat) : List (Instr × Byte) :=
  (List.range k).flatMap (indexExchange dev x)

theorem indexExchanges_succ (x : RomCode) (k : Nat) :
    indexExchanges dev x (k + 1) = indexExchanges dev x k ++ indexExchange dev x k := by
  simp [indexExchanges, List.range_succ]

theorem indexExchanges_congr {x y : RomCode} : ∀ {k : Nat}, SamePrefix k x y →
    indexExchanges dev x k = indexExchanges dev y k
  | 0, _ => rfl
  | k + 1, h => by
    rw [indexExchanges_succ, indexExchanges_succ, indexExchanges_congr (h.mono k.le_succ), indexExchange_congr h]

/-- The core's step through an index on the devices' answers. -/
theorem passes_stepped (hm : s.mode = .bit) (h : ∃ d ∈ dev, SamePrefix c.idx.val c.cand d) :
    Passes s .sReadA c (indexExchange dev (c.stepped dev).cand c.idx.val) (phaseAfterIndex c.idx) (c.stepped dev) := by
  have hpre := Cursor.samePrefix_stepped (dev := dev) (c := c)
  rw [indexExchange, trueBit, complementBit, ← taking_congr hpre, Cursor.stepped_getLsbD_idx]
  exact passes_index hm (not_both_answers h)

/-- The core searches on the devices' answers, index by index. -/
theorem passes_indices (hm : s.mode = .bit) (hdev : dev ≠ []) (hi : c0.idx = 0) (hfin : c0.fin = true) :
    ∀ k ≤ 64, ∃ c, Searched dev c0 k c ∧
      Passes s .sReadA c0 (indexExchanges dev c.cand k) (if k = 64 then .sStore else .sReadA) c
  | 0, _ => ⟨c0, .start hdev hi hfin, .refl _ _⟩
  | k + 1, hk => by
    obtain ⟨c, hc, hrun⟩ := passes_indices hm hdev hi hfin k (by omega)
    obtain rfl := hc.idx_of_lt hk
    have hphase : phaseAfterIndex c.idx = if c.idx.val + 1 = 64 then .sStore else .sReadA := by
      rw [phaseAfterIndex]
      congr 1
      simp only [Fin.ext_iff, eq_iff_iff]
      omega
    refine ⟨c.stepped dev, hc.step hk, ?_⟩
    rw [if_neg (by omega)] at hrun
    rw [indexExchanges_succ, ← indexExchanges_congr Cursor.samePrefix_stepped, ← hphase]
    exact hrun.trans (passes_stepped hm hc.follows)

/-- The requests and answers of a pass that finds `x`: the bus reset, the command, the indices. -/
def passExchanges (dev : List RomCode) (bits : List Bool) (x : RomCode) : List (Instr × Byte) :=
  (.phyResetAndSense, 1) :: (sentBits bits ++ indexExchanges dev x 64)

/-- A pass with devices on the bus, from its bus reset to its store (R116 to R124). -/
theorem passes_search (hm : s.mode = .bit) (hdev : dev ≠ []) (hfin : c0.fin = true) :
    ∃ (bits : List Bool) (c : Cursor), bits.length = 8 ∧ FoundFrom dev c0.bp c0.cand c.cand ∧
      ForkRecord dev c.cand 64 c.fin c.nbp ∧ c.count = c0.count ∧ c.err = c0.err ∧
      Passes s .sReset c0 (passExchanges dev bits c.cand) .sStore c := by
  obtain ⟨bits, hlen, hcommand⟩ := passes_command hm 7 (c := { c0 with cidx := 0 }) rfl
  obtain ⟨c, hc, hindices⟩ := passes_indices (c0 := { c0 with cidx := 7, idx := 0 }) hm hdev rfl hfin 64 le_rfl
  obtain ⟨-, hcount, herr⟩ := hc.kept
  exact ⟨bits, c, hlen, hc.found, hc.forks, hcount, herr, ((passes_present hm rfl).trans hcommand).trans hindices⟩

end Sys2Proof.Machine

/-! ### From a bus reset to the next loop condition, and to the end -/

namespace Sys2Proof.Machine

variable {dev : List RomCode} {x d : RomCode} {s t : State}

/-- What `S_STORE` leaves (R125). -/
def stored (s : State) : State := countPass (if storesCandidate s then storeCandidate s else s)

@[simp] theorem stored_cur (s : State) : (stored s).cur = { s.cur with count := s.cur.count + 1 } := by
  unfold stored; split <;> rfl
@[simp] theorem stored_phy (s : State) : (stored s).phy = s.phy := by unfold stored; split <;> rfl
@[simp] theorem stored_mode (s : State) : (stored s).mode = s.mode := by unfold stored; split <;> rfl
@[simp] theorem stored_lat (s : State) : (stored s).lat = s.lat := by unfold stored; split <;> rfl
@[simp] theorem stored_outPinned (s : State) : (stored s).outPinned = s.outPinned := by unfold stored; split <;> rfl

theorem stored_out_wf (hwf : s.out.wf = true) : (stored s).out.wf = true := by
  simp only [stored, countPass]
  split
  · simp only [storeCandidate]
    split
    · exact hwf
    · exact Memory.wf_write _ _ hwf
  · exact hwf

/-- The entry `COUNT` takes the candidate where there is room, if the host has pinned nothing. -/
theorem stored_out_read (hwf : s.out.wf = true) (hpin : s.outPinned = []) (h0 : 0 ≤ s.cur.count) :
    (stored s).out.read s.cur.count.toNat =
      if s.lat.bufen = true ∧ s.cur.count < (s.lat.cap : Int) then s.cur.cand else s.out.read s.cur.count.toNat := by
  have hroom : storesCandidate s = true ↔ s.lat.bufen = true ∧ s.cur.count < (s.lat.cap : Int) :=
    storesCandidate_iff.trans (and_congr_right fun _ => and_iff_right h0)
  simp only [stored, countPass, ← hroom]
  split
  · rw [read_storeCandidate_same hwf, hpin, if_neg List.not_mem_nil]
  · rfl

theorem stored_out_read_other {k : Nat} (hk : k ≠ s.cur.count.toNat) : (stored s).out.read k = s.out.read k := by
  simp only [stored, countPass]
  split
  · exact read_storeCandidate_other hk
  · rfl

/-- A pass with devices on the bus, from its bus reset to the next `S_CHECK` (R116 to R125). -/
theorem scanRun_pass (hp : s.phase = .sReset) (hy : s.phy.freeInBitMode) (hm : s.mode = .bit) (hdev : dev ≠ [])
    (hfin : s.cur.fin = true) : ∃ (n : Nat) (bits : List Bool) (c : Cursor) (y : PhyPort) (tr : List TraceEvent),
      bits.length = 8 ∧ FoundFrom dev s.cur.bp s.cur.cand c.cand ∧ ForkRecord dev c.cand 64 c.fin c.nbp ∧
      c.count = s.cur.count ∧ c.err = s.cur.err ∧ y.freeInBitMode ∧
      ScanRun n s (passExchanges dev bits c.cand) (stored (s.inPass .sStore c y tr)) := by
  obtain ⟨bits, c, hlen, hfound, hforks, hcount, herr, hrun⟩ := passes_search hm hdev hfin
  obtain ⟨n, y, tr, ⟨hr, ha, hpm⟩, hrun⟩ := hrun s.phy s.trace hy
  have hs : s.inPass .sReset s.cur s.phy s.trace = s := by rw [State.inPass, ← hp]
  have hstore := scanRun_store (s := s.inPass .sStore c y tr) rfl ⟨hr, ha⟩
  have hall := hrun.trans hstore
  rw [hs, List.append_nil] at hall
  exact ⟨n + 1, bits, c, y, tr, hlen, hfound, hforks, hcount, herr, ⟨hr, ha, hpm⟩, hall⟩

/-- A scan that the loop condition ends, with `v` the answer to the mode switch. -/
def finished (v : Byte) (s : State) : State := sExitDone (exchanged .phySetModeByte v { s with phase := .sExit })

/-- `S_CHECK` where the last pass took no 0-branch, then `S_EXIT` (R114, R126, R127). -/
theorem scanRun_finish (hp : s.phase = .sCheck) (hy : s.phy.freeInBitMode) (hm : s.mode = .bit) (hfin : s.cur.fin = true)
    (v : Byte) : ScanRun 4 s [(.phySetModeByte, v)] (finished v s) := by
  obtain ⟨hr, ha, hpm⟩ := hy
  have hc : anotherPass s = false := by simp [anotherPass, hfin]
  exact (scanRun_lastCheck hp ⟨hr, ha⟩ hc).trans
    (scanRun_exit (s := { s with phase := .sExit }) rfl ⟨hr, ha⟩ (hpm.trans hm.symm) v)

/-! ### One device (R128, R136) -/

theorem trueBit_single (k : Nat) : trueBit [x] x k = x.getLsbD k := by simp [trueBit, taking]

theorem complementBit_single (k : Nat) : complementBit [x] x k = !x.getLsbD k := by simp [complementBit, taking]

/-- One device answers its bit, then its complement. -/
theorem indexExchange_single (k : Nat) : (indexExchange [x] x k).map Prod.snd =
    [if x.getLsbD k then 1 else 0, if x.getLsbD k then 0 else 1, 0] := by
  rw [indexExchange, trueBit_single, complementBit_single]
  cases x.getLsbD k <;> rfl

theorem sentBits_answers (bits : List Bool) : (sentBits bits).map Prod.snd = List.replicate bits.length 0 := by
  rw [sentBits, List.map_map]
  exact List.map_const ..

/-- The answers of a scan with one pass that finds the one device. -/
theorem oneDeviceAnswers_eq {bits : List Bool} (hlen : bits.length = 8) (x : RomCode) :
    ((.phySetModeBit, 0) :: (passExchanges [x] bits x ++ [(.phySetModeByte, 0)])).map Prod.snd = oneDeviceAnswers x := by
  simp [passExchanges, oneDeviceAnswers, indexExchanges, List.map_flatMap, indexExchange_single, sentBits_answers, hlen]

theorem oneDeviceAnswers_length (x : RomCode) : (oneDeviceAnswers x).length = 203 := by
  simp [oneDeviceAnswers]

/-- One device's pass has no fork. -/
theorem ForkRecord.single {k : Nat} {f : Bool} {n : Option (Fin 64)} (h : ForkRecord [x] x k f n) : f = true := by
  cases h with
  | clear => rfl
  | last p _ hf =>
    obtain ⟨h0, d, hd, -, h1⟩ := hf
    rw [List.mem_singleton.mp hd, h0] at h1
    cases h1

/-- Settles O30: the run to the first bus reset, the one pass, which finds the device and no fork, and the end. -/
theorem oneDeviceScanFindsIt : Obligations.OneDeviceScanFindsIt := by
  intro s rom hcfg hwf hp hm hr hi
  obtain ⟨hpm, hreq, hack, -⟩ := phyReady_iff.mp hr
  have hfirst := scanRun_firstPass (s := startedScan s) rfl ⟨hreq, hack⟩ (hpm.trans hm.symm) 0
  obtain ⟨n, bits, c, y, tr, hlen, hfound, hforks, hcount, herr, hy, hpass⟩ :=
    scanRun_pass (dev := [rom]) (s := firstPass 0 (startedScan s)) rfl ⟨hreq, hack, rfl⟩ rfl (by simp) rfl
  obtain rfl : c.cand = rom := List.mem_singleton.mp hfound.mem
  have hcount0 : c.count = 0 := hcount
  have herr0 : c.err = none := herr
  have hfinish := scanRun_finish (s := stored ((firstPass 0 (startedScan s)).inPass .sStore c y tr)) rfl
    (by rw [stored_phy]; exact hy) (by rw [stored_mode]; rfl) (by rw [stored_cur]; exact hforks.single) 0
  have hrun := (hfirst.trans hpass).trans hfinish
  have hanswers := oneDeviceAnswers_eq hlen c.cand
  refine ⟨_, _, runSteps_scan hrun hp hr (hanswers ▸ hi), rfl, rfl, rfl, ?_, ?_, ?_, ?_, fun k hk => ?_⟩
  · change (stored _).cur.count = 1
    rw [stored_cur]
    exact congrArg (· + 1) hcount0
  · change errorCode (stored _).cur.err = 0
    rw [stored_cur]
    exact congrArg errorCode herr0
  · have hlength := congrArg List.length hanswers
    rw [List.length_map, oneDeviceAnswers_length] at hlength
    exact hrun.phyCount.trans (congrArg _ hlength)
  · have hread := stored_out_read (s := (firstPass 0 (startedScan s)).inPass .sStore c y tr) hwf rfl hcount0.ge
    simp only [State.inPass, hcount0, Int.toNat_zero, Nat.cast_pos] at hread
    exact hread
  · refine stored_out_read_other (s := (firstPass 0 (startedScan s)).inPass .sStore c y tr) ?_
    simpa [State.inPass, hcount0] using hk.ne'

end Sys2Proof.Machine

/-! ### The reference bus (95_test_vectors.md section 3.1) -/

namespace Sys2Proof.Machine

variable {dev found : List RomCode} {x d : RomCode} {s t : State}

theorem bitOperand_getLsbD_zero (b : Bool) : (bitOperand b).getLsbD 0 = b := by cases b <;> rfl

/-- The bus in a pass whose bits below `k` are those of `x`. -/
def RefBus.following (dev : List RomCode) (x : RomCode) (k : Nat) : RefBus :=
  { dev := dev, act := taking dev x k, pos := k, complementNext := false, cmdBits := 8 }

/-- The bus answers an index as the devices do. -/
theorem RefBus.plays_index (k : Nat) :
    (following dev x k).Plays (indexExchange dev x k) (following dev x (k + 1)) := by
  have htrue : (taking dev x k).all (fun r => r.getLsbD k != false) = trueBit dev x k := by simp [trueBit]
  have hcompl : (taking dev x k).all (fun r => r.getLsbD k != true) = complementBit dev x k := by simp [complementBit]
  refine ⟨congrArg bitAnswer htrue.symm, congrArg bitAnswer hcompl.symm, rfl, ?_⟩
  change following dev x (k + 1) = { following dev x k with
    act := (taking dev x k).filter fun r => r.getLsbD k == (bitOperand (x.getLsbD k)).getLsbD 0
    pos := k + 1, complementNext := false }
  rw [bitOperand_getLsbD_zero, ← taking_succ]
  rfl

theorem RefBus.plays_indices : ∀ k : Nat, (following dev x 0).Plays (indexExchanges dev x k) (following dev x k)
  | 0 => rfl
  | k + 1 => by
    rw [indexExchanges_succ]
    exact (plays_indices k).append (plays_index k)

/-- The bus takes the search command's bits. -/
theorem RefBus.plays_command : ∀ (bits : List Bool) {b : RefBus}, b.cmdBits + bits.length ≤ 8 →
    b.Plays (sentBits bits) { b with cmdBits := b.cmdBits + bits.length }
  | [], _, _ => rfl
  | d :: bits, b, h => by
    have hb : b.cmdBits < 8 := by rw [List.length_cons] at h; omega
    have hanswer : b.answer (.phySendBit (bitOperand d)) = (0, { b with cmdBits := b.cmdBits + 1 }) := if_pos hb
    have hrest := plays_command bits (b := { b with cmdBits := b.cmdBits + 1 }) (by simp at h ⊢; omega)
    refine ⟨by rw [hanswer], ?_⟩
    rw [hanswer]
    rw [List.length_cons, Nat.add_comm bits.length, ← Nat.add_assoc]
    exact hrest

/-- The bus answers a pass as its devices do. -/
theorem RefBus.plays_pass {b : RefBus} {bits : List Bool} (hb : b.dev = dev) (hdev : dev ≠ []) (hlen : bits.length = 8) :
    b.Plays (passExchanges dev bits x) (following dev x 64) := by
  have hpresent : (b.answer .phyResetAndSense).1 = 1 := by
    simp [RefBus.answer, hb, hdev]
  have hcommand := plays_command bits (b := (b.answer .phyResetAndSense).2) (by simp [RefBus.answer, hlen])
  refine ⟨hpresent.symm, hcommand.append ?_⟩
  have hstart : { (b.answer .phyResetAndSense).2 with
      cmdBits := (b.answer .phyResetAndSense).2.cmdBits + bits.length } = following dev x 0 := by
    simp [RefBus.answer, following, taking_zero, hb, hlen]
  rw [hstart]
  exact plays_indices 64

/-! ### Enumeration (R134 to R136) -/

theorem searchKey_injective (h : searchKey x = searchKey d) : x = d := by
  obtain he | ⟨k, hk | hk⟩ := eq_or_parts x d
  · exact he
  · exact absurd h hk.searchKey_lt.ne
  · exact absurd h hk.searchKey_lt.ne'

/-- `found` holds the first devices in the order of the search. -/
structure Enumerated (dev found : List RomCode) : Prop where
  sorted : found.Pairwise fun x y => searchKey x < searchKey y
  mem : ∀ x ∈ found, x ∈ dev
  lower : ∀ d ∈ dev, d ∈ found ∨ ∀ x ∈ found, searchKey x < searchKey d

theorem Enumerated.nil : Enumerated dev [] := ⟨.nil, by simp, by simp⟩

/-- The next device in the order, the last of all so far. -/
theorem Enumerated.push (h : Enumerated dev found) (hx : x ∈ dev) (hlast : ∀ y ∈ found, searchKey y < searchKey x)
    (hnext : ∀ d ∈ dev, (∀ y ∈ found, searchKey y < searchKey d) → searchKey x ≤ searchKey d) :
    Enumerated dev (found ++ [x]) where
  sorted := List.pairwise_append.mpr ⟨h.sorted, List.pairwise_singleton _ _, fun y hy z hz =>
    List.mem_singleton.mp hz ▸ hlast y hy⟩
  mem y hy := by
    obtain hy | hy := List.mem_append.mp hy
    · exact h.mem y hy
    · exact List.mem_singleton.mp hy ▸ hx
  lower d hd := by
    obtain hin | hout := h.lower d hd
    · exact .inl (List.mem_append_left _ hin)
    · obtain hlt | heq := (hnext d hd hout).lt_or_eq
      · refine .inr fun y hy => ?_
        obtain hy | hy := List.mem_append.mp hy
        · exact hout y hy
        · exact List.mem_singleton.mp hy ▸ hlt
      · exact .inl (by simp [searchKey_injective heq])

theorem Enumerated.nodup (h : Enumerated dev found) : found.Nodup :=
  h.sorted.imp fun hlt he => hlt.ne (congrArg searchKey he)

theorem Enumerated.length_le (h : Enumerated dev found) : found.length ≤ dev.length :=
  (List.subperm_of_subset h.nodup h.mem).length_le

theorem Enumerated.perm (h : Enumerated dev found) (hdev : dev.Nodup) (hall : ∀ d ∈ dev, d ∈ found) : found.Perm dev :=
  (List.perm_ext_iff_of_nodup h.nodup hdev).mpr fun d => ⟨h.mem d, hall d⟩

/-- `BP` and the candidate with which a pass begins after those that found `found` (R115, R129). -/
def ResumesAfter (dev found : List RomCode) (c : Cursor) : Prop :=
  (found = [] ∧ c.bp = none) ∨
    ∃ before p, found = before ++ [c.cand] ∧ c.bp = some p ∧ ForkRecord dev c.cand 64 false (some p)

/-- A pass finds the next device in the order. -/
theorem Enumerated.push_found {c : Cursor} (h : Enumerated dev found) (hc : ResumesAfter dev found c)
    (hx : FoundFrom dev c.bp c.cand x) : Enumerated dev (found ++ [x]) := by
  obtain ⟨rfl, hbp⟩ | ⟨before, p, rfl, hbp, hforks⟩ := hc
  · rw [hbp] at hx
    exact h.push hx.mem (by simp) fun d hd _ => hx.least hd
  · rw [hbp] at hx
    have hold : c.cand ∈ dev := h.mem _ (by simp)
    have hlt : searchKey c.cand < searchKey x := by
      cases hforks with
      | last _ _ hf => exact (hx.parts hold hf).searchKey_lt
    obtain ⟨-, -, hbefore⟩ := List.pairwise_append.mp h.sorted
    refine h.push hx.mem (fun y hy => ?_) fun d hd hall => hx.next hold hforks hd (hall _ (by simp))
    obtain hy | hy := List.mem_append.mp hy
    · exact (hbefore y hy _ (by simp)).trans hlt
    · exact List.mem_singleton.mp hy ▸ hlt

/-- While a device comes after those found, there are fewer found than devices. -/
theorem Enumerated.length_lt (h : Enumerated dev found) (hd : d ∈ dev) (hall : ∀ x ∈ found, searchKey x < searchKey d) :
    found.length < dev.length := by
  have hnew : (d :: found).Nodup := List.nodup_cons.mpr ⟨fun hin => lt_irrefl _ (hall d hin), h.nodup⟩
  exact (List.subperm_of_subset hnew (List.cons_subset.mpr ⟨hd, h.mem⟩)).length_le

/-- `out` holds the codes found in its first entries, and what it held before in the others. -/
structure HoldsFound (before out : Memory) (found : List RomCode) : Prop where
  wf : out.wf = true
  entries : (List.range found.length).map out.read = found
  rest : ∀ k, found.length ≤ k → out.read k = before.read k

/-- The next entry takes the next code. -/
theorem HoldsFound.push {before out out' : Memory} (h : HoldsFound before out found) (hwf : out'.wf = true)
    (hnew : out'.read found.length = x) (hother : ∀ k, k ≠ found.length → out'.read k = out.read k) :
    HoldsFound before out' (found ++ [x]) where
  wf := hwf
  entries := by
    have hsame : (List.range found.length).map out'.read = (List.range found.length).map out.read :=
      List.map_congr_left fun k hk => hother k (List.mem_range.mp hk).ne
    rw [List.length_append, List.length_singleton, List.range_succ, List.map_append, hsame, h.entries, List.map_singleton, hnew]
  rest k hk := by
    rw [List.length_append, List.length_singleton] at hk
    rw [hother k (by omega), h.rest k (by omega)]

/-! ### The scan of the reference bus -/

variable {before : Memory}

/-- An unbounded scan with room, between its phases' transactions, has stored the codes of `found` and no others. -/
structure Enumerating (dev : List RomCode) (before : Memory) (found : List RomCode) (s : State) : Prop where
  port : s.phy.freeInBitMode
  mode : s.mode = .bit
  unbounded : s.lat.maxdev = 0
  room : s.lat.bufen = true ∧ dev.length ≤ s.lat.cap
  unpinned : s.outPinned = []
  count : s.cur.count = (found.length : Int)
  err : s.cur.err = none
  enumerated : Enumerated dev found
  holds : HoldsFound before s.out found

/-- The scan is about to make a pass, and there are devices left. -/
structure Resuming (dev : List RomCode) (before : Memory) (found : List RomCode) (s : State) : Prop
    extends Enumerating dev before found s where
  phase : s.phase = .sReset
  fin : s.cur.fin = true
  resumes : ResumesAfter dev found s.cur
  more : found.length < dev.length

/-- The scan has made a pass, whose forks `FIN` and `NBP` tell. -/
structure Checking (dev : List RomCode) (before : Memory) (found : List RomCode) (s : State) : Prop
    extends Enumerating dev before found s where
  phase : s.phase = .sCheck
  last : ∃ earlier, found = earlier ++ [s.cur.cand]
  forks : ForkRecord dev s.cur.cand 64 s.cur.fin s.cur.nbp

/-- A scan has ended and delivered the number of devices, each stored once and in the order of the search. -/
structure Delivered (dev : List RomCode) (before : Memory) (found : List RomCode) (s : State) : Prop where
  phase : s.phase = .idle
  mode : s.mode = .byte
  count : s.res.count = (found.length : Int)
  err : s.res.err = 0
  enumerated : Enumerated dev found
  all : ∀ d ∈ dev, d ∈ found
  holds : HoldsFound before s.out found

/-- A pass stores its code in the next entry. -/
theorem Resuming.holds_stored (h : Resuming dev before found s) {c : Cursor} (hcount : c.count = (found.length : Int))
    (y : PhyPort) (tr : List TraceEvent) :
    HoldsFound before (stored (s.inPass .sStore c y tr)).out (found ++ [c.cand]) := by
  obtain ⟨hbuf, hcap⟩ := h.room
  have hmore := h.more
  have hentry : c.count.toNat = found.length := by rw [hcount]; rfl
  have hread := stored_out_read (s := s.inPass .sStore c y tr) h.holds.wf h.unpinned (by simp [State.inPass, hcount])
  have hroom : s.lat.bufen = true ∧ c.count < (s.lat.cap : Int) := ⟨hbuf, by omega⟩
  refine h.holds.push (stored_out_wf h.holds.wf) ?_ fun k hk => stored_out_read_other (hentry ▸ hk)
  rw [← hentry]
  exact hread.trans (if_pos hroom)

/-- A pass on the answers of the reference bus stores the next device. -/
theorem Resuming.pass {b : RefBus} (h : Resuming dev before found s) (hb : b.dev = dev) :
    ∃ n l t b' x, ScanRun n s l t ∧ b.Plays l b' ∧ b'.dev = dev ∧ Checking dev before (found ++ [x]) t := by
  have hdev : dev ≠ [] := fun hnil => by simpa [hnil] using h.more
  obtain ⟨n, bits, c, y, tr, hlen, hfound, hforks, hcount, herr, hy, hrun⟩ :=
    scanRun_pass h.phase h.port h.mode hdev h.fin
  rw [h.count] at hcount
  have hcur := stored_cur (s.inPass .sStore c y tr)
  exact ⟨n, _, _, _, c.cand, hrun, RefBus.plays_pass hb hdev hlen, rfl, {
    port := by rw [stored_phy]; exact hy
    mode := by rw [stored_mode]; exact h.mode
    unbounded := by rw [stored_lat]; exact h.unbounded
    room := by rw [stored_lat]; exact h.room
    unpinned := by rw [stored_outPinned]; exact h.unpinned
    count := by
      rw [hcur, List.length_append, List.length_singleton, Nat.cast_add]
      exact congrArg (· + 1) hcount
    err := by rw [hcur]; exact herr.trans h.err
    enumerated := h.enumerated.push_found h.resumes hfound
    holds := h.holds_stored hcount y tr
    phase := rfl
    last := ⟨found, by rw [hcur]; rfl⟩
    forks := by rw [hcur]; exact hforks }⟩

/-- After a pass without a fork the scan ends: no device is left. -/
theorem Checking.finishes (h : Checking dev before found s) (hfin : s.cur.fin = true) (v : Byte) :
    ScanRun 4 s [(.phySetModeByte, v)] (finished v s) ∧ Delivered dev before found (finished v s) := by
  refine ⟨scanRun_finish h.phase h.port h.mode hfin v, rfl, rfl, h.count, congrArg errorCode h.err, h.enumerated,
    fun d hd => ?_, h.holds⟩
  obtain ⟨earlier, hlast⟩ := h.last
  have hforks := hfin ▸ h.forks
  refine (h.enumerated.lower d hd).resolve_right fun hall => ?_
  exact (hall s.cur.cand (by simp [hlast])).not_ge (hforks.none_after hd)

/-- After a pass with a fork the scan resumes at it: there are devices left. -/
theorem Checking.resumes (h : Checking dev before found s) (hfin : s.cur.fin = false) :
    ∃ t, ScanRun 2 s [] t ∧ Resuming dev before found t := by
  obtain ⟨hr, ha, -⟩ := h.port
  obtain ⟨earlier, hlast⟩ := h.last
  have hforks := hfin ▸ h.forks
  obtain ⟨p, hnbp, hfork⟩ := hforks.exists_last
  refine ⟨_, scanRun_begin h.phase ⟨hr, ha⟩ (anotherPass_iff.mpr ⟨hfin, .inl h.unbounded⟩), {
    h with
    phase := rfl
    fin := rfl
    resumes := ?_
    more := ?_ }⟩
  · exact .inr ⟨earlier, p, hlast, hnbp, hnbp ▸ hforks⟩
  · obtain ⟨d, hd, hlt⟩ := hfork.exists_after p.isLt
    have hsorted := h.enumerated.sorted
    rw [hlast] at hsorted
    obtain ⟨-, -, hearlier⟩ := List.pairwise_append.mp hsorted
    refine h.enumerated.length_lt hd fun y hy => ?_
    obtain hy | hy := List.mem_append.mp (hlast ▸ hy)
    · exact (hearlier y hy _ (by simp)).trans hlt
    · exact List.mem_singleton.mp hy ▸ hlt

/-- The scan goes on pass by pass to its end. -/
theorem Resuming.delivers : ∀ (left : Nat) {found : List RomCode} {s : State} {b : RefBus},
    Resuming dev before found s → dev.length = found.length + left → b.dev = dev →
    ∃ n l t b' all, ScanRun n s l t ∧ b.Plays l b' ∧ Delivered dev before all t
  | 0, _, _, _, h, hleft, _ => absurd h.more (by omega)
  | left + 1, found, s, b, h, hleft, hb => by
    obtain ⟨n, l, t, b', x, hrun, hplays, hb', ht⟩ := h.pass hb
    cases hfin : t.cur.fin with
    | true =>
      obtain ⟨hend, hdelivered⟩ := ht.finishes hfin 0
      exact ⟨_, _, _, b', _, hrun.trans hend, hplays.append ⟨rfl, rfl⟩, hdelivered⟩
    | false =>
      obtain ⟨u, hbegin, hu⟩ := ht.resumes hfin
      have hleft' : dev.length = (found ++ [x]).length + left := by
        rw [List.length_append, List.length_singleton]
        omega
      obtain ⟨m, r, e, b'', all, hgo, hplays', he⟩ := hu.delivers left hleft' hb'
      exact ⟨_, _, e, b'', all, (hrun.trans hbegin).trans hgo, (List.append_nil l).symm ▸ hplays.append hplays', he⟩

/-- What is still in the inbox does not enter a run with the reference bus, which answers every request itself. -/
theorem coRun_answering (n : Nat) (s : State) (b : RefBus) : coRun (n + 1) (s, b) = coRun (n + 1) (answering [] s, b) := rfl

/-- Settles O32: the run to the first bus reset, then pass by pass; what is delivered is sorted and holds each device. -/
theorem referenceBusIsEnumeratedInOrder : Obligations.ReferenceBusIsEnumeratedInOrder := by
  intro s dev hI hp hf hdev hnodup hmax hbuf hcap hpin
  obtain ⟨hr, ha⟩ := hf
  have hagree := hI.modesAgree (by simp [hp]) (by simp [hp])
  have hfirst := scanRun_firstPass hp ⟨hr, ha⟩ hagree 0
  have hstart : Resuming dev s.out [] (firstPass 0 s) := {
    port := ⟨hr, ha, rfl⟩
    mode := rfl
    unbounded := hmax
    room := ⟨hbuf, hcap⟩
    unpinned := hpin
    count := rfl
    err := rfl
    enumerated := .nil
    holds := ⟨hI.outCanonical, rfl, fun _ _ => rfl⟩
    phase := rfl
    fin := rfl
    resumes := .inl ⟨rfl, rfl⟩
    more := List.length_pos_of_ne_nil hdev }
  obtain ⟨n, l, t, b, found, hrun, hplays, ht⟩ := hstart.delivers dev.length (Nat.zero_add _).symm
    (b := { dev := dev, act := [], pos := 0, complementNext := false, cmdBits := 0 }) rfl
  have hperm := ht.enumerated.perm hnodup ht.all
  have hlen := hperm.length_eq
  have hread := ht.holds.entries
  have hco := (hfirst.trans hrun).coRun (b := { dev := dev, act := [], pos := 0, complementNext := false, cmdBits := 0 })
    (b' := b) ⟨rfl, hplays⟩
  rw [hlen] at hread
  refine ⟨5 + n, answering [] t, b, ?_, ht.phase, ht.mode, hlen ▸ ht.count, ht.err, ?_, ?_, ?_⟩
  · rw [Nat.add_comm] at hco ⊢
    exact (coRun_answering _ s _).trans hco
  · exact hread.symm ▸ hperm
  · exact hread.symm ▸ ht.enumerated.sorted
  · exact fun k hk => ht.holds.rest k (hlen ▸ hk)

end Sys2Proof.Machine

/-! PROOFS. The successor table (spec/43_laws_and_sequencing.md R142). -/

namespace Sys2Proof.Machine

variable {s t : State}

/-- From `s` to `t` the phase stays or moves along a row of R142's table. -/
def FollowsTable (s t : State) : Prop := t.phase = s.phase ∨ (s.phase, t.phase) ∈ phaseEdges

theorem FollowsTable.row {p : Phase} (hp : s.phase = p) (h : (p, t.phase) ∈ phaseEdges) : FollowsTable s t :=
  .inr (hp ▸ h)

@[simp] theorem kRun_phase : (kRun s).phase = .idle := rfl

/-- A move of the core stays in its phase, or takes the row of the table that belongs to it. -/
theorem CoreMoves.followsTable (h : CoreMoves s t) : FollowsTable s t := by
  cases h with
  | stay | issue | nextCommandBit => exact .inl rfl
  | xReset _ _ _ hp | xSend _ _ _ hp | xRead _ _ _ hp | kRun _ hp | sEnter _ _ _ hp | anotherPass _ hp | lastPass _ hp
  | sBegin _ hp | present _ _ _ hp | noDevice _ _ _ hp | lastCommandBit _ _ _ hp | sReadA _ _ _ hp | sReadB _ _ _ hp
  | sendDirection _ _ hp | zeroBranch _ hp | inconsistency _ hp | nextIndex _ _ _ hp | lastIndex _ _ _ hp
  | countOnly _ hp | store _ hp | sExit _ _ _ hp => exact .row hp (by simp [phaseEdges])

/-- A host access moves the phase by starting a command only: from `IDLE` to the command's first phase. -/
theorem HostMoves.followsTable {a : HostAccess} (h : HostMoves a s t) : FollowsTable s t := by
  cases h with
  | turnedAway | register | read | entry => exact .inl rfl
  | accepted op first latch hp hl =>
    obtain ⟨rfl, -⟩ | ⟨rfl, -⟩ | ⟨rfl, -⟩ | ⟨rfl, -⟩ | ⟨rfl, -⟩ := hl <;>
      exact .row hp (by simp [phaseEdges])

/-- Settles O37, by who acts: the core moves along the table, the host starts commands, the PHY moves no phase, and a core reset
is the one other move. -/
theorem phaseMovesAlongTheTable : Obligations.PhaseMovesAlongTheTable := by
  intro s t h
  cases step_moves h with
  | core x t h => exact h.followsTable.imp_right .inl
  | host a x t hi h => exact h.followsTable.imp_right .inl
  | phy v x w i t hi hr hd h => exact .inl h.phase_eq
  | pop | phyInit => exact .inl rfl
  | coreReset x hi => exact .inr (.inr ⟨by rw [hi]; rfl, rfl⟩)

end Sys2Proof.Machine

/-! PROOFS. The statements about core reset and liveness (spec/70_reset_and_hazards.md). -/

/-! ## Core reset and the platform's initialisation of the PHY (R170 to R172) -/

namespace Sys2Proof.Machine

variable {s : State}

theorem step_of_coreReset {x : List Event} (hi : s.inbox = .coreReset :: x) :
    step s = .next (coreReset { s with inbox := x }) := by
  simp [step, advance, advanceWith, hi, popEvent]

theorem step_of_phyInit {x : List Event} (hi : s.inbox = .phyInit :: x) : step s = phyInit { s with inbox := x } := by
  simp [step, advance, advanceWith, hi, popEvent]

/-- A core reset cuts a command short with its results kept (R171). -/
theorem coreReset_res_of_busy (hb : s.busy = true) : (coreReset s).res = s.res := if_pos hb

/-- A core reset leaves an idle core's PHY in its mode (R28). -/
theorem resetPhy_mode_of_idle (hb : s.busy = false) : (resetPhy s).mode = s.phy.mode := if_neg (by simp [hb])

/-- A core reset does not withdraw the outstanding transaction (R171). -/
theorem resetPhy_orphan (hr : s.phy.req.isSome = true) : (resetPhy s).orphan = s.phy.req := if_pos hr

/-- Settles O46: what a core reset leaves, by whether a command runs and a transaction is outstanding; the platform's
initialisation, by whether a command runs. -/
theorem coreResetAndPhyInitialisation : Obligations.CoreResetAndPhyInitialisation := by
  refine ⟨fun s rest hi => ?_, fun s rest hi => ⟨fun hb => ?_, fun hb => ?_⟩⟩
  · exact ⟨_, step_of_coreReset hi, rfl, rfl, rfl, rfl, rfl, rfl, rfl, rfl,
      coreReset_res_of_busy (s := { s with inbox := rest }), resetPhy_mode_of_idle (s := { s with inbox := rest }),
      resetPhy_orphan (s := { s with inbox := rest })⟩
  · exact (step_of_phyInit hi).trans (if_neg (by simp [hb]))
  · exact (step_of_phyInit hi).trans (if_pos hb)

end Sys2Proof.Machine

/-! ## A bounded scan with a PHY that answers (R184, R135)

A scan of which `ARG_MAXDEV` bounds the passes takes at most 201 answers a pass and two for its mode switches. With so many
to come, every step goes on, and each brings the scan nearer to the next answer or takes one. -/

namespace Sys2Proof.Machine

variable {s t : State}

/-- The phases of SCAN are its two ends and those of its passes. -/
theorem Phase.isScan_iff {p : Phase} : p.isScan = true ↔ p = .sEnter ∨ p = .sExit ∨ p.inPasses = true := by
  cases p <;> simp [Phase.isScan, Phase.inPasses]

/-! ### The bound on the passes (R111) -/

/-- The passes that a scan has made, with the one in progress. -/
def passesBegun (s : State) : Int :=
  if s.phase = .sEnter then 0 else if s.phase = .sCheck ∨ s.phase = .sExit then s.cur.count else s.cur.count + 1

/-- A scan is in progress, in a state that meets the invariant, and within its bound, which is set. -/
structure BoundedScan (s : State) : Prop where
  inv : Inv s
  scan : s.phase.isScan = true
  bounded : 0 < s.lat.maxdev
  passes : passesBegun s ≤ (s.lat.maxdev : Int)

/-- A move of the core begins no pass beyond the bound. -/
theorem CoreMoves.passesBegun_le (h : CoreMoves s t) (hB : BoundedScan s) (ht : t.phase.isScan = true) :
    passesBegun t ≤ (s.lat.maxdev : Int) := by
  have hb := hB.passes
  cases h with
  | stay | issue => exact hb
  | xReset | xSend | xRead | kRun | sExit => cases ht
  | sEnter | noDevice => exact Int.natCast_nonneg _
  | inconsistency => exact (show (-2 : Int) ≤ 0 by decide).trans (Int.natCast_nonneg _)
  | anotherPass hr hp hc =>
    obtain ⟨-, hm | hlt⟩ := anotherPass_iff.mp hc
    · exact absurd hm hB.bounded.ne'
    · exact hlt
  | lastPass hr hp | sBegin hr hp | present v hr ha hp | nextCommandBit v hr ha hp | lastCommandBit v hr ha hp
  | sReadA v hr ha hp | sReadB v hr ha hp | sendDirection d hr hp | zeroBranch hr hp | nextIndex v hr ha hp
  | lastIndex v hr ha hp | countOnly hr hp | store hr hp => simpa [passesBegun, hp] using hb

theorem CoreMoves.boundedScan (h : CoreMoves s t) (hB : BoundedScan s) (ht : t.phase.isScan = true) : BoundedScan t where
  inv := h.inv hB.inv
  scan := ht
  bounded := h.lat_eq ▸ hB.bounded
  passes := h.lat_eq ▸ h.passesBegun_le hB ht

/-! ### The answers still to come (R128) -/

/-- The transactions that a bounded scan can no longer issue, because it has issued them or is past them: one mode switch at its
entry, 201 a pass, one mode switch at its exit. -/
def transactionsSpent (s : State) : Int :=
  if s.phase = .sEnter then justIssued s
  else if s.phase = .sExit then 1 + 201 * s.lat.maxdev + justIssued s
  else 1 + scanTransactions s

/-- The transactions that the PHY has yet to complete. -/
def outstanding (s : State) : Nat := s.phy.req.isSome.toNat

/-- The answers that a bounded scan can still take. -/
def answersLeft (s : State) : Int := 2 + 201 * s.lat.maxdev - transactionsSpent s + outstanding s

theorem justIssued_le (s : State) : justIssued s ≤ 1 := by unfold justIssued; split <;> omega

theorem passTransactions_le (s : State) : passTransactions s ≤ 201 := by
  have hj := justIssued_le s
  unfold passTransactions
  split <;> omega

theorem transactionsSpent_inPasses (hp : s.phase.inPasses = true) : transactionsSpent s = 1 + scanTransactions s := by
  rw [transactionsSpent, if_neg, if_neg] <;> rintro hq <;> simp [hq, Phase.inPasses] at hp

/-- Within its passes a bounded scan has yet to make its last mode switch. -/
theorem BoundedScan.spent_inPasses (hB : BoundedScan s) (hp : s.phase.inPasses = true) :
    transactionsSpent s ≤ 1 + 201 * (s.lat.maxdev : Int) := by
  have hends : s.phase ≠ .sEnter ∧ s.phase ≠ .sExit := by constructor <;> rintro hq <;> simp [hq, Phase.inPasses] at hp
  have hpasses := hB.passes
  have hpass := passTransactions_le s
  simp only [passesBegun, transactionsSpent, scanTransactions, hends, if_false, or_false] at hpasses ⊢
  split at hpasses
  · next hq =>
    have hnone : passTransactions s = 0 := by simp [passTransactions, hq]
    omega
  · omega

/-- A bounded scan issues 201 transactions a pass at most, and two mode switches. -/
theorem BoundedScan.spent_le (hB : BoundedScan s) : transactionsSpent s ≤ 2 + 201 * (s.lat.maxdev : Int) := by
  have hj := justIssued_le s
  obtain hp | hp | hp := Phase.isScan_iff.mp hB.scan
  · rw [transactionsSpent, if_pos hp]
    omega
  · rw [transactionsSpent, if_neg (by simp [hp]), if_pos hp]
    omega
  · have := hB.spent_inPasses hp
    omega

/-- While a transaction is outstanding, there is an answer to come. -/
theorem BoundedScan.answersLeft_pos (hB : BoundedScan s) (hr : s.phy.req.isSome = true) : 0 < answersLeft s := by
  have := hB.spent_le
  simp only [answersLeft, outstanding, hr, Bool.toNat_true]
  omega

/-- What a move of the core issues is outstanding. -/
theorem CoreMoves.outstanding_issued (h : CoreMoves s t) :
    phyCount t.trace + outstanding s = phyCount s.trace + outstanding t := by
  cases h with
  | stay => rfl
  | issue i w hr => simp [outstanding, hr]
  | _ => rfl

/-- The core's exit from the passes leaves one answer to take. -/
theorem answersLeft_exit (hp : t.phase = .sExit) (hf : PortFree t) : answersLeft t = 1 := by
  have hj := justIssued_of_portFree hf
  simp [answersLeft, transactionsSpent, outstanding, hp, hf.1, hj]

/-- A move of the core takes no answer, and makes no more of them needed. -/
theorem CoreMoves.answersLeft_le (h : CoreMoves s t) (hB : BoundedScan s) (ht : t.phase.isScan = true) :
    answersLeft t ≤ answersLeft s := by
  by_cases hin : s.phase.inPasses = true ∧ t.phase.inPasses = true
  · have hcount := h.countsAlike hB.inv hin.1 hin.2
    have hout := h.outstanding_issued
    rw [CountsAlike] at hcount
    rw [answersLeft, answersLeft, transactionsSpent_inPasses hin.1, transactionsSpent_inPasses hin.2, h.lat_eq]
    omega
  have hexit (hs : s.phase.inPasses = true) (hq : t.phase = .sExit) (hf : PortFree t) : answersLeft t ≤ answersLeft s := by
    have hspent := hB.spent_inPasses hs
    rw [answersLeft_exit hq hf, answersLeft]
    omega
  cases h with
  | stay => exact le_rfl
  | issue i w hr ha =>
    have hends : s.phase = .sEnter ∨ s.phase = .sExit :=
      (Phase.isScan_iff.mp hB.scan).imp_right (·.resolve_right fun hp => hin ⟨hp, hp⟩)
    obtain hp | hp := hends <;> simp [answersLeft, transactionsSpent, outstanding, justIssued, hr, ha, hp, add_right_comm]
  | sEnter v hr ha hp =>
    simp [answersLeft, transactionsSpent, outstanding, scanTransactions, passTransactions, hr, hp, justIssued_of_ack ha]
  | lastPass hr hp | inconsistency hr hp =>
    have hf : PortFree s := hB.inv.portFree (phaseRequest_internal (by simp [hp]))
    exact hexit (by rw [hp]; rfl) rfl hf
  | noDevice v hr ha hp => exact hexit (by rw [hp]; rfl) rfl ⟨hr, rfl⟩
  | xReset | xSend | xRead | kRun | sExit => cases ht
  | anotherPass hr hp | sBegin hr hp | present v hr ha hp | nextCommandBit v hr ha hp | lastCommandBit v hr ha hp
  | sReadA v hr ha hp | sReadB v hr ha hp | sendDirection d hr hp | zeroBranch hr hp | nextIndex v hr ha hp
  | lastIndex v hr ha hp | countOnly hr hp | store hr hp => simp [hp, Phase.inPasses] at hin

/-- A completing transaction moves no phase and begins no pass. -/
theorem PhyMoves.boundedScan {i : Instr} (h : PhyMoves i s t) (hB : BoundedScan s) (hp : phaseRequest s = some i) :
    BoundedScan t := by
  obtain ⟨-, hcur, hlat⟩ := h.frame
  have hphase := h.phase_eq
  refine ⟨h.inv hB.inv hp, hphase ▸ hB.scan, hlat ▸ hB.bounded, ?_⟩
  simpa only [passesBegun, hcur, hlat, hphase] using hB.passes

/-- A completing transaction takes one answer. -/
theorem PhyMoves.answersLeft_eq {i : Instr} (h : PhyMoves i s t) (hr : s.phy.req.isSome = true) :
    answersLeft t + 1 = answersLeft s := by
  obtain ⟨-, hcur, hlat⟩ := h.frame
  have hphase := h.phase_eq
  have hport : t.phy.req = none ∧ justIssued t = 1 := by cases h <;> exact ⟨rfl, rfl⟩
  have hj : justIssued s = 1 := by simp [justIssued, hr]
  simp [answersLeft, transactionsSpent, scanTransactions, passTransactions, outstanding, hcur, hlat, hphase, hport, hj, hr]

/-! ### Step by step -/

/-- The PHY may take the request that a scan makes: those of its passes need bit mode, the others no mode (R31, R87). -/
theorem Inv.takes (hI : Inv s) (hs : s.phase.isScan = true) {i : Instr} (hp : phaseRequest s = some i) : Takes s i := by
  have hphase : s.phase ≠ .idle ∧ s.phase ≠ .kRun := by constructor <;> rintro hq <;> simp [hq, Phase.isScan] at hs
  refine ⟨hI.modesAgree hphase.1 hphase.2, ?_⟩
  cases hq : s.phase with
  | sEnter | sReset | sExit =>
    obtain rfl : _ = i := by simpa [phaseRequest, hq] using hp
    rfl
  | sCmd | sReadA | sReadB | sWrite =>
    obtain rfl : _ = i := by simpa [phaseRequest, hq] using hp
    exact modeAllows_some.mpr (hI.passesBit (by rw [hq]; rfl))
  | sCheck | sBegin | sDecide | sStore => simp [phaseRequest, hq] at hp
  | idle | xReset | xSend | xRead | kRun => simp [hq, Phase.isScan] at hs

/-- A move of the core with the port free is no standstill. -/
theorem CoreMoves.ne (h : CoreMoves s t) (hr : s.phy.req = none) (hidle : s.phase ≠ .idle) : t ≠ s := by
  intro he
  cases h with
  | stay h => simp [hr, hidle] at h
  | issue i w => simpa [hr] using congrArg (fun u => u.phy.req) he
  | xReset v _ ha | xSend v _ ha | xRead v _ ha | sEnter v _ ha | present v _ ha | noDevice v _ ha | nextCommandBit v _ ha
  | lastCommandBit v _ ha | sReadA v _ ha | sReadB v _ ha | nextIndex v _ ha | lastIndex v _ ha | sExit v _ ha =>
    simpa [ha] using congrArg (fun u => u.phy.ack) he
  | kRun _ hp | anotherPass _ hp | lastPass _ hp | sBegin _ hp | sendDirection _ _ hp | zeroBranch _ hp | inconsistency _ hp
  | countOnly _ hp | store _ hp => simpa [hp] using congrArg State.phase he

/-- A scan has ended with byte mode restored and a count of at most `m`. -/
def EndedWithin (m : Nat) (t : State) : Prop :=
  t.phase = .idle ∧ t.busy = false ∧ t.mode = .byte ∧ t.phy.mode = .byte ∧ t.res.count ≤ (m : Int)

/-- The one move that ends a scan takes the completion of `S_EXIT`'s mode switch and delivers the count. -/
theorem CoreMoves.endedWithin (h : CoreMoves s t) (hB : BoundedScan s) (ht : ¬t.phase.isScan = true) :
    EndedWithin s.lat.maxdev t := by
  have hs := hB.scan
  cases h with
  | sExit v hr ha hp =>
    obtain ⟨hbyte, -⟩ := hB.inv.exitedByte hp (by rw [ha]; rfl)
    have hagree := hB.inv.modesAgree (by simp [hp]) (by simp [hp])
    have hcount := hB.passes
    simp only [passesBegun, hp] at hcount
    exact ⟨rfl, rfl, hbyte, hagree.trans hbyte, hcount⟩
  | stay | issue | nextCommandBit => exact absurd hs ht
  | xReset _ _ _ hp | xSend _ _ _ hp | xRead _ _ _ hp | kRun _ hp => simp [hp, Phase.isScan] at hs
  | _ => exact absurd rfl ht

/-- With the port free the next step is a move of the core. -/
theorem BoundedScan.step_core (hB : BoundedScan s) {vs : List Byte} (hi : s.inbox = vs.map .phyDone)
    (hr : s.phy.req = none) : ∃ t, step s = .next t ∧ CoreMoves s t := by
  have hturn := coreTurn_answering vs hr (Phase.ne_idle_of_isScan hB.scan)
  rw [answering, ← hi] at hturn
  obtain ⟨t, ht⟩ := coreMove_answers s
  exact ⟨t, (step_of_coreTurn hturn).trans ht, coreMove_moves ht⟩

/-- With a transaction outstanding the next step takes an answer. -/
theorem BoundedScan.step_answer (hB : BoundedScan s) {v : Byte} {x : List Event} (hi : s.inbox = .phyDone v :: x)
    {w : PhyWord} (hr : s.phy.req = some w) :
    ∃ t, step s = .next t ∧ BoundedScan t ∧ t.lat = s.lat ∧ t.inbox = x ∧ answersLeft t + 1 = answersLeft s := by
  obtain ⟨-, i, hp, hw⟩ := hB.inv.requestIsPhases w hr
  have hd := decode_of_encode hw
  have hB' : BoundedScan { s with inbox := x, phy := { s.phy with din := v } } :=
    ⟨hB.inv.withAnswer x v, hB.scan, hB.bounded, hB.passes⟩
  have hexec := exec_of_takes hw (hB'.inv.takes hB'.scan hp)
  have hmoves := execPhy_moves hd hexec
  obtain ⟨-, -, hlat⟩ := hmoves.frame
  exact ⟨_, (step_of_phyDone hi hr hd).trans hexec, hmoves.boundedScan hB' hp, hlat, rfl,
    hmoves.answersLeft_eq (by simp [hr])⟩

/-- A bounded scan ends on the answers it can take. -/
theorem BoundedScan.ends (vs : List Byte) {s : State} (hB : BoundedScan s) (hi : s.inbox = vs.map .phyDone)
    (hleft : answersLeft s ≤ vs.length) : ∃ n t, runSteps n s = .next t ∧ EndedWithin s.lat.maxdev t := by
  cases hr : s.phy.req with
  | none =>
    obtain ⟨t, hstep, hmove⟩ := hB.step_core hi hr
    by_cases ht : t.phase.isScan = true
    · have hnear := (hmove.movesLeft hB.scan ht).resolve_left (hmove.ne hr (Phase.ne_idle_of_isScan hB.scan))
      obtain ⟨n, u, hrun, hu⟩ := (hmove.boundedScan hB ht).ends vs (hmove.inbox.trans hi)
        ((hmove.answersLeft_le hB ht).trans hleft)
      exact ⟨n + 1, u, (runSteps_of_step hstep).trans hrun, hmove.lat_eq ▸ hu⟩
    · exact ⟨1, t, runSteps_of_step hstep, hmove.endedWithin hB ht⟩
  | some w =>
    cases hvs : vs with
    | nil =>
      rw [hvs] at hleft
      exact absurd hleft (hB.answersLeft_pos (by rw [hr]; rfl)).not_ge
    | cons v rest =>
      have hlength : vs.length = rest.length + 1 := by rw [hvs, List.length_cons]
      obtain ⟨t, hstep, hB', hlat, hinbox, htaken⟩ := hB.step_answer (hi.trans (congrArg _ hvs)) hr
      have hmoves := movesLeft_le t
      obtain ⟨n, u, hrun, hu⟩ := hB'.ends rest hinbox (by omega)
      exact ⟨n + 1, u, (runSteps_of_step hstep).trans hrun, hlat ▸ hu⟩
termination_by 8 * vs.length + movesLeft s
decreasing_by all_goals omega

/-- Settles O31: a scan at its entry is a bounded scan that can take 2 + 201 `m` answers, and ends on these. -/
theorem boundedScanCompletesWithALivePhy : Obligations.BoundedScanCompletesWithALivePhy := by
  intro s answers hI hp hf hm hi hlen
  have hB : BoundedScan s := ⟨hI, by rw [hp]; rfl, hm, by simp [passesBegun, hp]⟩
  have hleft : answersLeft s = 2 + 201 * s.lat.maxdev := by
    simp [answersLeft, transactionsSpent, outstanding, hp, hf.1, justIssued_of_portFree hf]
  exact hB.ends answers hi (by omega)

end Sys2Proof.Machine
